-- ==== Sys2Proof/Word.lean ====
section
/-! DEFINITION. The plain types of the AES codec's values (spec 00_scope.md R10, R11). -/

namespace Sys2Proof

/-- A byte, an 8-bit unsigned value (R10). -/
abbrev Byte := BitVec 8

/-- A 32-bit word: a control register, a command word (R32, R100) or an MD5 word (R193). -/
abbrev Word := BitVec 32

/-- A byte string, byte 0 first on the wire and lowest in a buffer (R10). -/
abbrev Bytes := List Byte

/-- A 16-byte block read as a 128-bit big-endian integer (R308, R311). -/
abbrev Block := BitVec 128

end Sys2Proof
end

