-- ==== Sys2Proof/Config.lean ====
section
/-! DEFINITION. What a platform fixes and the spec leaves open (spec 00_scope.md R9). -/

namespace Sys2Proof

/-- The sizes of the IN and OUT buffers, which no source fixes (R9). A model takes them as
arguments: `State.platform` carries them and no step changes them (log entry 1). -/
structure Platform where
  /-- `IN_CAP`, the size of IN in bytes. -/
  inCap : Nat
  /-- `OUT_CAP`, the size of OUT in bytes. -/
  outCap : Nat
deriving DecidableEq, Repr

namespace Platform

/-- The constraints R9 puts on both sizes: 1 to 2^64 − 1. -/
abbrev legal (p : Platform) : Prop :=
  1 ≤ p.inCap ∧ p.inCap ≤ 2 ^ 64 - 1 ∧ 1 ≤ p.outCap ∧ p.outCap ≤ 2 ^ 64 - 1

/-- R9's platform bound, under which no output overflows: `OUT_CAP ≥ max(IN_CAP + 256, 64)`. -/
abbrev roomy (p : Platform) : Prop :=
  max (p.inCap + 256) 64 ≤ p.outCap

/-- The sizes the reset state carries: those of the spec's test vectors (95_test_vectors.md).
DESIGN CHOICE, log entry 1. -/
def default : Platform := ⟨4096, 4352⟩

end Platform

end Sys2Proof
end

