-- ==== Sys2Proof/Syntax.lean ====
section
/-! DEFINITION. The commands (spec 30_encoding.md R100 to R114), the error names (60_exceptions.md
R400), the host's accesses (20_memory.md R72, R74) and the events of the agents (60_exceptions.md R420). -/

namespace Sys2Proof

/-- The block modes, in the order of R103. -/
inductive Mode where
  | cbc | cfb | ctr | ofb | gcm | ecb
deriving DecidableEq, Repr

/-- The padding schemes, in the order of R108. -/
inductive Scheme where
  | pkcs7 | iso9797m2 | ansix923 | iso10126 | zero | noPad
deriving DecidableEq, Repr

/-- The five fields of a command word as R101 lays them out, reserved values included. -/
structure Fields where
  /-- OP, bits [4:0]. -/
  op : BitVec 5
  /-- MODE, bits [7:5]. -/
  mode : BitVec 3
  /-- PAD, bits [10:8]. -/
  pad : BitVec 3
  /-- IVP, bit [11]. -/
  ivp : BitVec 1
  /-- RSV, bits [31:12]. -/
  rsv : BitVec 20
deriving DecidableEq, Repr

/-- The commands, one constructor per row of the opcode map (R114). The selectors a row leaves free
are arguments; a reserved selector value has no constructor, since decoding raises its error (R113). -/
inductive Instr where
  | encryptCbc (pad : Scheme) (ivp : Bool)
  | encryptCfb (pad : Scheme) (ivp : Bool)
  | encryptCtr (pad : Scheme) (ivp : Bool)
  | encryptOfb (pad : Scheme) (ivp : Bool)
  | encryptGcm (pad : Scheme) (ivp : Bool)
  | encryptEcb (pad : Scheme) (ivp : Bool)
  | decryptCbc (pad : Scheme) (ivp : Bool)
  | decryptCfb (pad : Scheme) (ivp : Bool)
  | decryptCtr (pad : Scheme) (ivp : Bool)
  | decryptOfb (pad : Scheme) (ivp : Bool)
  | decryptGcm (pad : Scheme) (ivp : Bool)
  | decryptEcb (pad : Scheme) (ivp : Bool)
  | padPkcs7
  | padIso9797m2
  | padAnsix923
  | padIso10126
  | padZero
  | padNone
  | unpadPkcs7
  | unpadIso9797m2
  | unpadAnsix923
  | unpadIso10126
  | unpadZero
  | unpadNone
  | derive (mode : Mode)
  | buildHdr (mode : Mode)
  | parseHdr (mode : Mode)
  | ecbEnc
  | ecbDec
  | aesEnc
  | aesDec
deriving DecidableEq, Repr

/-- The ENCRYPT form of a mode (R114, first row). -/
def encryptInstr : Mode → Scheme → Bool → Instr
  | .cbc => .encryptCbc
  | .cfb => .encryptCfb
  | .ctr => .encryptCtr
  | .ofb => .encryptOfb
  | .gcm => .encryptGcm
  | .ecb => .encryptEcb

/-- The DECRYPT form of a mode (R114, second row). -/
def decryptInstr : Mode → Scheme → Bool → Instr
  | .cbc => .decryptCbc
  | .cfb => .decryptCfb
  | .ctr => .decryptCtr
  | .ofb => .decryptOfb
  | .gcm => .decryptGcm
  | .ecb => .decryptEcb

/-- The PAD form of a scheme (R114, third row). -/
def padInstr : Scheme → Instr
  | .pkcs7 => .padPkcs7
  | .iso9797m2 => .padIso9797m2
  | .ansix923 => .padAnsix923
  | .iso10126 => .padIso10126
  | .zero => .padZero
  | .noPad => .padNone

/-- The UNPAD form of a scheme (R114, fourth row). -/
def unpadInstr : Scheme → Instr
  | .pkcs7 => .unpadPkcs7
  | .iso9797m2 => .unpadIso9797m2
  | .ansix923 => .unpadAnsix923
  | .iso10126 => .unpadIso10126
  | .zero => .unpadZero
  | .noPad => .unpadNone

/-- The errors a command can complete with (R400, codes 1 to 9 in this order). -/
inductive Err where
  | invalidKeySize
  | invalidIvLength
  | blockAlignment
  | paddingValidation
  | authenticationFailure
  | plaintextTooLarge
  | unsupportedMode
  | illegalCommand
  | capacity
deriving DecidableEq, Repr

/-- The five byte buffers, each a space of its own (R70). -/
inductive Space where
  | key | iv | salt | inp | out
deriving DecidableEq, Repr

/-- One access of the host. A CTRL access has a width in bits and a byte offset, so that the forms
R73 rejects can be written down; a buffer access moves one byte (R74). -/
inductive Access where
  | ctrlRead (width off : Nat)
  | ctrlWrite (width off : Nat) (v : Word)
  | bufRead (sp : Space) (addr : Nat)
  | bufWrite (sp : Space) (addr : Nat) (b : Byte)
deriving DecidableEq, Repr

/-- One step of one agent (R420), or reset (R450). The list of events still to come is the
interleaving of the agents (log entry 2). -/
inductive Event where
  /-- The host makes an access (R72, R74, R405). -/
  | host (a : Access)
  /-- The engine takes its step: the completion of the command in flight (R410, R411). -/
  | engine
  /-- The entropy source answers with these bytes (R430). -/
  | entropy (bs : Bytes)
  /-- The platform resets the engine (R450, R451). -/
  | reset
deriving DecidableEq, Repr

end Sys2Proof
end

