-- ==== Sys2Proof/WellFormed.lean ====
section
/-! DEFINITION. What a legal command word and a well-formed host access are, as checks on the syntax:
the field checks of 30_encoding.md R104 to R109, and the access forms of 20_memory.md R72 to R74. An
`Instr` needs no check of its own: its selectors range over the defined modes and schemes only, and a reserved
selector is refused on the fields. -/

namespace Sys2Proof

namespace Fields

/-- R105: the reserved bits are 0. -/
abbrev rsvZero (f : Fields) : Prop := f.rsv = 0#20

/-- R104: OP is one of 0x01 to 0x0B. -/
abbrev opDefined (f : Fields) : Prop := 0x01 ≤ f.op.toNat ∧ f.op.toNat ≤ 0x0B

/-- The "uses MODE" column of R102. -/
abbrev usesMode (f : Fields) : Prop := f.op.toNat ∈ [0x01, 0x02, 0x05, 0x06, 0x07]

/-- The "uses PAD" column of R102. -/
abbrev usesPad (f : Fields) : Prop := f.op.toNat ∈ [0x01, 0x02, 0x03, 0x04]

/-- The "uses IVP" column of R102. -/
abbrev usesIvp (f : Fields) : Prop := f.op.toNat ∈ [0x01, 0x02]

/-- R106: a field the operation does not use is 0. -/
abbrev unusedZero (f : Fields) : Prop :=
  (¬ f.usesMode → f.mode = 0#3) ∧ (¬ f.usesPad → f.pad = 0#3) ∧ (¬ f.usesIvp → f.ivp = 0#1)

/-- R107: a MODE the operation uses is one of 0 to 5. -/
abbrev modeDefined (f : Fields) : Prop := f.usesMode → f.mode.toNat ≤ 5

/-- R109: a PAD the operation uses is one of 0 to 5. -/
abbrev padDefined (f : Fields) : Prop := f.usesPad → f.pad.toNat ≤ 5

/-- A command word's fields are well formed when every check of R113 passes. -/
abbrev wf (f : Fields) : Prop :=
  f.rsvZero ∧ f.opDefined ∧ f.unusedZero ∧ f.modeDefined ∧ f.padDefined

end Fields

/-- The size of a buffer on a platform (R70). -/
def Space.size (p : Platform) : Space → Nat
  | .key => 32
  | .iv => 16
  | .salt => 8
  | .inp => p.inCap
  | .out => p.outCap

/-- R72: a CTRL access is 32 bits wide, at a multiple of 4, in 0x00 to 0x3C. -/
abbrev ctrlFormed (width off : Nat) : Prop := width = 32 ∧ off % 4 = 0 ∧ off ≤ 0x3C

/-- R72, R74: the accesses that are not rejected for their form. -/
def Access.wf (p : Platform) : Access → Bool
  | .ctrlRead width off => decide (ctrlFormed width off)
  | .ctrlWrite width off _ => decide (ctrlFormed width off)
  | .bufRead sp addr => decide (addr < sp.size p)
  | .bufWrite sp addr _ => decide (sp ≠ .out ∧ addr < sp.size p)

end Sys2Proof
end

