-- ==== Sys2Proof/Decode.lean ====
section
/-! DEFINITION. The decoder of command words (spec 30_encoding.md R113), total on every 32-bit word and
rejecting by the error's name; after it the encoder (R115), the opcode map (R114) and the assembler text
(R115). -/

namespace Sys2Proof

/-- The fields of a command word (R101). -/
def fieldsOf (w : Word) : Fields :=
  ⟨w.extractLsb' 0 5, w.extractLsb' 5 3, w.extractLsb' 8 3, w.extractLsb' 11 1, w.extractLsb' 12 20⟩

/-- The mode of a MODE value; 6 and 7 are reserved (R103). -/
def modeOf (m : BitVec 3) : Option Mode :=
  match m.toNat with
  | 0 => some .cbc
  | 1 => some .cfb
  | 2 => some .ctr
  | 3 => some .ofb
  | 4 => some .gcm
  | 5 => some .ecb
  | _ => none

/-- The scheme of a PAD value; 6 and 7 are reserved (R108). -/
def schemeOf (p : BitVec 3) : Option Scheme :=
  match p.toNat with
  | 0 => some .pkcs7
  | 1 => some .iso9797m2
  | 2 => some .ansix923
  | 3 => some .iso10126
  | 4 => some .zero
  | 5 => some .noPad
  | _ => none

/-- ENCRYPT and DECRYPT use every field; a reserved MODE or PAD is unsupported (R107, R109). -/
def decodeEnvelope (f : Fields) (form : Mode → Scheme → Bool → Instr) : Except Err Instr :=
  match modeOf f.mode, schemeOf f.pad with
  | some m, some p => .ok (form m p (f.ivp == 1#1))
  | _, _ => .error .unsupportedMode

/-- PAD and UNPAD use PAD only (R102, R106, R109). -/
def decodePadding (f : Fields) (form : Scheme → Instr) : Except Err Instr :=
  if f.mode ≠ 0#3 ∨ f.ivp ≠ 0#1 then .error .illegalCommand
  else match schemeOf f.pad with
    | some p => .ok (form p)
    | none => .error .unsupportedMode

/-- DERIVE, BUILD_HDR and PARSE_HDR use MODE only (R102, R106, R107). -/
def decodeDerivation (f : Fields) (form : Mode → Instr) : Except Err Instr :=
  if f.pad ≠ 0#3 ∨ f.ivp ≠ 0#1 then .error .illegalCommand
  else match modeOf f.mode with
    | some m => .ok (form m)
    | none => .error .unsupportedMode

/-- The block commands use no selector (R102, R106). -/
def decodePlain (f : Fields) (form : Instr) : Except Err Instr :=
  if f.mode ≠ 0#3 ∨ f.pad ≠ 0#3 ∨ f.ivp ≠ 0#1 then .error .illegalCommand else .ok form

/-- Decode on fields: the checks of R113 in its order (R401 item 1). -/
def decodeFields (f : Fields) : Except Err Instr :=
  if f.rsv ≠ 0#20 then .error .illegalCommand
  else match f.op.toNat with
    | 0x01 => decodeEnvelope f encryptInstr
    | 0x02 => decodeEnvelope f decryptInstr
    | 0x03 => decodePadding f padInstr
    | 0x04 => decodePadding f unpadInstr
    | 0x05 => decodeDerivation f .derive
    | 0x06 => decodeDerivation f .buildHdr
    | 0x07 => decodeDerivation f .parseHdr
    | 0x08 => decodePlain f .ecbEnc
    | 0x09 => decodePlain f .ecbDec
    | 0x0A => decodePlain f .aesEnc
    | 0x0B => decodePlain f .aesDec
    | _ => .error .illegalCommand

/-- Decode, total on every word (R113). -/
def decode (w : Word) : Except Err Instr := decodeFields (fieldsOf w)

/-- The instruction the decoder reads from an instruction of `nbits` bits whose bits are `w`, as the
opcode table numbers them. A command is one word of one register, so its bits are the table's. -/
def decodeTableWord (nbits w : Nat) : Option Instr :=
  match decode (BitVec.ofNat 32 (w % 2 ^ nbits)) with
  | .ok i => some i
  | .error _ => none

/-- The MODE code of a mode (R103). -/
def Mode.code : Mode → BitVec 3
  | .cbc => 0 | .cfb => 1 | .ctr => 2 | .ofb => 3 | .gcm => 4 | .ecb => 5

/-- The PAD code of a scheme (R108). -/
def Scheme.code : Scheme → BitVec 3
  | .pkcs7 => 0 | .iso9797m2 => 1 | .ansix923 => 2 | .iso10126 => 3 | .zero => 4 | .noPad => 5

/-- The word `OP | MODE<<5 | PAD<<8 | IVP<<11` (R115). -/
def commandWord (op : BitVec 5) (mode pad : BitVec 3) (ivp : Bool) : Word :=
  op.zeroExtend 32 ||| (mode.zeroExtend 32 <<< 5) ||| (pad.zeroExtend 32 <<< 8)
    ||| ((BitVec.ofBool ivp).zeroExtend 32 <<< 11)

/-- The command word of an instruction (R102, R114, R115). -/
def encode : Instr → Word
  | .encryptCbc p v => commandWord 0x01 Mode.cbc.code p.code v
  | .encryptCfb p v => commandWord 0x01 Mode.cfb.code p.code v
  | .encryptCtr p v => commandWord 0x01 Mode.ctr.code p.code v
  | .encryptOfb p v => commandWord 0x01 Mode.ofb.code p.code v
  | .encryptGcm p v => commandWord 0x01 Mode.gcm.code p.code v
  | .encryptEcb p v => commandWord 0x01 Mode.ecb.code p.code v
  | .decryptCbc p v => commandWord 0x02 Mode.cbc.code p.code v
  | .decryptCfb p v => commandWord 0x02 Mode.cfb.code p.code v
  | .decryptCtr p v => commandWord 0x02 Mode.ctr.code p.code v
  | .decryptOfb p v => commandWord 0x02 Mode.ofb.code p.code v
  | .decryptGcm p v => commandWord 0x02 Mode.gcm.code p.code v
  | .decryptEcb p v => commandWord 0x02 Mode.ecb.code p.code v
  | .padPkcs7 => commandWord 0x03 0 Scheme.pkcs7.code false
  | .padIso9797m2 => commandWord 0x03 0 Scheme.iso9797m2.code false
  | .padAnsix923 => commandWord 0x03 0 Scheme.ansix923.code false
  | .padIso10126 => commandWord 0x03 0 Scheme.iso10126.code false
  | .padZero => commandWord 0x03 0 Scheme.zero.code false
  | .padNone => commandWord 0x03 0 Scheme.noPad.code false
  | .unpadPkcs7 => commandWord 0x04 0 Scheme.pkcs7.code false
  | .unpadIso9797m2 => commandWord 0x04 0 Scheme.iso9797m2.code false
  | .unpadAnsix923 => commandWord 0x04 0 Scheme.ansix923.code false
  | .unpadIso10126 => commandWord 0x04 0 Scheme.iso10126.code false
  | .unpadZero => commandWord 0x04 0 Scheme.zero.code false
  | .unpadNone => commandWord 0x04 0 Scheme.noPad.code false
  | .derive m => commandWord 0x05 m.code 0 false
  | .buildHdr m => commandWord 0x06 m.code 0 false
  | .parseHdr m => commandWord 0x07 m.code 0 false
  | .ecbEnc => commandWord 0x08 0 0 false
  | .ecbDec => commandWord 0x09 0 0 false
  | .aesEnc => commandWord 0x0A 0 0 false
  | .aesDec => commandWord 0x0B 0 0 false

/-- One row of the opcode map: a word is of this form when `word &&& mask = pat` (R114). -/
structure OpcodeRow where
  mnemonic : String
  pat : Word
  mask : Word
deriving DecidableEq, Repr

/-- The ENCRYPT and DECRYPT rows of R114. -/
def envelopeRows : List OpcodeRow :=
  [⟨"ENCRYPT.CBC", 0x001, 0xFFFFF0FF⟩, ⟨"ENCRYPT.CFB", 0x021, 0xFFFFF0FF⟩,
   ⟨"ENCRYPT.CTR", 0x041, 0xFFFFF0FF⟩, ⟨"ENCRYPT.OFB", 0x061, 0xFFFFF0FF⟩,
   ⟨"ENCRYPT.GCM", 0x081, 0xFFFFF0FF⟩, ⟨"ENCRYPT.ECB", 0x0A1, 0xFFFFF0FF⟩,
   ⟨"DECRYPT.CBC", 0x002, 0xFFFFF0FF⟩, ⟨"DECRYPT.CFB", 0x022, 0xFFFFF0FF⟩,
   ⟨"DECRYPT.CTR", 0x042, 0xFFFFF0FF⟩, ⟨"DECRYPT.OFB", 0x062, 0xFFFFF0FF⟩,
   ⟨"DECRYPT.GCM", 0x082, 0xFFFFF0FF⟩, ⟨"DECRYPT.ECB", 0x0A2, 0xFFFFF0FF⟩]

/-- The PAD and UNPAD rows of R114. -/
def paddingRows : List OpcodeRow :=
  [⟨"PAD.PKCS7", 0x003, 0xFFFFFFFF⟩, ⟨"PAD.ISO9797M2", 0x103, 0xFFFFFFFF⟩,
   ⟨"PAD.ANSIX923", 0x203, 0xFFFFFFFF⟩, ⟨"PAD.ISO10126", 0x303, 0xFFFFFFFF⟩,
   ⟨"PAD.ZERO", 0x403, 0xFFFFFFFF⟩, ⟨"PAD.NONE", 0x503, 0xFFFFFFFF⟩,
   ⟨"UNPAD.PKCS7", 0x004, 0xFFFFFFFF⟩, ⟨"UNPAD.ISO9797M2", 0x104, 0xFFFFFFFF⟩,
   ⟨"UNPAD.ANSIX923", 0x204, 0xFFFFFFFF⟩, ⟨"UNPAD.ISO10126", 0x304, 0xFFFFFFFF⟩,
   ⟨"UNPAD.ZERO", 0x404, 0xFFFFFFFF⟩, ⟨"UNPAD.NONE", 0x504, 0xFFFFFFFF⟩]

/-- The remaining rows of R114. -/
def plainRows : List OpcodeRow :=
  [⟨"DERIVE", 0x005, 0xFFFFFF1F⟩, ⟨"BUILD_HDR", 0x006, 0xFFFFFF1F⟩,
   ⟨"PARSE_HDR", 0x007, 0xFFFFFF1F⟩, ⟨"ECB_ENC", 0x008, 0xFFFFFFFF⟩,
   ⟨"ECB_DEC", 0x009, 0xFFFFFFFF⟩, ⟨"AES_ENC", 0x00A, 0xFFFFFFFF⟩,
   ⟨"AES_DEC", 0x00B, 0xFFFFFFFF⟩]

/-- The opcode map, 31 rows (R114). -/
def opcodeRows : List OpcodeRow := envelopeRows ++ paddingRows ++ plainRows

/-- The form (opcode-map row) an instruction belongs to (R114). -/
def Instr.form : Instr → String
  | .encryptCbc _ _ => "ENCRYPT.CBC"
  | .encryptCfb _ _ => "ENCRYPT.CFB"
  | .encryptCtr _ _ => "ENCRYPT.CTR"
  | .encryptOfb _ _ => "ENCRYPT.OFB"
  | .encryptGcm _ _ => "ENCRYPT.GCM"
  | .encryptEcb _ _ => "ENCRYPT.ECB"
  | .decryptCbc _ _ => "DECRYPT.CBC"
  | .decryptCfb _ _ => "DECRYPT.CFB"
  | .decryptCtr _ _ => "DECRYPT.CTR"
  | .decryptOfb _ _ => "DECRYPT.OFB"
  | .decryptGcm _ _ => "DECRYPT.GCM"
  | .decryptEcb _ _ => "DECRYPT.ECB"
  | .padPkcs7 => "PAD.PKCS7"
  | .padIso9797m2 => "PAD.ISO9797M2"
  | .padAnsix923 => "PAD.ANSIX923"
  | .padIso10126 => "PAD.ISO10126"
  | .padZero => "PAD.ZERO"
  | .padNone => "PAD.NONE"
  | .unpadPkcs7 => "UNPAD.PKCS7"
  | .unpadIso9797m2 => "UNPAD.ISO9797M2"
  | .unpadAnsix923 => "UNPAD.ANSIX923"
  | .unpadIso10126 => "UNPAD.ISO10126"
  | .unpadZero => "UNPAD.ZERO"
  | .unpadNone => "UNPAD.NONE"
  | .derive _ => "DERIVE"
  | .buildHdr _ => "BUILD_HDR"
  | .parseHdr _ => "PARSE_HDR"
  | .ecbEnc => "ECB_ENC"
  | .ecbDec => "ECB_DEC"
  | .aesEnc => "AES_ENC"
  | .aesDec => "AES_DEC"

/-- The assembler's name of a mode (R110, R115). -/
def Mode.asm : Mode → String
  | .cbc => "CBC" | .cfb => "CFB" | .ctr => "CTR" | .ofb => "OFB" | .gcm => "GCM" | .ecb => "ECB"

/-- The assembler's name of a scheme (R110, R115). -/
def Scheme.asm : Scheme → String
  | .pkcs7 => "PKCS7" | .iso9797m2 => "ISO9797M2" | .ansix923 => "ANSIX923"
  | .iso10126 => "ISO10126" | .zero => "ZERO" | .noPad => "NONE"

/-- The assembler line of ENCRYPT or DECRYPT; `, iv` is present when IVP = 1 (R115). -/
def envelopeAsm (op : String) (m : Mode) (p : Scheme) (v : Bool) : String :=
  op ++ " " ++ m.asm ++ ", " ++ p.asm ++ (if v then ", iv" else "")

/-- The assembler line of a command (R115). -/
def Instr.asm : Instr → String
  | .encryptCbc p v => envelopeAsm "ENCRYPT" .cbc p v
  | .encryptCfb p v => envelopeAsm "ENCRYPT" .cfb p v
  | .encryptCtr p v => envelopeAsm "ENCRYPT" .ctr p v
  | .encryptOfb p v => envelopeAsm "ENCRYPT" .ofb p v
  | .encryptGcm p v => envelopeAsm "ENCRYPT" .gcm p v
  | .encryptEcb p v => envelopeAsm "ENCRYPT" .ecb p v
  | .decryptCbc p v => envelopeAsm "DECRYPT" .cbc p v
  | .decryptCfb p v => envelopeAsm "DECRYPT" .cfb p v
  | .decryptCtr p v => envelopeAsm "DECRYPT" .ctr p v
  | .decryptOfb p v => envelopeAsm "DECRYPT" .ofb p v
  | .decryptGcm p v => envelopeAsm "DECRYPT" .gcm p v
  | .decryptEcb p v => envelopeAsm "DECRYPT" .ecb p v
  | .padPkcs7 => "PAD PKCS7"
  | .padIso9797m2 => "PAD ISO9797M2"
  | .padAnsix923 => "PAD ANSIX923"
  | .padIso10126 => "PAD ISO10126"
  | .padZero => "PAD ZERO"
  | .padNone => "PAD NONE"
  | .unpadPkcs7 => "UNPAD PKCS7"
  | .unpadIso9797m2 => "UNPAD ISO9797M2"
  | .unpadAnsix923 => "UNPAD ANSIX923"
  | .unpadIso10126 => "UNPAD ISO10126"
  | .unpadZero => "UNPAD ZERO"
  | .unpadNone => "UNPAD NONE"
  | .derive m => "DERIVE " ++ m.asm
  | .buildHdr m => "BUILD_HDR " ++ m.asm
  | .parseHdr m => "PARSE_HDR " ++ m.asm
  | .ecbEnc => "ECB_ENC"
  | .ecbDec => "ECB_DEC"
  | .aesEnc => "AES_ENC"
  | .aesDec => "AES_DEC"

end Sys2Proof
end

