-- ==== Sys2Proof/Machine/Bytes.lean ====
section
/-! DEFINITION. Byte strings and integers: the notation of spec 00_scope.md R10, R11 and the segments of
44_modes.md R300. -/

namespace Sys2Proof.Machine

/-- `b[i..j)`, empty when j ≤ i (R10). -/
def slice (b : Bytes) (i j : Nat) : Bytes := (b.drop i).take (j - i)

/-- `rep(v, n)` (R10). -/
def rep (v : Byte) (n : Nat) : Bytes := List.replicate n v

/-- The byte of value `n mod 256`, as in `byte(N)` (40_padding.md R147, R148). -/
def byteOf (n : Nat) : Byte := BitVec.ofNat 8 n

/-- Bytewise exclusive-or; a short first operand uses the leading bytes of the second (R11, R300). -/
def xorBytes (x b : Bytes) : Bytes := List.zipWith (fun p q => p ^^^ q) x b

/-- `be(n, k)`: the k-byte big-endian encoding of n (R11). -/
def be (n : Nat) : Nat → Bytes
  | 0 => []
  | k + 1 => byteOf (n >>> (8 * k)) :: be n k

/-- `int_be(b)` (R11). -/
def intBe (b : Bytes) : Nat := b.foldl (fun acc x => acc * 256 + x.toNat) 0

/-- `le32(n)` (R11). -/
def le32 (w : Word) : Bytes :=
  [w.extractLsb' 0 8, w.extractLsb' 8 8, w.extractLsb' 16 8, w.extractLsb' 24 8]

/-- `le64(n mod 2^64)` (41_derivation.md R191). -/
def le64 (n : Nat) : Bytes := (be (n % 2 ^ 64) 8).reverse

/-- `int_le32(b)` of the four bytes from position `i` (R11, R193). -/
def intLe32 (b : Bytes) (i : Nat) : Word :=
  b.getD (i + 3) 0#8 ++ b.getD (i + 2) 0#8 ++ b.getD (i + 1) 0#8 ++ b.getD i 0#8

/-- A 16-byte block as a 128-bit integer, most significant byte first (R308, R311). -/
def toBlock (b : Bytes) : Block := BitVec.ofNat 128 (intBe b)

/-- A 128-bit integer as a 16-byte block, most significant byte first (R308, R311). -/
def ofBlock (x : Block) : Bytes := be x.toNat 16

/-- The segments left after `fuel` many; each is 16 bytes but the last, which may be shorter. -/
def segsFuel : Nat → Bytes → List Bytes
  | _, [] => []
  | 0, _ => []
  | fuel + 1, x => x.take 16 :: segsFuel fuel (x.drop 16)

/-- `Segs(X)`: the consecutive 16-byte segments of X, only the last possibly shorter (R300). -/
def segs (x : Bytes) : List Bytes := segsFuel x.length x

end Sys2Proof.Machine
end

