-- ==== Sys2Proof/Machine/Aes.lean ====
section
/-! DEFINITION. The AES block cipher (spec 42_aes_primitive.md R230 to R243), on a 4×4 byte state held by
columns. -/

namespace Sys2Proof.Machine

/-- Four bytes: a column of the AES state, rows 0 to 3 (R232), or a round-key word (R233). -/
structure Col where
  r0 : Byte
  r1 : Byte
  r2 : Byte
  r3 : Byte
deriving DecidableEq, Repr

/-- The AES state by columns (R232, R233). -/
structure AesState where
  c0 : Col
  c1 : Col
  c2 : Col
  c3 : Col
deriving DecidableEq, Repr

/-- The S-box table (R234), rows 0x to 7x. -/
def sboxLow : List (List Byte) :=
  [[0x63, 0x7c, 0x77, 0x7b, 0xf2, 0x6b, 0x6f, 0xc5, 0x30, 0x01, 0x67, 0x2b, 0xfe, 0xd7, 0xab, 0x76],
   [0xca, 0x82, 0xc9, 0x7d, 0xfa, 0x59, 0x47, 0xf0, 0xad, 0xd4, 0xa2, 0xaf, 0x9c, 0xa4, 0x72, 0xc0],
   [0xb7, 0xfd, 0x93, 0x26, 0x36, 0x3f, 0xf7, 0xcc, 0x34, 0xa5, 0xe5, 0xf1, 0x71, 0xd8, 0x31, 0x15],
   [0x04, 0xc7, 0x23, 0xc3, 0x18, 0x96, 0x05, 0x9a, 0x07, 0x12, 0x80, 0xe2, 0xeb, 0x27, 0xb2, 0x75],
   [0x09, 0x83, 0x2c, 0x1a, 0x1b, 0x6e, 0x5a, 0xa0, 0x52, 0x3b, 0xd6, 0xb3, 0x29, 0xe3, 0x2f, 0x84],
   [0x53, 0xd1, 0x00, 0xed, 0x20, 0xfc, 0xb1, 0x5b, 0x6a, 0xcb, 0xbe, 0x39, 0x4a, 0x4c, 0x58, 0xcf],
   [0xd0, 0xef, 0xaa, 0xfb, 0x43, 0x4d, 0x33, 0x85, 0x45, 0xf9, 0x02, 0x7f, 0x50, 0x3c, 0x9f, 0xa8],
   [0x51, 0xa3, 0x40, 0x8f, 0x92, 0x9d, 0x38, 0xf5, 0xbc, 0xb6, 0xda, 0x21, 0x10, 0xff, 0xf3, 0xd2]]

/-- The S-box table (R234), rows 8x to Fx. -/
def sboxHigh : List (List Byte) :=
  [[0xcd, 0x0c, 0x13, 0xec, 0x5f, 0x97, 0x44, 0x17, 0xc4, 0xa7, 0x7e, 0x3d, 0x64, 0x5d, 0x19, 0x73],
   [0x60, 0x81, 0x4f, 0xdc, 0x22, 0x2a, 0x90, 0x88, 0x46, 0xee, 0xb8, 0x14, 0xde, 0x5e, 0x0b, 0xdb],
   [0xe0, 0x32, 0x3a, 0x0a, 0x49, 0x06, 0x24, 0x5c, 0xc2, 0xd3, 0xac, 0x62, 0x91, 0x95, 0xe4, 0x79],
   [0xe7, 0xc8, 0x37, 0x6d, 0x8d, 0xd5, 0x4e, 0xa9, 0x6c, 0x56, 0xf4, 0xea, 0x65, 0x7a, 0xae, 0x08],
   [0xba, 0x78, 0x25, 0x2e, 0x1c, 0xa6, 0xb4, 0xc6, 0xe8, 0xdd, 0x74, 0x1f, 0x4b, 0xbd, 0x8b, 0x8a],
   [0x70, 0x3e, 0xb5, 0x66, 0x48, 0x03, 0xf6, 0x0e, 0x61, 0x35, 0x57, 0xb9, 0x86, 0xc1, 0x1d, 0x9e],
   [0xe1, 0xf8, 0x98, 0x11, 0x69, 0xd9, 0x8e, 0x94, 0x9b, 0x1e, 0x87, 0xe9, 0xce, 0x55, 0x28, 0xdf],
   [0x8c, 0xa1, 0x89, 0x0d, 0xbf, 0xe6, 0x42, 0x68, 0x41, 0x99, 0x2d, 0x0f, 0xb0, 0x54, 0xbb, 0x16]]

/-- The S-box table (R234): row hi, column lo. -/
def sboxRows : List (List Byte) := sboxLow ++ sboxHigh

/-- The inverse S-box table (R236), rows 0x to 7x. -/
def invSboxLow : List (List Byte) :=
  [[0x52, 0x09, 0x6a, 0xd5, 0x30, 0x36, 0xa5, 0x38, 0xbf, 0x40, 0xa3, 0x9e, 0x81, 0xf3, 0xd7, 0xfb],
   [0x7c, 0xe3, 0x39, 0x82, 0x9b, 0x2f, 0xff, 0x87, 0x34, 0x8e, 0x43, 0x44, 0xc4, 0xde, 0xe9, 0xcb],
   [0x54, 0x7b, 0x94, 0x32, 0xa6, 0xc2, 0x23, 0x3d, 0xee, 0x4c, 0x95, 0x0b, 0x42, 0xfa, 0xc3, 0x4e],
   [0x08, 0x2e, 0xa1, 0x66, 0x28, 0xd9, 0x24, 0xb2, 0x76, 0x5b, 0xa2, 0x49, 0x6d, 0x8b, 0xd1, 0x25],
   [0x72, 0xf8, 0xf6, 0x64, 0x86, 0x68, 0x98, 0x16, 0xd4, 0xa4, 0x5c, 0xcc, 0x5d, 0x65, 0xb6, 0x92],
   [0x6c, 0x70, 0x48, 0x50, 0xfd, 0xed, 0xb9, 0xda, 0x5e, 0x15, 0x46, 0x57, 0xa7, 0x8d, 0x9d, 0x84],
   [0x90, 0xd8, 0xab, 0x00, 0x8c, 0xbc, 0xd3, 0x0a, 0xf7, 0xe4, 0x58, 0x05, 0xb8, 0xb3, 0x45, 0x06],
   [0xd0, 0x2c, 0x1e, 0x8f, 0xca, 0x3f, 0x0f, 0x02, 0xc1, 0xaf, 0xbd, 0x03, 0x01, 0x13, 0x8a, 0x6b]]

/-- The inverse S-box table (R236), rows 8x to Fx. -/
def invSboxHigh : List (List Byte) :=
  [[0x3a, 0x91, 0x11, 0x41, 0x4f, 0x67, 0xdc, 0xea, 0x97, 0xf2, 0xcf, 0xce, 0xf0, 0xb4, 0xe6, 0x73],
   [0x96, 0xac, 0x74, 0x22, 0xe7, 0xad, 0x35, 0x85, 0xe2, 0xf9, 0x37, 0xe8, 0x1c, 0x75, 0xdf, 0x6e],
   [0x47, 0xf1, 0x1a, 0x71, 0x1d, 0x29, 0xc5, 0x89, 0x6f, 0xb7, 0x62, 0x0e, 0xaa, 0x18, 0xbe, 0x1b],
   [0xfc, 0x56, 0x3e, 0x4b, 0xc6, 0xd2, 0x79, 0x20, 0x9a, 0xdb, 0xc0, 0xfe, 0x78, 0xcd, 0x5a, 0xf4],
   [0x1f, 0xdd, 0xa8, 0x33, 0x88, 0x07, 0xc7, 0x31, 0xb1, 0x12, 0x10, 0x59, 0x27, 0x80, 0xec, 0x5f],
   [0x60, 0x51, 0x7f, 0xa9, 0x19, 0xb5, 0x4a, 0x0d, 0x2d, 0xe5, 0x7a, 0x9f, 0x93, 0xc9, 0x9c, 0xef],
   [0xa0, 0xe0, 0x3b, 0x4d, 0xae, 0x2a, 0xf5, 0xb0, 0xc8, 0xeb, 0xbb, 0x3c, 0x83, 0x53, 0x99, 0x61],
   [0x17, 0x2b, 0x04, 0x7e, 0xba, 0x77, 0xd6, 0x26, 0xe1, 0x69, 0x14, 0x63, 0x55, 0x21, 0x0c, 0x7d]]

/-- The inverse S-box table (R236): row hi, column lo. -/
def invSboxRows : List (List Byte) := invSboxLow ++ invSboxHigh

/-- SBOX[x], for x = 16·hi + lo (R234). -/
def sbox (x : Byte) : Byte := (sboxRows.getD (x.toNat / 16) []).getD (x.toNat % 16) 0#8

/-- INV_SBOX[y] (R236). -/
def invSbox (y : Byte) : Byte := (invSboxRows.getD (y.toNat / 16) []).getD (y.toNat % 16) 0#8

/-- Multiplication by x in GF(2^8) modulo 0x11B (R231). -/
def xtime (b : Byte) : Byte := (b <<< 1) ^^^ (if b.getLsbD 7 then 0x1B#8 else 0x00#8)

/-- The product's sum over bits i to 7 of `a`, where `p` is `xtime^i(b)` (R231). -/
def gmulFuel (a : Byte) : Nat → Nat → Byte → Byte
  | 0, _, _ => 0x00#8
  | fuel + 1, i, p => (if a.getLsbD i then p else 0x00#8) ^^^ gmulFuel a fuel (i + 1) (xtime p)

/-- The product a • b in GF(2^8) (R231). -/
def gmul (a b : Byte) : Byte := gmulFuel a 8 0 b

/-- Addition of two columns. -/
def Col.add (x y : Col) : Col := ⟨x.r0 ^^^ y.r0, x.r1 ^^^ y.r1, x.r2 ^^^ y.r2, x.r3 ^^^ y.r3⟩

/-- A function of bytes applied to the four bytes of a column. -/
def Col.map (f : Byte → Byte) (x : Col) : Col := ⟨f x.r0, f x.r1, f x.r2, f x.r3⟩

/-- A function of columns applied to the four columns of a state. -/
def AesState.mapCols (f : Col → Col) (s : AesState) : AesState := ⟨f s.c0, f s.c1, f s.c2, f s.c3⟩

/-- SubBytes (R237). -/
def subBytes (s : AesState) : AesState := s.mapCols (Col.map sbox)

/-- InvSubBytes (R237). -/
def invSubBytes (s : AesState) : AesState := s.mapCols (Col.map invSbox)

/-- ShiftRows: s'[r][c] = s[r][(c + r) mod 4] (R238). -/
def shiftRows (s : AesState) : AesState :=
  ⟨⟨s.c0.r0, s.c1.r1, s.c2.r2, s.c3.r3⟩, ⟨s.c1.r0, s.c2.r1, s.c3.r2, s.c0.r3⟩,
   ⟨s.c2.r0, s.c3.r1, s.c0.r2, s.c1.r3⟩, ⟨s.c3.r0, s.c0.r1, s.c1.r2, s.c2.r3⟩⟩

/-- InvShiftRows: s'[r][c] = s[r][(c − r) mod 4] (R238). -/
def invShiftRows (s : AesState) : AesState :=
  ⟨⟨s.c0.r0, s.c3.r1, s.c2.r2, s.c1.r3⟩, ⟨s.c1.r0, s.c0.r1, s.c3.r2, s.c2.r3⟩,
   ⟨s.c2.r0, s.c1.r1, s.c0.r2, s.c3.r3⟩, ⟨s.c3.r0, s.c2.r1, s.c1.r2, s.c0.r3⟩⟩

/-- MixColumns on one column (R239). -/
def mixCol (a : Col) : Col :=
  ⟨gmul 0x02 a.r0 ^^^ gmul 0x03 a.r1 ^^^ a.r2 ^^^ a.r3,
   a.r0 ^^^ gmul 0x02 a.r1 ^^^ gmul 0x03 a.r2 ^^^ a.r3,
   a.r0 ^^^ a.r1 ^^^ gmul 0x02 a.r2 ^^^ gmul 0x03 a.r3,
   gmul 0x03 a.r0 ^^^ a.r1 ^^^ a.r2 ^^^ gmul 0x02 a.r3⟩

/-- InvMixColumns on one column (R239). -/
def invMixCol (a : Col) : Col :=
  ⟨gmul 0x0e a.r0 ^^^ gmul 0x0b a.r1 ^^^ gmul 0x0d a.r2 ^^^ gmul 0x09 a.r3,
   gmul 0x09 a.r0 ^^^ gmul 0x0e a.r1 ^^^ gmul 0x0b a.r2 ^^^ gmul 0x0d a.r3,
   gmul 0x0d a.r0 ^^^ gmul 0x09 a.r1 ^^^ gmul 0x0e a.r2 ^^^ gmul 0x0b a.r3,
   gmul 0x0b a.r0 ^^^ gmul 0x0d a.r1 ^^^ gmul 0x09 a.r2 ^^^ gmul 0x0e a.r3⟩

/-- MixColumns (R239). -/
def mixColumns (s : AesState) : AesState := s.mapCols mixCol

/-- InvMixColumns (R239). -/
def invMixColumns (s : AesState) : AesState := s.mapCols invMixCol

/-- The zero word, for positions outside a key schedule. -/
def zeroCol : Col := ⟨0#8, 0#8, 0#8, 0#8⟩

/-- AddRoundKey(round) (R240). -/
def addRoundKey (w : List Col) (round : Nat) (s : AesState) : AesState :=
  ⟨s.c0.add (w.getD (4 * round) zeroCol), s.c1.add (w.getD (4 * round + 1) zeroCol),
   s.c2.add (w.getD (4 * round + 2) zeroCol), s.c3.add (w.getD (4 * round + 3) zeroCol)⟩

/-- The word of the four bytes of `b` from position `i` (R233). -/
def colAt (b : Bytes) (i : Nat) : Col :=
  ⟨b.getD i 0#8, b.getD (i + 1) 0#8, b.getD (i + 2) 0#8, b.getD (i + 3) 0#8⟩

/-- Loading a 16-byte block: s[r][c] = in[r + 4c] (R233). -/
def loadState (x : Bytes) : AesState := ⟨colAt x 0, colAt x 4, colAt x 8, colAt x 12⟩

/-- The four bytes of a column, row 0 first. -/
def Col.bytes (x : Col) : Bytes := [x.r0, x.r1, x.r2, x.r3]

/-- Storing a block: out[r + 4c] = s[r][c] (R233). -/
def storeState (s : AesState) : Bytes := s.c0.bytes ++ s.c1.bytes ++ s.c2.bytes ++ s.c3.bytes

/-- Nk, the 32-bit words of a key (R230). -/
def keyWords (k : Bytes) : Nat := k.length / 4

/-- Nr, the rounds of a key: 10, 12, 14 for Nk = 4, 6, 8 (R230). -/
def rounds (k : Bytes) : Nat := keyWords k + 6

/-- RotWord (R241). -/
def rotWord (t : Col) : Col := ⟨t.r1, t.r2, t.r3, t.r0⟩

/-- SubWord (R241). -/
def subWord (t : Col) : Col := t.map sbox

/-- RCON (R241). -/
def rcon : List Byte := [0x01, 0x02, 0x04, 0x08, 0x10, 0x20, 0x40, 0x80, 0x1b, 0x36]

/-- The word t that the key expansion adds to w[i − Nk] (R241). -/
def expansionTerm (nk i : Nat) (t : Col) : Col :=
  if i % nk = 0 then (subWord (rotWord t)).add ⟨rcon.getD (i / nk - 1) 0#8, 0#8, 0#8, 0#8⟩
  else if nk = 8 ∧ i % nk = 4 then subWord t
  else t

/-- Appending w[i] to the words before it (R241). -/
def expansionStep (nk : Nat) (w : List Col) (i : Nat) : List Col :=
  w ++ [(w.getD (i - nk) zeroCol).add (expansionTerm nk i (w.getD (i - 1) zeroCol))]

/-- KeyExpansion of a key into 4(Nr + 1) words (R241). -/
def keyExpansion (k : Bytes) : List Col :=
  let nk := keyWords k
  (List.range' nk (4 * (rounds k + 1) - nk)).foldl (expansionStep nk)
    ((List.range nk).map fun i => colAt k (4 * i))

/-- One inner round of the cipher (R242). -/
def encRound (w : List Col) (s : AesState) (round : Nat) : AesState :=
  addRoundKey w round (mixColumns (shiftRows (subBytes s)))

/-- One inner round of the inverse cipher (R243). -/
def decRound (w : List Col) (s : AesState) (round : Nat) : AesState :=
  invMixColumns (addRoundKey w round (invSubBytes (invShiftRows s)))

/-- The cipher on a state with round keys `w` and `nr` rounds (R242). -/
def encState (w : List Col) (nr : Nat) (s : AesState) : AesState :=
  let inner := (List.range' 1 (nr - 1)).foldl (encRound w) (addRoundKey w 0 s)
  addRoundKey w nr (shiftRows (subBytes inner))

/-- The inverse cipher on a state (R243). -/
def decState (w : List Col) (nr : Nat) (s : AesState) : AesState :=
  let inner := (List.range' 1 (nr - 1)).reverse.foldl (decRound w) (addRoundKey w nr s)
  addRoundKey w 0 (invSubBytes (invShiftRows inner))

/-- `AES_Enc(K, x)` for a legal key and a 16-byte block (R242). -/
def aesEnc (k x : Bytes) : Bytes := storeState (encState (keyExpansion k) (rounds k) (loadState x))

/-- `AES_Dec(K, y)` for a legal key and a 16-byte block (R243). -/
def aesDec (k y : Bytes) : Bytes := storeState (decState (keyExpansion k) (rounds k) (loadState y))

end Sys2Proof.Machine
end

