-- ==== Sys2Proof/Machine/Params.lean ====
section
/-! DEFINITION. The fixed parameters of the codec (spec 00_scope.md R8) and the properties of the modes
(30_encoding.md R103). -/

namespace Sys2Proof.Machine

/-- `BLK`, the AES block size in bytes (R8). -/
def blk : Nat := 16

/-- `GCM_TAG`, the tag size in bytes (R8). -/
def gcmTag : Nat := 16

/-- `GCM_MAX`, the largest GCM plaintext in bytes (R8, 44_modes.md R319). -/
def gcmMax : Nat := (2 ^ 32 - 2) * 16

/-- `SALT_LEN`, in bytes (R8). -/
def saltLen : Nat := 8

/-- `HDR_LEN`, in bytes (R8). -/
def hdrLen : Nat := 16

/-- `MAGIC`, the ASCII bytes of "Salted__" (R8). -/
def magic : Bytes := [0x53, 0x61, 0x6c, 0x74, 0x65, 0x64, 0x5f, 0x5f]

/-- `KEY_SIZES`: the legal key lengths in bytes (R8, 42_aes_primitive.md R230). -/
def keySizeLegal (n : Nat) : Bool := n == 16 || n == 24 || n == 32

/-- `ivSize(m)` in bytes (R103). -/
def ivSize : Mode → Nat
  | .cbc => 16
  | .cfb => 16
  | .ctr => 16
  | .ofb => 16
  | .gcm => 12
  | .ecb => 0

/-- Whether padding applies to a mode: the "padding applies" column of R103. -/
def modePads : Mode → Bool
  | .cbc => true
  | .ecb => true
  | .cfb => false
  | .ctr => false
  | .ofb => false
  | .gcm => false

end Sys2Proof.Machine
end

