-- ==== Sys2Proof/Machine/Modes.lean ====
section
/-! DEFINITION. The ECB adapter's transforms (spec 43_ecb_adapter.md R282, R283) and the CBC, CFB, CTR, OFB
and GCM mode engines (44_modes.md R300 to R319). Each engine walks the segments of its input. -/

namespace Sys2Proof.Machine

/-- `ECB_Enc(K, P)` (R282). -/
def ecbEnc (k p : Bytes) : Bytes := ((segs p).map (aesEnc k)).flatten

/-- `ECB_Dec(K, C)` (R283). -/
def ecbDec (k c : Bytes) : Bytes := ((segs c).map (aesDec k)).flatten

/-- CBC encryption of the segments left, with chaining value `x` (R301). -/
def cbcEncSegs (k : Bytes) : Bytes → List Bytes → Bytes
  | _, [] => []
  | x, p :: rest =>
    let c := aesEnc k (xorBytes p x)
    c ++ cbcEncSegs k c rest

/-- `CBC_Enc(K, IV, P)` (R301). -/
def cbcEnc (k iv p : Bytes) : Bytes := cbcEncSegs k iv (segs p)

/-- CBC decryption of the segments left, with chaining value `x` (R302). -/
def cbcDecSegs (k : Bytes) : Bytes → List Bytes → Bytes
  | _, [] => []
  | x, c :: rest => xorBytes (aesDec k c) x ++ cbcDecSegs k c rest

/-- `CBC_Dec(K, IV, C)` (R302). -/
def cbcDec (k iv c : Bytes) : Bytes := cbcDecSegs k iv (segs c)

/-- CFB encryption of the segments left, with feedback `x` (R304). -/
def cfbEncSegs (k : Bytes) : Bytes → List Bytes → Bytes
  | _, [] => []
  | x, p :: rest =>
    let c := xorBytes p (aesEnc k x)
    c ++ cfbEncSegs k c rest

/-- `CFB_Enc(K, IV, P)`, full-block CFB (R304, R306). -/
def cfbEnc (k iv p : Bytes) : Bytes := cfbEncSegs k iv (segs p)

/-- CFB decryption of the segments left; it uses the forward cipher (R305). -/
def cfbDecSegs (k : Bytes) : Bytes → List Bytes → Bytes
  | _, [] => []
  | x, c :: rest => xorBytes c (aesEnc k x) ++ cfbDecSegs k c rest

/-- `CFB_Dec(K, IV, C)` (R305). -/
def cfbDec (k iv c : Bytes) : Bytes := cfbDecSegs k iv (segs c)

/-- CTR on the segments left, from counter block `cb`; addition wraps modulo 2^128 (R307, R308). -/
def ctrSegs (k : Bytes) : Block → List Bytes → Bytes
  | _, [] => []
  | cb, x :: rest => xorBytes x (aesEnc k (ofBlock cb)) ++ ctrSegs k (cb + 1#128) rest

/-- `CTR_Xcrypt(K, IV, X)` (R307). -/
def ctrXcrypt (k iv x : Bytes) : Bytes := ctrSegs k (toBlock iv) (segs x)

/-- OFB on the segments left, from feedback block `o` (R309). -/
def ofbSegs (k : Bytes) : Bytes → List Bytes → Bytes
  | _, [] => []
  | o, x :: rest =>
    let o' := aesEnc k o
    xorBytes x o' ++ ofbSegs k o' rest

/-- `OFB_Xcrypt(K, IV, X)` (R309). -/
def ofbXcrypt (k iv x : Bytes) : Bytes := ofbSegs k iv (segs x)

/-- `inc32(CB)`: the last four bytes, big-endian, plus 1 modulo 2^32 (R312). -/
def inc32 (cb : Block) : Block := cb.extractLsb' 32 96 ++ (cb.extractLsb' 0 32 + 1#32)

/-- R of R313: 11100001 followed by 120 zero bits. -/
def gcmR : Block := 0xe1#128 <<< 120

/-- Step j of the multiplication on (Z, V); bit j of a block is its bit 127 − j as an integer
(R311, R313). -/
def gf128Step (x : Block) (zv : Block × Block) (j : Nat) : Block × Block :=
  (if x.getLsbD (127 - j) then zv.1 ^^^ zv.2 else zv.1,
   if zv.2.getLsbD 0 then (zv.2 >>> 1) ^^^ gcmR else zv.2 >>> 1)

/-- `GF128Mul(X, Y)` (R313). -/
def gf128Mul (x y : Block) : Block := ((List.range 128).foldl (gf128Step x) (0#128, y)).1

/-- GHASH on the blocks left, from Y_i (R314). -/
def ghashSegs (h : Block) : Block → List Bytes → Block
  | y, [] => y
  | y, b :: rest => ghashSegs h (gf128Mul (y ^^^ toBlock b) h) rest

/-- `GHASH(H, S)` (R314). -/
def ghash (h : Block) (s : Bytes) : Block := ghashSegs h 0#128 (segs s)

/-- GCTR on the segments left, from counter block `cb` (R315). -/
def gctrSegs (k : Bytes) : Block → List Bytes → Bytes
  | _, [] => []
  | cb, x :: rest => xorBytes x (aesEnc k (ofBlock cb)) ++ gctrSegs k (inc32 cb) rest

/-- `GCTR(K, ICB, X)` (R315). -/
def gctr (k : Bytes) (icb : Block) (x : Bytes) : Bytes := gctrSegs k icb (segs x)

/-- J0 = N ‖ 00000001 (R316). -/
def gcmJ0 (n : Bytes) : Block := toBlock (n ++ [0x00#8, 0x00#8, 0x00#8, 0x01#8])

/-- The string GHASH is taken of: C, zeros to a block, and the two 64-bit lengths (R314). -/
def gcmHashed (c : Bytes) : Bytes :=
  c ++ rep 0x00#8 ((16 - c.length % 16) % 16) ++ be 0 8 ++ be (8 * c.length) 8

/-- The 16-byte tag of ciphertext C (R316, R317). -/
def gcmTagOf (k n c : Bytes) : Bytes :=
  let h := toBlock (aesEnc k (rep 0x00#8 16))
  xorBytes (aesEnc k (ofBlock (gcmJ0 n))) (ofBlock (ghash h (gcmHashed c)))

/-- `GCM_Seal(K, N, P)` (R316, R319). -/
def gcmSeal (k n p : Bytes) : Except Err Bytes :=
  if gcmMax < p.length then .error .plaintextTooLarge
  else
    let c := gctr k (inc32 (gcmJ0 n)) p
    .ok (c ++ gcmTagOf k n c)

/-- `GCM_Open(K, N, E)` (R317). -/
def gcmOpen (k n e : Bytes) : Except Err Bytes :=
  if e.length < gcmTag then .error .authenticationFailure
  else
    let c := slice e 0 (e.length - gcmTag)
    let t := slice e (e.length - gcmTag) e.length
    if gcmMax < c.length then .error .plaintextTooLarge
    else if gcmTagOf k n c ≠ t then .error .authenticationFailure
    else .ok (gctr k (inc32 (gcmJ0 n)) c)

/-- Step 4 of ENCRYPT: the mode's transform of the (padded) plaintext (45_orchestrator.md R368 to R370). -/
def modeEncrypt (m : Mode) (k iv p : Bytes) : Except Err Bytes :=
  match m with
  | .cbc => .ok (cbcEnc k iv p)
  | .cfb => .ok (cfbEnc k iv p)
  | .ctr => .ok (ctrXcrypt k iv p)
  | .ofb => .ok (ofbXcrypt k iv p)
  | .gcm => gcmSeal k iv p
  | .ecb => .ok (ecbEnc k p)

/-- Step 3 of DECRYPT: the mode's transform of the ciphertext body (45_orchestrator.md R377, R378). -/
def modeDecrypt (m : Mode) (k iv c : Bytes) : Except Err Bytes :=
  match m with
  | .cbc => .ok (cbcDec k iv c)
  | .cfb => .ok (cfbDec k iv c)
  | .ctr => .ok (ctrXcrypt k iv c)
  | .ofb => .ok (ofbXcrypt k iv c)
  | .gcm => gcmOpen k iv c
  | .ecb => .ok (ecbDec k c)

end Sys2Proof.Machine
end

