-- ==== Sys2Proof/Machine/State.lean ====
section
/-! DEFINITION. The state of one engine as plain data (spec 10_state.md, 20_memory.md R70, 60_exceptions.md
R405, R420, 70_reset_and_hazards.md R450), its reset, and the reasons a step can record or stop with. -/

namespace Sys2Proof.Machine

/-- The reasons of the model-only FAULT record (10_state.md R46). Each is recorded in
`State.faults` by a step that otherwise changes no state, as the spec says, so no step of this machine ever
stops with one: safe, since a run that breaks the protocol goes on with the record set (log entry 14). -/
inductive Fault where
  /-- Raised by a host write to CTRL, KEY, IV, SALT or IN while BUSY = 1 (70_reset_and_hazards.md R460). Safe. -/
  | hostWriteWhileBusy
  /-- Raised by a host read of OUT or OUTLEN while BUSY = 1 (70_reset_and_hazards.md R461). Safe. -/
  | hostReadWhileBusy
  /-- Raised by a command that reads an unwritten byte (20_memory.md R78). Safe. -/
  | unwrittenOperand
  /-- Raised by a host read of an unwritten byte (20_memory.md R77). Safe. -/
  | hostReadUnwritten
  /-- Raised by a CTRL access that is not an aligned 32-bit access in 0x00..0x3C (20_memory.md R73). Safe. -/
  | ctrlAccessForm
  /-- Raised by a buffer access at or above the size, or a host write to OUT (20_memory.md R74). Safe. -/
  | bufferRange
deriving DecidableEq, Repr

/-- The reasons a step can be refused. -/
inductive Refusal where
  /-- Raised by no arm of `exec`: every command of the opcode map has its meaning. Safe. -/
  | notModelled (mnemonic : String)
deriving DecidableEq, Repr

/-- The FAULT record as a set: one flag per reason (R46). -/
structure FaultSet where
  hostWriteWhileBusy : Bool
  hostReadWhileBusy : Bool
  unwrittenOperand : Bool
  hostReadUnwritten : Bool
  ctrlAccessForm : Bool
  bufferRange : Bool
deriving DecidableEq, Repr

/-- The empty FAULT record (R450). -/
def FaultSet.empty : FaultSet := ⟨false, false, false, false, false, false⟩

/-- A byte buffer: its written bytes by address. An unlisted address is unwritten, so it reads as
no value (R45, R450). -/
abbrev Memory := List Host.Cell

/-- The canonical form of a buffer: addresses strictly rising. -/
def Memory.wf : Memory → Bool
  | [] => true
  | [_] => true
  | (a, _) :: (b, y) :: rest => decide (a < b) && Memory.wf ((b, y) :: rest)

/-- Every listed address is below the buffer's size (R70). -/
def Memory.within (size : Nat) (m : Memory) : Bool := m.all fun cell => decide (cell.1 < size)

/-- The operands latched at issue (60_exceptions.md R405, R406). -/
structure Latch where
  cmd : Word
  keylen : BitVec 6
  ivlen : BitVec 5
  blksz : BitVec 9
  inlen : BitVec 64
deriving DecidableEq, Repr

/-- The engine phase (R30): idle, or busy with one command in flight. STATUS.BUSY reads it (R35). -/
inductive Phase where
  | idle
  | busy (op : Latch)
deriving DecidableEq, Repr

/-- What the host's latest access returned: no value (a write, or an access that returns no value),
a CTRL word (R72) or a buffer byte (R74). The model's own, log entry 10. -/
inductive Returned where
  | nothing
  | word (w : Word)
  | byte (b : Byte)
deriving DecidableEq, Repr

/-- The state of one engine and of what the other agents still hold for it. -/
structure State where
  /-- IN_CAP and OUT_CAP (00_scope.md R9); no step changes them. -/
  platform : Platform
  /-- CMD (R33). -/
  cmd : Word
  /-- The engine phase and the command in flight (R30, R35, R405). -/
  phase : Phase
  /-- STATUS.DONE (R36). -/
  done : Bool
  /-- STATUS.HDR (R37). -/
  hdr : Bool
  /-- STATUS.ERRCODE (R38). -/
  errcode : BitVec 4
  /-- KEYLEN.LEN (R39). -/
  keylen : BitVec 6
  /-- IVLEN.LEN (R40). -/
  ivlen : BitVec 5
  /-- BLKSZ.B (R41). -/
  blksz : BitVec 9
  /-- INLEN_LO (R42). -/
  inlenLo : Word
  /-- INLEN_HI (R42). -/
  inlenHi : Word
  /-- OUTLEN_LO (R43). -/
  outlenLo : Word
  /-- OUTLEN_HI (R43). -/
  outlenHi : Word
  /-- The KEY buffer (R45). -/
  key : Memory
  /-- The IV buffer (R45). -/
  iv : Memory
  /-- The SALT buffer (R45). -/
  salt : Memory
  /-- The IN buffer (R45). -/
  inp : Memory
  /-- The OUT buffer (R45). -/
  out : Memory
  /-- The FAULT record (R46). -/
  faults : FaultSet
  /-- The entropy source's answers no command has drawn yet (60_exceptions.md R430; log entry 4). -/
  entropy : Bytes
  /-- What the host's latest access returned (log entry 10). -/
  returned : Returned
  /-- The agents' steps still to come (60_exceptions.md R420; log entry 2). -/
  agenda : List Event
deriving DecidableEq, Repr

/-- The state right after reset on a platform (R450), with what the platform keeps across it: the
entropy source's answers ("not reset by the codec") and the agents' steps still to come. -/
def State.resetOn (p : Platform) (answers : Bytes) (events : List Event) : State where
  platform := p
  cmd := 0#32
  phase := .idle
  done := false
  hdr := false
  errcode := 0#4
  keylen := 0#6
  ivlen := 0#5
  blksz := 0#9
  inlenLo := 0#32
  inlenHi := 0#32
  outlenLo := 0#32
  outlenHi := 0#32
  key := []
  iv := []
  salt := []
  inp := []
  out := []
  faults := FaultSet.empty
  entropy := answers
  returned := .nothing
  agenda := events

/-- The machine right after reset (R450), on the platform of log entry 1, with no answer given and
no step of an agent to come. -/
def State.reset : State := State.resetOn Platform.default [] []

end Sys2Proof.Machine
end

