-- ==== Sys2Proof/Machine/Flags.lean ====
section
/-! DEFINITION. The STATUS register: the numeric error codes, the word the host reads, and what issue and
completion write to its fields (spec 10_state.md R34 to R38, R49, 60_exceptions.md R400, R405, R410, R411). -/

namespace Sys2Proof.Machine

/-- The code of an error in STATUS.ERRCODE (R400). -/
def errCode : Err → BitVec 4
  | .invalidKeySize => 1
  | .invalidIvLength => 2
  | .blockAlignment => 3
  | .paddingValidation => 4
  | .authenticationFailure => 5
  | .plaintextTooLarge => 6
  | .unsupportedMode => 7
  | .illegalCommand => 8
  | .capacity => 9

/-- STATUS.BUSY: a command is in flight (R30, R35). -/
def State.isBusy (s : State) : Bool :=
  match s.phase with
  | .idle => false
  | .busy _ => true

/-- The STATUS word: BUSY [0], DONE [1], HDR [2], ERRCODE [11:8]; the other bits read 0 (R34). -/
def statusWord (s : State) : Word :=
  (BitVec.ofBool s.isBusy).zeroExtend 32 ||| ((BitVec.ofBool s.done).zeroExtend 32 <<< 1)
    ||| ((BitVec.ofBool s.hdr).zeroExtend 32 <<< 2) ||| (s.errcode.zeroExtend 32 <<< 8)

/-- What issue writes to STATUS: BUSY set with the latched operands, the rest cleared (R405). -/
def statusIssued (op : Latch) (s : State) : State :=
  { s with phase := .busy op, done := false, hdr := false, errcode := 0#4 }

/-- What a successful completion writes to STATUS (R410). -/
def statusOk (hdr : Bool) (s : State) : State :=
  { s with phase := .idle, done := true, hdr := hdr, errcode := 0#4 }

/-- What an error completion writes to STATUS (R411). -/
def statusErr (e : Err) (s : State) : State :=
  { s with phase := .idle, done := true, hdr := false, errcode := errCode e }

end Sys2Proof.Machine
end

