-- ==== Sys2Proof/Machine/Ops.lean ====
section
/-! DEFINITION. The named operations on buffers and registers, the issue and completion steps, and what a
command's rule reaches (spec 10_state.md R32 to R46, 20_memory.md R72 to R78, 60_exceptions.md R405 to R411). -/

namespace Sys2Proof.Machine

/-- The byte at an address, or no value when it is unwritten (R45). -/
def Memory.read : Memory → Nat → Option Byte
  | [], _ => none
  | (k, v) :: rest, a => if k = a then some v else Memory.read rest a

/-- Storing a byte at an address; the addresses stay strictly rising (R45). -/
def Memory.write : Memory → Nat → Byte → Memory
  | [], a, b => [(a, b)]
  | (k, v) :: rest, a, b =>
    if a < k then (a, b) :: (k, v) :: rest
    else if a = k then (a, b) :: rest
    else (k, v) :: Memory.write rest a b

/-- `MemRead(S, a, n)`: n bytes from address a upward, or no value when one is unwritten (R75, R78). -/
def Memory.readRange (m : Memory) (a : Nat) : Nat → Option Bytes
  | 0 => some []
  | n + 1 =>
    match m.read a, Memory.readRange m (a + 1) n with
    | some b, some rest => some (b :: rest)
    | _, _ => none

/-- `MemWrite(S, a, n, r)` with n = len(r) (R76). -/
def Memory.writeRange : Memory → Nat → Bytes → Memory
  | m, _, [] => m
  | m, a, b :: rest => Memory.writeRange (m.write a b) (a + 1) rest

/-- The buffer of a space (R70). -/
def State.buffer (s : State) : Space → Memory
  | .key => s.key
  | .iv => s.iv
  | .salt => s.salt
  | .inp => s.inp
  | .out => s.out

/-- The state with a buffer replaced. -/
def State.setBuffer (s : State) (sp : Space) (m : Memory) : State :=
  match sp with
  | .key => { s with key := m }
  | .iv => { s with iv := m }
  | .salt => { s with salt := m }
  | .inp => { s with inp := m }
  | .out => { s with out := m }

/-- Adding a reason to the FAULT record (R46). -/
def FaultSet.add (fs : FaultSet) : Fault → FaultSet
  | .hostWriteWhileBusy => { fs with hostWriteWhileBusy := true }
  | .hostReadWhileBusy => { fs with hostReadWhileBusy := true }
  | .unwrittenOperand => { fs with unwrittenOperand := true }
  | .hostReadUnwritten => { fs with hostReadUnwritten := true }
  | .ctrlAccessForm => { fs with ctrlAccessForm := true }
  | .bufferRange => { fs with bufferRange := true }

/-- Whether a reason is in the FAULT record (R46). -/
def FaultSet.has (fs : FaultSet) : Fault → Bool
  | .hostWriteWhileBusy => fs.hostWriteWhileBusy
  | .hostReadWhileBusy => fs.hostReadWhileBusy
  | .unwrittenOperand => fs.unwrittenOperand
  | .hostReadUnwritten => fs.hostReadUnwritten
  | .ctrlAccessForm => fs.ctrlAccessForm
  | .bufferRange => fs.bufferRange

/-- The state with a reason added to FAULT. -/
def State.addFault (s : State) (f : Fault) : State := { s with faults := s.faults.add f }

/-- INLEN = INLEN_HI ‖ INLEN_LO (R42). -/
def State.inlen (s : State) : BitVec 64 := s.inlenHi ++ s.inlenLo

/-- OUTLEN = OUTLEN_HI ‖ OUTLEN_LO (R43). -/
def State.outlen (s : State) : BitVec 64 := s.outlenHi ++ s.outlenLo

/-- Writing the 64-bit OUTLEN (R43). -/
def State.setOutlen (s : State) (n : BitVec 64) : State :=
  { s with outlenLo := n.extractLsb' 0 32, outlenHi := n.extractLsb' 32 32 }

/-- A CTRL register as the host reads it, by offset; reserved offsets read 0 (R32 to R44). -/
def readReg (s : State) (off : Nat) : Word :=
  match off with
  | 0x00 => s.cmd
  | 0x04 => statusWord s
  | 0x08 => s.keylen.zeroExtend 32
  | 0x0C => s.ivlen.zeroExtend 32
  | 0x10 => s.blksz.zeroExtend 32
  | 0x18 => s.inlenLo
  | 0x1C => s.inlenHi
  | 0x20 => s.outlenLo
  | 0x24 => s.outlenHi
  | _ => 0#32

/-- What a host write stores in a CTRL register other than CMD: the writable bits. STATUS, OUTLEN and
the reserved offsets ignore writes (R34, R39 to R44). -/
def writeReg (s : State) (off : Nat) (v : Word) : State :=
  match off with
  | 0x08 => { s with keylen := v.extractLsb' 0 6 }
  | 0x0C => { s with ivlen := v.extractLsb' 0 5 }
  | 0x10 => { s with blksz := v.extractLsb' 0 9 }
  | 0x18 => { s with inlenLo := v }
  | 0x1C => { s with inlenHi := v }
  | _ => s

/-- The operands an issue latches from CMD and the length registers (R405). -/
def State.snapshot (s : State) : Latch := ⟨s.cmd, s.keylen, s.ivlen, s.blksz, s.inlen⟩

/-- The operands the command in flight runs on: those latched at its issue (R405, R406). With no
command in flight, those an issue would latch (log entry 6). -/
def State.operands (s : State) : Latch :=
  match s.phase with
  | .idle => s.snapshot
  | .busy op => op

/-- The issue step for a word written to CMD (R405). -/
def issue (w : Word) (s : State) : State :=
  let t := { s with cmd := w }
  statusIssued t.snapshot t

/-- The successful completion step with result r (R410). -/
def completeOk (r : Bytes) (hdr : Bool) (s : State) : State :=
  statusOk hdr
    (State.setOutlen { s with out := s.out.writeRange 0 r } (BitVec.ofNat 64 r.length))

/-- The error completion step: the whole of the codec's exception handling. No register, mode or
address is saved and nothing is written but STATUS and OUTLEN (R411, R412). There is no return from
it; the next issue clears it (R413). -/
def completeErr (e : Err) (s : State) : State := statusErr e (s.setOutlen 0#64)

/-- What a command's rule reaches, with the entropy answers left. -/
inductive Reach (α : Type) where
  /-- The rule goes on (or returns) with a value. -/
  | done (a : α) (answers : Bytes)
  /-- `raise E` (00_scope.md R12). -/
  | raised (e : Err) (answers : Bytes)
  /-- A MemRead covered an unwritten byte: the command has no completion (R78). -/
  | unwritten
  /-- A draw is not answered yet: the command waits (60_exceptions.md R431). -/
  | waiting
deriving DecidableEq, Repr

/-- A piece of a command's rule: it takes the entropy answers not drawn yet. -/
abbrev Run (α : Type) := Bytes → Reach α

/-- A command's result: the bytes for OUT, and whether a salted header was produced or consumed (R37). -/
structure Result where
  bytes : Bytes
  hdr : Bool
deriving DecidableEq, Repr

/-- `let x = a` of the pseudocode (R13). -/
def Run.ret {α : Type} (a : α) : Run α := fun answers => .done a answers

/-- `raise E` of the pseudocode (R12). -/
def Run.raise {α : Type} (e : Err) : Run α := fun answers => .raised e answers

/-- One piece of a rule after another: no later piece runs after an error (R12, R13). -/
def Run.bind {α β : Type} (x : Run α) (f : α → Run β) : Run β := fun answers =>
  match x answers with
  | .done a rest => f a rest
  | .raised e rest => .raised e rest
  | .unwritten => .unwritten
  | .waiting => .waiting

/-- `if not ok then raise E`. -/
def Run.check (ok : Bool) (e : Err) : Run Unit := if ok then Run.ret () else Run.raise e

/-- A function call that may raise (R13). -/
def Run.lift {α : Type} : Except Err α → Run α
  | .ok a => Run.ret a
  | .error e => Run.raise e

/-- `MemRead(S, a, n)` inside a command (R75, R78). -/
def Run.read (m : Memory) (a n : Nat) : Run Bytes := fun answers =>
  match m.readRange a n with
  | some b => .done b answers
  | none => .unwritten

/-- `Draw(n)`: the next n answered bytes; `Draw(0)` needs no answer (60_exceptions.md R430 to R432). -/
def Run.draw (n : Nat) : Run Bytes := fun answers =>
  if n ≤ answers.length then .done (answers.take n) (answers.drop n) else .waiting

/-- The completion step for what the command's rule reached: the output capacity check (R403), then
the successful or the error completion; or none of them, when a byte read is unwritten (R78) or a draw is
not answered (R431). In the last two cases no answer is used up (log entry 5). -/
def conclude (s : State) : Reach Result → State
  | .done r answers =>
    if r.bytes.length ≤ s.platform.outCap then completeOk r.bytes r.hdr { s with entropy := answers }
    else completeErr .capacity { s with entropy := answers }
  | .raised e answers => completeErr e { s with entropy := answers }
  | .unwritten => s.addFault .unwrittenOperand
  | .waiting => s

/-- The engine's step for a command whose rule is `rule` (R407, R410, R411). It always answers a next
state. -/
def runRule (rule : Run Result) (s : State) : Host.Outcome State Fault Refusal :=
  .next (conclude s (rule s.entropy))

/-- The state after a step, put into what holds it (a cluster, a session). -/
def mapNext {σ τ : Type} (f : σ → τ) : Host.Outcome σ Fault Refusal → Host.Outcome τ Fault Refusal
  | .next s => .next (f s)
  | .fault r => .fault r
  | .refused r => .refused r

end Sys2Proof.Machine
end

