-- ==== Sys2Proof/Machine/Operands.lean ====
section
/-! DEFINITION. How a command reaches its operands (spec 30_encoding.md R112): the checks that come before a
read and the reads of KEY, IV, SALT and IN. -/

namespace Sys2Proof.Machine

/-- The key length in bytes of the command's operands (10_state.md R39). -/
def State.keyBytes (s : State) : Nat := s.operands.keylen.toNat

/-- The IV length in bytes of the command's operands (10_state.md R40). -/
def State.ivBytes (s : State) : Nat := s.operands.ivlen.toNat

/-- The block size of the command's operands (10_state.md R41). -/
def State.blockSize (s : State) : Nat := s.operands.blksz.toNat

/-- The input length in bytes of the command's operands (10_state.md R42). -/
def State.inBytes (s : State) : Nat := s.operands.inlen.toNat

/-- The input capacity check of every command that reads IN (60_exceptions.md R402). -/
def checkIn (s : State) : Run Unit := Run.check (decide (s.inBytes ≤ s.platform.inCap)) .capacity

/-- CheckKey on KEYLEN.LEN (42_aes_primitive.md R244). -/
def checkKey (s : State) : Run Unit := Run.check (keySizeLegal s.keyBytes) .invalidKeySize

/-- KEY[0..KEYLEN.LEN) (R112). -/
def readKey (s : State) : Run Bytes := Run.read s.key 0 s.keyBytes

/-- SALT[0..8) (R112). -/
def readSalt (s : State) : Run Bytes := Run.read s.salt 0 saltLen

/-- IN[a..b) (R112). -/
def readIn (s : State) (a b : Nat) : Run Bytes := Run.read s.inp a (b - a)

/-- ExplicitIV(m): the length check, then IV[0..IVLEN.LEN) (45_orchestrator.md R364). -/
def explicitIv (m : Mode) (ivp : Bool) (s : State) : Run Bytes :=
  (Run.check (ivp && decide (s.ivBytes = ivSize m)) .invalidIvLength).bind fun _ =>
    Run.read s.iv 0 s.ivBytes

end Sys2Proof.Machine
end

