-- ==== Sys2Proof/Machine/BlockCommands.lean ====
section
/-! DEFINITION. The raw block commands: ECB_ENC, ECB_DEC (spec 43_ecb_adapter.md R280, R281) and AES_ENC,
AES_DEC (42_aes_primitive.md R245, R246). -/

namespace Sys2Proof.Machine

/-- A block command: CheckKey, then the alignment of INLEN, then the reads and the transform. -/
def blockRule (aligned : Nat → Bool) (f : Bytes → Bytes → Bytes) (s : State) : Run Result :=
  (checkIn s).bind fun _ =>
  (checkKey s).bind fun _ =>
  (Run.check (aligned s.inBytes) .blockAlignment).bind fun _ =>
  (readKey s).bind fun k =>
  (readIn s 0 s.inBytes).bind fun x =>
  Run.ret ⟨f k x, false⟩

/-- The alignment ECB_ENC and ECB_DEC ask: whole blocks, none included (R280, R281). -/
def wholeBlocks (n : Nat) : Bool := decide (n % blk = 0)

/-- The length AES_ENC and AES_DEC ask: exactly one block (R245, R246). -/
def oneBlock (n : Nat) : Bool := decide (n = blk)

/-- ECB_ENC (R280). -/
def execEcbEnc (s : State) : Host.Outcome State Fault Refusal := runRule (blockRule wholeBlocks ecbEnc s) s

/-- ECB_DEC (R281). -/
def execEcbDec (s : State) : Host.Outcome State Fault Refusal := runRule (blockRule wholeBlocks ecbDec s) s

/-- AES_ENC (R245). -/
def execAesEnc (s : State) : Host.Outcome State Fault Refusal := runRule (blockRule oneBlock aesEnc s) s

/-- AES_DEC (R246). -/
def execAesDec (s : State) : Host.Outcome State Fault Refusal := runRule (blockRule oneBlock aesDec s) s

end Sys2Proof.Machine
end

