-- ==== Sys2Proof/Machine/Md5.lean ====
section
/-! DEFINITION. MD5 (spec 41_derivation.md R190 to R196). -/

namespace Sys2Proof.Machine

/-- The chaining words (A, B, C, D) (R192, R195). -/
structure Md5Words where
  a : Word
  b : Word
  c : Word
  d : Word
deriving DecidableEq, Repr

/-- k of R191: the least k with (L + 1 + k) mod 64 = 56. -/
def md5ZeroCount (l : Nat) : Nat := (119 - l % 64) % 64

/-- The padded message M' (R191). -/
def md5Pad (m : Bytes) : Bytes :=
  m ++ [0x80#8] ++ rep 0x00#8 (md5ZeroCount m.length) ++ le64 (8 * m.length)

/-- The initial chaining words (R192). -/
def md5Init : Md5Words := ⟨0x67452301, 0xefcdab89, 0x98badcfe, 0x10325476⟩

/-- T[0..15] (R192). -/
def md5T0 : List Word :=
  [0xd76aa478, 0xe8c7b756, 0x242070db, 0xc1bdceee,
   0xf57c0faf, 0x4787c62a, 0xa8304613, 0xfd469501,
   0x698098d8, 0x8b44f7af, 0xffff5bb1, 0x895cd7be,
   0x6b901122, 0xfd987193, 0xa679438e, 0x49b40821]

/-- T[16..31] (R192). -/
def md5T1 : List Word :=
  [0xf61e2562, 0xc040b340, 0x265e5a51, 0xe9b6c7aa,
   0xd62f105d, 0x02441453, 0xd8a1e681, 0xe7d3fbc8,
   0x21e1cde6, 0xc33707d6, 0xf4d50d87, 0x455a14ed,
   0xa9e3e905, 0xfcefa3f8, 0x676f02d9, 0x8d2a4c8a]

/-- T[32..47] (R192). -/
def md5T2 : List Word :=
  [0xfffa3942, 0x8771f681, 0x6d9d6122, 0xfde5380c,
   0xa4beea44, 0x4bdecfa9, 0xf6bb4b60, 0xbebfbc70,
   0x289b7ec6, 0xeaa127fa, 0xd4ef3085, 0x04881d05,
   0xd9d4d039, 0xe6db99e5, 0x1fa27cf8, 0xc4ac5665]

/-- T[48..63] (R192). -/
def md5T3 : List Word :=
  [0xf4292244, 0x432aff97, 0xab9423a7, 0xfc93a039,
   0x655b59c3, 0x8f0ccc92, 0xffeff47d, 0x85845dd1,
   0x6fa87e4f, 0xfe2ce6e0, 0xa3014314, 0x4e0811a1,
   0xf7537e82, 0xbd3af235, 0x2ad7d2bb, 0xeb86d391]

/-- The additive constants T[i] (R192), a row of sixteen per round. -/
def md5T (i : Nat) : Word := ([md5T0, md5T1, md5T2, md5T3].getD (i / 16) []).getD (i % 16) 0#32

/-- The shift amounts S[i] (R192). -/
def md5S (i : Nat) : Nat :=
  ([[7, 12, 17, 22], [5, 9, 14, 20], [4, 11, 16, 23], [6, 10, 15, 21]].getD (i / 16) []).getD (i % 4) 0

/-- The round function f_i(b, c, d) (R194). -/
def md5F (i : Nat) (b c d : Word) : Word :=
  if i < 16 then (b &&& c) ||| (~~~b &&& d)
  else if i < 32 then (b &&& d) ||| (c &&& ~~~d)
  else if i < 48 then b ^^^ c ^^^ d
  else c ^^^ (b ||| ~~~d)

/-- The message index g_i (R194). -/
def md5G (i : Nat) : Nat :=
  if i < 16 then i
  else if i < 32 then (5 * i + 1) % 16
  else if i < 48 then (3 * i + 5) % 16
  else (7 * i) % 16

/-- Step i of the compression on one block's words (R195). -/
def md5Step (x : List Word) (s : Md5Words) (i : Nat) : Md5Words :=
  let t := (s.a + md5F i s.b s.c s.d + md5T i + x.getD (md5G i) 0#32).rotateLeft (md5S i)
  ⟨s.d, s.b + t, s.b, s.c⟩

/-- The sixteen little-endian words of a block (R193). -/
def md5Words (blk : Bytes) : List Word := (List.range 16).map fun j => intLe32 blk (4 * j)

/-- The compression of one block (R195). -/
def md5Compress (s : Md5Words) (blk : Bytes) : Md5Words :=
  let r := (List.range 64).foldl (md5Step (md5Words blk)) s
  ⟨s.a + r.a, s.b + r.b, s.c + r.c, s.d + r.d⟩

/-- The compression of the first `n` 64-byte blocks of `m`, in address order (R195). -/
def md5Blocks : Nat → Md5Words → Bytes → Md5Words
  | 0, s, _ => s
  | n + 1, s, m => md5Blocks n (md5Compress s (m.take 64)) (m.drop 64)

/-- MD5(M), 16 bytes (R196). -/
def md5 (m : Bytes) : Bytes :=
  let p := md5Pad m
  let r := md5Blocks (p.length / 64) md5Init p
  le32 r.a ++ le32 r.b ++ le32 r.c ++ le32 r.d

end Sys2Proof.Machine
end

