-- ==== Sys2Proof/Machine/Kdf.lean ====
section
/-! DEFINITION. EVP_BytesToKey and the salted header (spec 41_derivation.md R197 to R199). -/

namespace Sys2Proof.Machine

/-- The concatenation D(i) ‖ D(i+1) ‖ … of `n` digests, where `prev` is D(i−1), or ε before D0 (R197). -/
def kdfDigests (salt pw : Bytes) : Nat → Bytes → Bytes
  | 0, _ => []
  | n + 1, prev =>
    let digest := md5 (prev ++ pw ++ salt)
    digest ++ kdfDigests salt pw n digest

/-- `DeriveKeyMaterial(salt, pw, ks, ts)`: (key, iv) from ceil(ts / 16) digests (R197). -/
def deriveKeyMaterial (salt pw : Bytes) (ks ts : Nat) : Bytes × Bytes :=
  let acc := kdfDigests salt pw ((ts + 15) / 16) []
  (slice acc 0 ks, slice acc ks ts)

/-- `TotalSize(ks, m)` (R198). -/
def totalSize (ks : Nat) (m : Mode) : Nat := ks + ivSize m

/-- `Header(salt)` (R199). -/
def header (salt : Bytes) : Bytes := magic ++ salt

end Sys2Proof.Machine
end

