-- ==== Sys2Proof/Machine/Padding.lean ====
section
/-! DEFINITION. The padding engine's functions Pad and Unpad (spec 40_padding.md R140 to R159). -/

namespace Sys2Proof.Machine

/-- PadLen(L, B) (R140). -/
def padLen (l b : Nat) : Nat := b - l % b

/-- The block sizes of a scheme's range (R141). -/
def blockSizeOk : Scheme → Nat → Bool
  | .pkcs7, b => decide (1 ≤ b ∧ b ≤ 255)
  | .iso9797m2, b => decide (1 ≤ b ∧ b ≤ 255)
  | .ansix923, b => decide (1 ≤ b ∧ b ≤ 255)
  | .zero, b => decide (1 ≤ b ∧ b ≤ 255)
  | .iso10126, b => decide (1 ≤ b ∧ b ≤ 256)
  | .noPad, b => decide (1 ≤ b ∧ b ≤ 511)

/-- Pad, ZeroPadding (R144). -/
def zeroPad (d : Bytes) (b : Nat) : Bytes := d ++ rep 0x00#8 (padLen d.length b)

/-- The bytes Pad draws: N − 1 filler bytes for ISO10126 (R148), none for the others (R142). -/
def fillerLen : Scheme → Nat → Nat → Nat
  | .iso10126, l, b => padLen l b - 1
  | .pkcs7, _, _ => 0
  | .iso9797m2, _, _ => 0
  | .ansix923, _, _ => 0
  | .zero, _, _ => 0
  | .noPad, _, _ => 0

/-- `Pad(s, D, B)` for a block size in range, where `fill` is the drawn filler (R143 to R148). -/
def padWith (s : Scheme) (d : Bytes) (b : Nat) (fill : Bytes) : Except Err Bytes :=
  let n := padLen d.length b
  match s with
  | .pkcs7 => .ok (d ++ rep (byteOf n) n)
  | .zero => .ok (zeroPad d b)
  | .iso9797m2 => .ok (zeroPad (d ++ [0x80#8]) b)
  | .noPad => if d.length % b ≠ 0 then .error .blockAlignment else .ok d
  | .ansix923 => .ok (d ++ rep 0x00#8 (n - 1) ++ [byteOf n])
  | .iso10126 => .ok (d ++ fill ++ [byteOf n])

/-- The data without its trailing 0x00 bytes: Unpad, ZeroPadding (R152). -/
def stripZeros (d : Bytes) : Bytes := d.rdropWhile (fun x => x == 0x00#8)

/-- The count byte N of PKCS7, ANSI X.923 and ISO10126, when 1 ≤ N ≤ B and N ≤ L (R151, R155, R157). -/
def padCount (d : Bytes) (b : Nat) : Except Err Nat :=
  match d.getLast? with
  | none => .error .paddingValidation
  | some x =>
    if x.toNat = 0 ∨ b < x.toNat ∨ d.length < x.toNat then .error .paddingValidation
    else .ok x.toNat

/-- `Unpad(s, D, B)` for a block size in range (R151 to R159). -/
def unpadBody (s : Scheme) (d : Bytes) (b : Nat) : Except Err Bytes :=
  let l := d.length
  match s with
  | .zero => .ok (stripZeros d)
  | .iso9797m2 =>
    if (stripZeros d).length = 0 then .error .paddingValidation else .ok (stripZeros d).dropLast
  | .noPad => if l % b ≠ 0 then .error .blockAlignment else .ok d
  | .pkcs7 =>
    match padCount d b with
    | .error e => .error e
    | .ok n =>
      if slice d (l - n) l ≠ rep (byteOf n) n then .error .paddingValidation else .ok (d.take (l - n))
  | .ansix923 =>
    match padCount d b with
    | .error e => .error e
    | .ok n =>
      if slice d (l - n) (l - 1) ≠ rep 0x00#8 (n - 1) then .error .paddingValidation
      else .ok (d.take (l - n))
  | .iso10126 =>
    match padCount d b with
    | .error e => .error e
    | .ok n => .ok (d.take (l - n))

/-- CheckB(s, B) (R141). -/
def checkB (s : Scheme) (b : Nat) : Except Err Unit :=
  if blockSizeOk s b then .ok () else .error .paddingValidation

/-- `Pad(s, D, B)` with the drawn filler: CheckB, then the scheme (R141, R143 to R148). -/
def pad (s : Scheme) (d : Bytes) (b : Nat) (fill : Bytes) : Except Err Bytes :=
  match checkB s b with
  | .error e => .error e
  | .ok () => padWith s d b fill

/-- `Unpad(s, D, B)`: CheckB, then the scheme (R141, R151 to R159). -/
def unpad (s : Scheme) (d : Bytes) (b : Nat) : Except Err Bytes :=
  match checkB s b with
  | .error e => .error e
  | .ok () => unpadBody s d b

end Sys2Proof.Machine
end

