-- ==== Sys2Proof/Machine/Encrypt.lean ====
section
/-! DEFINITION. The ENCRYPT commands (spec 45_orchestrator.md R360 to R373). -/

namespace Sys2Proof.Machine

/-- `Pad(s, D, B)` with its draw: CheckB, Draw(N − 1) for ISO10126, the scheme (40_padding.md R141 to R148). -/
def padRun (sch : Scheme) (d : Bytes) (b : Nat) : Run Bytes :=
  (Run.lift (checkB sch b)).bind fun _ =>
    (Run.draw (fillerLen sch d.length b)).bind fun fill =>
      Run.lift (padWith sch d b fill)

/-- Step 2 of ENCRYPT: the plaintext is padded in CBC and ECB only (R367). -/
def padStep (m : Mode) (sch : Scheme) (p : Bytes) : Run Bytes :=
  if modePads m then padRun sch p blk else Run.ret p

/-- The header to prefix, the key and the IV a command works with. -/
structure Keying where
  hdr : Bytes
  key : Bytes
  iv : Bytes
deriving DecidableEq, Repr

/-- The key and IV derived from a salt, with the caller's key as the password (R363, R366, R375). -/
def saltedKeying (m : Mode) (k salt : Bytes) (ks : Nat) : Keying :=
  let kv := deriveKeyMaterial salt k ks (totalSize ks m)
  ⟨header salt, kv.1, kv.2⟩

/-- Step 3 of ENCRYPT: ECB uses the caller's key and no IV; without an IV a salted header is built;
otherwise the explicit IV is used (R364, R366, R373). -/
def encryptKeying (m : Mode) (ivp : Bool) (s : State) (k : Bytes) : Run Keying :=
  if m = .ecb then Run.ret ⟨[], k, []⟩
  else if ivp then (explicitIv m ivp s).bind fun iv => Run.ret ⟨[], k, iv⟩
  else (Run.draw saltLen).bind fun salt => Run.ret (saltedKeying m k salt s.keyBytes)

/-- ENCRYPT (R365). -/
def encryptRule (m : Mode) (sch : Scheme) (ivp : Bool) (s : State) : Run Result :=
  (checkIn s).bind fun _ =>
  (checkKey s).bind fun _ =>
  (readKey s).bind fun k =>
  (readIn s 0 s.inBytes).bind fun p =>
  (padStep m sch p).bind fun padded =>
  (encryptKeying m ivp s k).bind fun w =>
  (Run.lift (modeEncrypt m w.key w.iv padded)).bind fun c =>
  Run.ret ⟨w.hdr ++ c, !w.hdr.isEmpty⟩

/-- ENCRYPT.CBC (R365). -/
def execEncryptCbc (sch : Scheme) (ivp : Bool) (s : State) : Host.Outcome State Fault Refusal :=
  runRule (encryptRule .cbc sch ivp s) s

/-- ENCRYPT.CFB (R365). -/
def execEncryptCfb (sch : Scheme) (ivp : Bool) (s : State) : Host.Outcome State Fault Refusal :=
  runRule (encryptRule .cfb sch ivp s) s

/-- ENCRYPT.CTR (R365). -/
def execEncryptCtr (sch : Scheme) (ivp : Bool) (s : State) : Host.Outcome State Fault Refusal :=
  runRule (encryptRule .ctr sch ivp s) s

/-- ENCRYPT.OFB (R365). -/
def execEncryptOfb (sch : Scheme) (ivp : Bool) (s : State) : Host.Outcome State Fault Refusal :=
  runRule (encryptRule .ofb sch ivp s) s

/-- ENCRYPT.GCM (R365, R370). -/
def execEncryptGcm (sch : Scheme) (ivp : Bool) (s : State) : Host.Outcome State Fault Refusal :=
  runRule (encryptRule .gcm sch ivp s) s

/-- ENCRYPT.ECB (R365, R373). -/
def execEncryptEcb (sch : Scheme) (ivp : Bool) (s : State) : Host.Outcome State Fault Refusal :=
  runRule (encryptRule .ecb sch ivp s) s

end Sys2Proof.Machine
end

