-- ==== Sys2Proof/Machine/Decrypt.lean ====
section
/-! DEFINITION. The DECRYPT commands (spec 45_orchestrator.md R360 to R364, R374 to R381). -/

namespace Sys2Proof.Machine

/-- Whether the input begins with MAGIC: fewer than 8 bytes are not read at all (R375). -/
def recognise (s : State) : Run Bool :=
  if 8 ≤ s.inBytes then (readIn s 0 8).bind fun h => Run.ret (h == magic)
  else Run.ret false

/-- The key, IV and ciphertext body DECRYPT works with, and whether a header was recognised. -/
structure Body where
  key : Bytes
  iv : Bytes
  text : Bytes
  hdr : Bool
deriving DecidableEq, Repr

/-- Step 1 of DECRYPT on a salted input: the key and IV re-derived from IN[8..16), the body IN[16..) (R375). -/
def saltedBody (m : Mode) (s : State) (k : Bytes) : Run Body :=
  (Run.check (decide (hdrLen ≤ s.inBytes)) .blockAlignment).bind fun _ =>
  (readIn s 8 16).bind fun salt =>
  (readIn s 16 s.inBytes).bind fun c =>
  let w := saltedKeying m k salt s.keyBytes
  Run.ret ⟨w.key, w.iv, c, true⟩

/-- Step 2 of DECRYPT on an input with no header: the caller's key and IV, and no IV in ECB (R364, R380). -/
def plainBody (m : Mode) (ivp : Bool) (s : State) (k : Bytes) : Run Body :=
  (readIn s 0 s.inBytes).bind fun c =>
  if m = .ecb then Run.ret ⟨k, [], c, false⟩
  else (explicitIv m ivp s).bind fun iv => Run.ret ⟨k, iv, c, false⟩

/-- Step 4 of DECRYPT: the plaintext is unpadded in CBC and ECB only (R379). -/
def unpadStep (m : Mode) (sch : Scheme) (p : Bytes) : Except Err Bytes :=
  if modePads m then unpad sch p blk else .ok p

/-- DECRYPT (R374). -/
def decryptRule (m : Mode) (sch : Scheme) (ivp : Bool) (s : State) : Run Result :=
  (checkIn s).bind fun _ =>
  (checkKey s).bind fun _ =>
  (readKey s).bind fun k =>
  (recognise s).bind fun salted =>
  (if salted then saltedBody m s k else plainBody m ivp s k).bind fun b =>
  (Run.check (!(modePads m && decide (b.text.length % blk ≠ 0))) .blockAlignment).bind fun _ =>
  (Run.lift (modeDecrypt m b.key b.iv b.text)).bind fun p =>
  (Run.lift (unpadStep m sch p)).bind fun r =>
  Run.ret ⟨r, b.hdr⟩

/-- DECRYPT.CBC (R374). -/
def execDecryptCbc (sch : Scheme) (ivp : Bool) (s : State) : Host.Outcome State Fault Refusal :=
  runRule (decryptRule .cbc sch ivp s) s

/-- DECRYPT.CFB (R374). -/
def execDecryptCfb (sch : Scheme) (ivp : Bool) (s : State) : Host.Outcome State Fault Refusal :=
  runRule (decryptRule .cfb sch ivp s) s

/-- DECRYPT.CTR (R374). -/
def execDecryptCtr (sch : Scheme) (ivp : Bool) (s : State) : Host.Outcome State Fault Refusal :=
  runRule (decryptRule .ctr sch ivp s) s

/-- DECRYPT.OFB (R374). -/
def execDecryptOfb (sch : Scheme) (ivp : Bool) (s : State) : Host.Outcome State Fault Refusal :=
  runRule (decryptRule .ofb sch ivp s) s

/-- DECRYPT.GCM (R374, R378). -/
def execDecryptGcm (sch : Scheme) (ivp : Bool) (s : State) : Host.Outcome State Fault Refusal :=
  runRule (decryptRule .gcm sch ivp s) s

/-- DECRYPT.ECB (R374, R375). -/
def execDecryptEcb (sch : Scheme) (ivp : Bool) (s : State) : Host.Outcome State Fault Refusal :=
  runRule (decryptRule .ecb sch ivp s) s

end Sys2Proof.Machine
end

