-- ==== Sys2Proof/Machine/Derive.lean ====
section
/-! DEFINITION. The DERIVE, BUILD_HDR and PARSE_HDR commands (spec 41_derivation.md R200 to R204). -/

namespace Sys2Proof.Machine

/-- DERIVE: the password is IN, the salt is SALT; KEY is not read (R200). -/
def deriveRule (m : Mode) (s : State) : Run Result :=
  (checkIn s).bind fun _ =>
  (checkKey s).bind fun _ =>
  (readSalt s).bind fun salt =>
  (readIn s 0 s.inBytes).bind fun pw =>
  let kv := deriveKeyMaterial salt pw s.keyBytes (totalSize s.keyBytes m)
  Run.ret ⟨kv.1 ++ kv.2, false⟩

/-- BUILD_HDR: the password is KEY, the salt is drawn; IN is not read (R201). -/
def buildHdrRule (m : Mode) (s : State) : Run Result :=
  (checkKey s).bind fun _ =>
  (readKey s).bind fun pw =>
  (Run.draw saltLen).bind fun salt =>
  let kv := deriveKeyMaterial salt pw s.keyBytes (totalSize s.keyBytes m)
  Run.ret ⟨header salt ++ kv.1 ++ kv.2, false⟩

/-- PARSE_HDR: the password is KEY, the salt is IN[8..16); MAGIC is not compared (R202). -/
def parseHdrRule (m : Mode) (s : State) : Run Result :=
  (checkIn s).bind fun _ =>
  (checkKey s).bind fun _ =>
  (Run.check (decide (hdrLen ≤ s.inBytes)) .blockAlignment).bind fun _ =>
  (readIn s 8 16).bind fun salt =>
  (readKey s).bind fun pw =>
  let kv := deriveKeyMaterial salt pw s.keyBytes (totalSize s.keyBytes m)
  Run.ret ⟨kv.1 ++ kv.2, false⟩

/-- DERIVE (R200). -/
def execDerive (m : Mode) (s : State) : Host.Outcome State Fault Refusal := runRule (deriveRule m s) s

/-- BUILD_HDR (R201). -/
def execBuildHdr (m : Mode) (s : State) : Host.Outcome State Fault Refusal := runRule (buildHdrRule m s) s

/-- PARSE_HDR (R202). -/
def execParseHdr (m : Mode) (s : State) : Host.Outcome State Fault Refusal := runRule (parseHdrRule m s) s

end Sys2Proof.Machine
end

