-- ==== Sys2Proof/Machine/PadCommands.lean ====
section
/-! DEFINITION. The PAD and UNPAD commands (spec 40_padding.md R142, R150). -/

namespace Sys2Proof.Machine

/-- PAD: CheckB comes before any byte of IN is read (R141, R142). -/
def padRule (sch : Scheme) (s : State) : Run Result :=
  (checkIn s).bind fun _ =>
  (Run.lift (checkB sch s.blockSize)).bind fun _ =>
  (readIn s 0 s.inBytes).bind fun d =>
  (padRun sch d s.blockSize).bind fun r =>
  Run.ret ⟨r, false⟩

/-- UNPAD: CheckB comes before any byte of IN is read (R141, R150). -/
def unpadRule (sch : Scheme) (s : State) : Run Result :=
  (checkIn s).bind fun _ =>
  (Run.lift (checkB sch s.blockSize)).bind fun _ =>
  (readIn s 0 s.inBytes).bind fun d =>
  (Run.lift (unpad sch d s.blockSize)).bind fun r =>
  Run.ret ⟨r, false⟩

/-- PAD.PKCS7 (R142, R143). -/
def execPadPkcs7 (s : State) : Host.Outcome State Fault Refusal := runRule (padRule .pkcs7 s) s

/-- PAD.ISO9797M2 (R142, R145). -/
def execPadIso9797m2 (s : State) : Host.Outcome State Fault Refusal := runRule (padRule .iso9797m2 s) s

/-- PAD.ANSIX923 (R142, R147). -/
def execPadAnsix923 (s : State) : Host.Outcome State Fault Refusal := runRule (padRule .ansix923 s) s

/-- PAD.ISO10126 (R142, R148). -/
def execPadIso10126 (s : State) : Host.Outcome State Fault Refusal := runRule (padRule .iso10126 s) s

/-- PAD.ZERO (R142, R144). -/
def execPadZero (s : State) : Host.Outcome State Fault Refusal := runRule (padRule .zero s) s

/-- PAD.NONE (R142, R146). -/
def execPadNone (s : State) : Host.Outcome State Fault Refusal := runRule (padRule .noPad s) s

/-- UNPAD.PKCS7 (R150, R151). -/
def execUnpadPkcs7 (s : State) : Host.Outcome State Fault Refusal := runRule (unpadRule .pkcs7 s) s

/-- UNPAD.ISO9797M2 (R150, R153, R154). -/
def execUnpadIso9797m2 (s : State) : Host.Outcome State Fault Refusal := runRule (unpadRule .iso9797m2 s) s

/-- UNPAD.ANSIX923 (R150, R155, R156). -/
def execUnpadAnsix923 (s : State) : Host.Outcome State Fault Refusal := runRule (unpadRule .ansix923 s) s

/-- UNPAD.ISO10126 (R150, R157, R158). -/
def execUnpadIso10126 (s : State) : Host.Outcome State Fault Refusal := runRule (unpadRule .iso10126 s) s

/-- UNPAD.ZERO (R150, R152). -/
def execUnpadZero (s : State) : Host.Outcome State Fault Refusal := runRule (unpadRule .zero s) s

/-- UNPAD.NONE (R150, R159). -/
def execUnpadNone (s : State) : Host.Outcome State Fault Refusal := runRule (unpadRule .noPad s) s

end Sys2Proof.Machine
end

