-- ==== Sys2Proof/Machine/Dispatch.lean ====
section
/-! DEFINITION. The dispatch of commands to their meanings, one arm per form of the opcode map
(spec 30_encoding.md R114). -/

namespace Sys2Proof.Machine

/-- The meaning of each command: its completion step (60_exceptions.md R407, R410, R411). -/
def exec (i : Instr) (s : State) : Host.Outcome State Fault Refusal :=
  match i with
  | .encryptCbc pad ivp => Sys2Proof.Machine.execEncryptCbc pad ivp s
  | .encryptCfb pad ivp => Sys2Proof.Machine.execEncryptCfb pad ivp s
  | .encryptCtr pad ivp => Sys2Proof.Machine.execEncryptCtr pad ivp s
  | .encryptOfb pad ivp => Sys2Proof.Machine.execEncryptOfb pad ivp s
  | .encryptGcm pad ivp => Sys2Proof.Machine.execEncryptGcm pad ivp s
  | .encryptEcb pad ivp => Sys2Proof.Machine.execEncryptEcb pad ivp s
  | .decryptCbc pad ivp => Sys2Proof.Machine.execDecryptCbc pad ivp s
  | .decryptCfb pad ivp => Sys2Proof.Machine.execDecryptCfb pad ivp s
  | .decryptCtr pad ivp => Sys2Proof.Machine.execDecryptCtr pad ivp s
  | .decryptOfb pad ivp => Sys2Proof.Machine.execDecryptOfb pad ivp s
  | .decryptGcm pad ivp => Sys2Proof.Machine.execDecryptGcm pad ivp s
  | .decryptEcb pad ivp => Sys2Proof.Machine.execDecryptEcb pad ivp s
  | .padPkcs7 => Sys2Proof.Machine.execPadPkcs7 s
  | .padIso9797m2 => Sys2Proof.Machine.execPadIso9797m2 s
  | .padAnsix923 => Sys2Proof.Machine.execPadAnsix923 s
  | .padIso10126 => Sys2Proof.Machine.execPadIso10126 s
  | .padZero => Sys2Proof.Machine.execPadZero s
  | .padNone => Sys2Proof.Machine.execPadNone s
  | .unpadPkcs7 => Sys2Proof.Machine.execUnpadPkcs7 s
  | .unpadIso9797m2 => Sys2Proof.Machine.execUnpadIso9797m2 s
  | .unpadAnsix923 => Sys2Proof.Machine.execUnpadAnsix923 s
  | .unpadIso10126 => Sys2Proof.Machine.execUnpadIso10126 s
  | .unpadZero => Sys2Proof.Machine.execUnpadZero s
  | .unpadNone => Sys2Proof.Machine.execUnpadNone s
  | .derive m => Sys2Proof.Machine.execDerive m s
  | .buildHdr m => Sys2Proof.Machine.execBuildHdr m s
  | .parseHdr m => Sys2Proof.Machine.execParseHdr m s
  | .ecbEnc => Sys2Proof.Machine.execEcbEnc s
  | .ecbDec => Sys2Proof.Machine.execEcbDec s
  | .aesEnc => Sys2Proof.Machine.execAesEnc s
  | .aesDec => Sys2Proof.Machine.execAesDec s

end Sys2Proof.Machine
end

