-- ==== Sys2Proof/Machine/Engine.lean ====
section
/-! DEFINITION. The steps of the engine, of the entropy source and of reset (spec 30_encoding.md R113,
60_exceptions.md R407, R420, R430, 70_reset_and_hazards.md R450). -/

namespace Sys2Proof.Machine

/-- The completion step of the command in flight: its word is decoded, and either its meaning runs or
the decode error completes it (R104 to R109, R113). An idle engine keeps all its state (60_exceptions.md R443). -/
def engineStep (s : State) : Host.Outcome State Fault Refusal :=
  match s.phase with
  | .idle => .next s
  | .busy op =>
    match decode op.cmd with
    | .ok i => exec i s
    | .error e => .next (completeErr e s)

/-- The rule of each command, as its meaning runs it: what statements about "the command's rule
reaches …" (R410, R411) are stated with. Laws/Exec.lean proves that `exec i s` is `runRule (ruleOf i s) s`. -/
def ruleOf (i : Instr) (s : State) : Run Result :=
  match i with
  | .encryptCbc p v => encryptRule .cbc p v s
  | .encryptCfb p v => encryptRule .cfb p v s
  | .encryptCtr p v => encryptRule .ctr p v s
  | .encryptOfb p v => encryptRule .ofb p v s
  | .encryptGcm p v => encryptRule .gcm p v s
  | .encryptEcb p v => encryptRule .ecb p v s
  | .decryptCbc p v => decryptRule .cbc p v s
  | .decryptCfb p v => decryptRule .cfb p v s
  | .decryptCtr p v => decryptRule .ctr p v s
  | .decryptOfb p v => decryptRule .ofb p v s
  | .decryptGcm p v => decryptRule .gcm p v s
  | .decryptEcb p v => decryptRule .ecb p v s
  | .padPkcs7 => padRule .pkcs7 s
  | .padIso9797m2 => padRule .iso9797m2 s
  | .padAnsix923 => padRule .ansix923 s
  | .padIso10126 => padRule .iso10126 s
  | .padZero => padRule .zero s
  | .padNone => padRule .noPad s
  | .unpadPkcs7 => unpadRule .pkcs7 s
  | .unpadIso9797m2 => unpadRule .iso9797m2 s
  | .unpadAnsix923 => unpadRule .ansix923 s
  | .unpadIso10126 => unpadRule .iso10126 s
  | .unpadZero => unpadRule .zero s
  | .unpadNone => unpadRule .noPad s
  | .derive m => deriveRule m s
  | .buildHdr m => buildHdrRule m s
  | .parseHdr m => parseHdrRule m s
  | .ecbEnc => blockRule wholeBlocks ecbEnc s
  | .ecbDec => blockRule wholeBlocks ecbDec s
  | .aesEnc => blockRule oneBlock aesEnc s
  | .aesDec => blockRule oneBlock aesDec s

/-- Whether the command in flight waits for the entropy source (R431, R450 "draw pending"). -/
def State.drawPending (s : State) : Bool :=
  match s.phase with
  | .idle => false
  | .busy op =>
    match decode op.cmd with
    | .ok i => decide (ruleOf i s s.entropy = .waiting)
    | .error _ => false

/-- The entropy source answers with bytes of its choosing (R430). -/
def entropyStep (bs : Bytes) (s : State) : State := { s with entropy := s.entropy ++ bs }

/-- Reset (R450): every register 0, every byte unwritten, FAULT empty, the command in flight discarded.
The platform's sizes, the answers given and the steps to come are outside the codec and stay. -/
def resetStep (s : State) : State := State.resetOn s.platform s.entropy s.agenda

end Sys2Proof.Machine
end

