-- ==== Sys2Proof/Machine/HostAccess.lean ====
section
/-! DEFINITION. The host's step: its accesses to CTRL and to the buffers, and what a breach of the host
protocol records (spec 20_memory.md R72 to R74, R77, 60_exceptions.md R405, 70_reset_and_hazards.md R460, R461). -/

namespace Sys2Proof.Machine

/-- A host access that breaks the protocol: no state changes, no value returns, and FAULT gains a reason. -/
def hostFault (f : Fault) (s : State) : State := { s.addFault f with returned := .nothing }

/-- The CTRL access form of R72; any other access is CTRL_ACCESS_FORM (R73). -/
def ctrlForm (width off : Nat) : Bool := width == 32 && off % 4 == 0 && decide (off ≤ 0x3C)

/-- The registers the host must not read while BUSY = 1: OUTLEN_LO and OUTLEN_HI (R461). -/
def outlenReg (off : Nat) : Bool := off == 0x20 || off == 0x24

/-- A host read of CTRL (R72, R73, R461). -/
def hostCtrlRead (width off : Nat) (s : State) : State :=
  if !ctrlForm width off then hostFault .ctrlAccessForm s
  else if s.isBusy && outlenReg off then hostFault .hostReadWhileBusy s
  else { s with returned := .word (readReg s off) }

/-- A host write of CTRL: while idle, a write of CMD is the issue step and a write of another register
stores its writable bits (R72, R73, R405, R460). -/
def hostCtrlWrite (width off : Nat) (v : Word) (s : State) : State :=
  if !ctrlForm width off then hostFault .ctrlAccessForm s
  else if s.isBusy then hostFault .hostWriteWhileBusy s
  else
    let t := { s with returned := .nothing }
    if off = 0x00 then issue v t else writeReg t off v

/-- A read of a byte of OUT while BUSY = 1 (R461); an unwritten byte adds HOST_READ_UNWRITTEN too, since
R77 makes no exception for it (DEDUCED, log entry 17). -/
def busyOutRead (addr : Nat) (s : State) : State :=
  hostFault .hostReadWhileBusy (if (s.out.read addr).isNone then s.addFault .hostReadUnwritten else s)

/-- A host read of one buffer byte (R74, R77, R461). -/
def hostBufRead (sp : Space) (addr : Nat) (s : State) : State :=
  if sp.size s.platform ≤ addr then hostFault .bufferRange s
  else if s.isBusy && sp == .out then busyOutRead addr s
  else match (s.buffer sp).read addr with
    | some b => { s with returned := .byte b }
    | none => hostFault .hostReadUnwritten s

/-- A host write of one buffer byte (R74, R460). -/
def hostBufWrite (sp : Space) (addr : Nat) (b : Byte) (s : State) : State :=
  if sp == .out || decide (sp.size s.platform ≤ addr) then hostFault .bufferRange s
  else if s.isBusy then hostFault .hostWriteWhileBusy s
  else State.setBuffer { s with returned := .nothing } sp ((s.buffer sp).write addr b)

/-- One step of the host (60_exceptions.md R420). -/
def hostStep (a : Access) (s : State) : State :=
  match a with
  | .ctrlRead width off => hostCtrlRead width off s
  | .ctrlWrite width off v => hostCtrlWrite width off v s
  | .bufRead sp addr => hostBufRead sp addr s
  | .bufWrite sp addr b => hostBufWrite sp addr b s

end Sys2Proof.Machine
end

