-- ==== Sys2Proof/Machine/Step.lean ====
section
/-! DEFINITION. One step of the machine: the next step on the agenda, which may be the host's, the engine's,
the entropy source's or reset (spec 60_exceptions.md R420), and the placing of a command as the next one to
run. -/

namespace Sys2Proof.Machine

/-- One step. The agenda says whose step is next; with nothing on it the engine steps (log entries 2, 3). -/
def step (s : State) : Host.Outcome State Fault Refusal :=
  match s.agenda with
  | [] => engineStep s
  | .engine :: rest => engineStep { s with agenda := rest }
  | .host a :: rest => .next (hostStep a { s with agenda := rest })
  | .entropy bs :: rest => .next (entropyStep bs { s with agenda := rest })
  | .reset :: rest => .next (resetStep { s with agenda := rest })

/-- `s` with the command word of the table's bits `w` issued, as a host write to CMD issues it (R405),
and the engine's step next, so that the very next step runs it (log entry 11). -/
def State.withFetchWord (s : State) (nbits w : Nat) : State :=
  issue (BitVec.ofNat 32 (w % 2 ^ nbits)) { s with agenda := .engine :: s.agenda }

end Sys2Proof.Machine
end

