-- ==== Sys2Proof/Machine/Cluster.lean ====
section
/-! DEFINITION. A platform with several engines (spec 60_exceptions.md R435, 20_memory.md R92): each has its
own state, and a step is a step of one of them. Only the entropy source is shared, and it answers each engine
separately, so its answers stand in each engine's state. -/

namespace Sys2Proof.Machine

/-- The N_ENGINES engines of a platform (R435). -/
structure Cluster where
  engines : List State
deriving DecidableEq, Repr

/-- N_ENGINES (00_scope.md R9). -/
def Cluster.nEngines (c : Cluster) : Nat := c.engines.length

/-- The constraints 00_scope.md R9 puts on a platform: N_ENGINES ≥ 1, and each engine's sizes in range. -/
abbrev Cluster.legal (c : Cluster) : Prop :=
  1 ≤ c.nEngines ∧ ∀ s ∈ c.engines, s.platform.legal

/-- The platform of n engines of the same sizes right after reset, with no answer given and no step to come
(70_reset_and_hazards.md R450). -/
def Cluster.resetOn (p : Platform) (n : Nat) : Cluster := ⟨List.replicate n (State.resetOn p [] [])⟩

/-- A step of engine k; a number that names no engine steps nothing (R435). -/
def Cluster.step (k : Nat) (c : Cluster) : Host.Outcome Cluster Fault Refusal :=
  match c.engines[k]? with
  | none => .next c
  | some s => mapNext (fun t => ⟨c.engines.set k t⟩) (Sys2Proof.Machine.step s)

end Sys2Proof.Machine
end

