-- ==== Sys2Proof/Machine/HostProgram.lean ====
section
/-! DEFINITION. The host's program (spec 00_scope.md R14, 30_encoding.md R116, R117): its statements, the
expansions of the pseudo-instructions, and a session, which is an engine with the program of its host and the
names the program has bound. A turn of the host makes at most one access, so every interleaving with the engine,
the entropy source and reset is a list of turns (60_exceptions.md R420). -/

namespace Sys2Proof.Machine

/-- What a program's name holds: the word of an RD32, the bytes of an RDB, or no value, when an access it was
read by returned none (20_memory.md R73, R74, R77, 70_reset_and_hazards.md R461; log entry 16). -/
inductive Value where
  | word (w : Word)
  | bytes (b : Bytes)
  | noValue
deriving DecidableEq, Repr

/-- The value of a name read by one word access. -/
def Value.ofWord : Returned → Value
  | .word w => .word w
  | .byte _ => .noValue
  | .nothing => .noValue

/-- The bytes read so far and one more; a byte that returned no value leaves none. -/
def Value.snoc (v : Value) (r : Returned) : Value :=
  match v, r with
  | .bytes b, .byte x => .bytes (b ++ [x])
  | .bytes _, .word _ => .noValue
  | .bytes _, .nothing => .noValue
  | .word _, _ => .noValue
  | .noValue, _ => .noValue

/-- The host's statements: the accesses of R116, the loop that `WAIT` expands to and the RDB of `GETOUT`, whose
count is two names (R117). -/
inductive Stmt where
  /-- `WR32 off, v`. -/
  | wr32 (off : Nat) (v : Word)
  /-- `RD32 off -> name`. -/
  | rd32 (off : Nat) (name : String)
  /-- `WRB space+addr, bytes`: one byte a turn, in ascending address order. -/
  | wrb (sp : Space) (addr : Nat) (bytes : Bytes)
  /-- `RDB space+addr, n -> name`, with what earlier turns have read. -/
  | rdb (sp : Space) (addr n : Nat) (name : String) (got : Value)
  /-- `loop: RD32 0x04 -> name; if name[1] = 0 goto loop`. -/
  | poll (name : String)
  /-- `RDB space+addr, (hi‖lo) -> name`. -/
  | rdbLen (sp : Space) (addr : Nat) (hi lo name : String)
deriving DecidableEq, Repr

/-! ### The pseudo-instructions (R117) -/

/-- `CMD command`. -/
def cmd (i : Instr) : List Stmt := [.wr32 0x00 (encode i)]

/-- `WAIT -> name`. -/
def wait (name : String) : List Stmt := [.poll name]

/-- `SETKEY bytes`. -/
def setKey (b : Bytes) : List Stmt := [.wrb .key 0 b, .wr32 0x08 (BitVec.ofNat 32 b.length)]

/-- `SETIV bytes`. -/
def setIv (b : Bytes) : List Stmt := [.wrb .iv 0 b, .wr32 0x0C (BitVec.ofNat 32 b.length)]

/-- `SETSALT bytes`. -/
def setSalt (b : Bytes) : List Stmt := [.wrb .salt 0 b]

/-- `SETIN bytes`: both halves of INLEN are written. -/
def setIn (b : Bytes) : List Stmt :=
  [.wrb .inp 0 b, .wr32 0x18 (BitVec.ofNat 32 b.length), .wr32 0x1C (BitVec.ofNat 32 (b.length / 2 ^ 32))]

/-- `SETBLK n`. -/
def setBlk (n : Nat) : List Stmt := [.wr32 0x10 (BitVec.ofNat 32 n)]

/-- `GETOUT -> name`: both OUTLEN halves, then OUT[0..hi‖lo). -/
def getOut (name : String) : List Stmt :=
  [.rd32 0x20 "lo", .rd32 0x24 "hi", .rdbLen .out 0 "hi" "lo" name]

/-! ### Sessions -/

/-- An engine, what is left of its host's program, and the names bound so far, the latest first. -/
structure Session where
  engine : State
  program : List Stmt
  names : List (String × Value)
deriving DecidableEq, Repr

/-- Whose step is next (60_exceptions.md R420). -/
inductive Turn where
  | host
  | engine
  | entropy (bytes : Bytes)
  | reset
deriving DecidableEq, Repr

/-- What a name holds; a name that nothing has bound holds no value. -/
def lookupName (x : String) : List (String × Value) → Value
  | [] => .noValue
  | (y, v) :: rest => if y = x then v else lookupName x rest

/-- One step of the machine on the event `e`, ahead of any other step to come. -/
def Session.on (e : Event) (c : Session) (f : State → Session) : Host.Outcome Session Fault Refusal :=
  mapNext f (step { c.engine with agenda := e :: c.engine.agenda })

/-- Whether a poll of STATUS returned DONE = 1 (R117's test of name[1]). -/
def pollDone : Returned → Bool
  | .word w => w.getLsbD 1
  | .byte _ => false
  | .nothing => false

/-- The host's turn: the next access of its program, or the end of a byte statement, which makes none. -/
def Session.hostTurn (c : Session) : Host.Outcome Session Fault Refusal :=
  match c.program with
  | [] => .next c
  | .wr32 off v :: rest =>
    c.on (.host (.ctrlWrite 32 off v)) fun t => ⟨t, rest, c.names⟩
  | .rd32 off x :: rest =>
    c.on (.host (.ctrlRead 32 off)) fun t => ⟨t, rest, (x, .ofWord t.returned) :: c.names⟩
  | .wrb _ _ [] :: rest => .next { c with program := rest }
  | .wrb sp a (b :: more) :: rest =>
    c.on (.host (.bufWrite sp a b)) fun t => ⟨t, .wrb sp (a + 1) more :: rest, c.names⟩
  | .rdb _ _ 0 x got :: rest => .next { c with program := rest, names := (x, got) :: c.names }
  | .rdb sp a (n + 1) x got :: rest =>
    c.on (.host (.bufRead sp a)) fun t => ⟨t, .rdb sp (a + 1) n x (got.snoc t.returned) :: rest, c.names⟩
  | .poll x :: rest =>
    c.on (.host (.ctrlRead 32 0x04)) fun t =>
      ⟨t, if pollDone t.returned then rest else c.program, (x, .ofWord t.returned) :: c.names⟩
  | .rdbLen sp a hi lo x :: rest =>
    match lookupName hi c.names, lookupName lo c.names with
    | .word h, .word l => .next { c with program := .rdb sp a (h ++ l).toNat x (.bytes []) :: rest }
    | _, _ => .next { c with program := rest, names := (x, .noValue) :: c.names }

/-- One step of a session (60_exceptions.md R420). -/
def Session.step (turn : Turn) (c : Session) : Host.Outcome Session Fault Refusal :=
  match turn with
  | .host => c.hostTurn
  | .engine => c.on .engine fun t => { c with engine := t }
  | .entropy bs => c.on (.entropy bs) fun t => { c with engine := t }
  | .reset => c.on .reset fun t => { c with engine := t }

/-- The steps of a list of turns, stopping at a fault or a refusal. -/
def Session.run : List Turn → Session → Host.Outcome Session Fault Refusal
  | [], c => .next c
  | turn :: rest, c =>
    match c.step turn with
    | .next d => Session.run rest d
    | .fault f => .fault f
    | .refused r => .refused r

end Sys2Proof.Machine
end

