-- ==== Sys2Proof/Safety.lean ====
section
/-! DEFINITION. The terms the claims are stated in: the invariant of the machine, a good state, and what it
means that a command finds its operands. -/

namespace Sys2Proof.Machine

/-- A buffer in canonical form, with no byte at or above its size (10_state.md R45, 20_memory.md R70). -/
abbrev State.bufferOk (s : State) (sp : Space) : Prop :=
  (s.buffer sp).wf = true ∧ (s.buffer sp).within (sp.size s.platform) = true

/-- What holds in every state a run can reach. -/
structure Inv (s : State) : Prop where
  /-- The platform's sizes are in R9's range. -/
  platform_legal : s.platform.legal
  /-- Every buffer is in canonical form and below its size (R45, R70). -/
  buffers_ok : ∀ sp, s.bufferOk sp
  /-- The operands latched at issue are what the registers hold (R406). -/
  latched : ∀ op, s.phase = .busy op → op = s.snapshot
  /-- DONE, HDR and ERRCODE are 0 from issue to completion (R36 to R38). -/
  busy_clear : s.isBusy = true → s.done = false ∧ s.hdr = false ∧ s.errcode = 0#4
  /-- ERRCODE values 10 to 15 are never written (R38). -/
  errcode_defined : s.errcode.toNat ≤ 9
  /-- HDR is 1 only after a successful completion (R37). -/
  hdr_success : s.hdr = true → s.done = true ∧ s.errcode = 0#4
  /-- A failed command leaves OUTLEN 0 (R43). -/
  error_outlen : s.errcode ≠ 0#4 → s.done = true ∧ s.outlen = 0#64
  /-- The result fits OUT (R403). -/
  outlen_fits : s.outlen.toNat ≤ s.platform.outCap
  /-- Every byte of the result is written (R76). -/
  result_written : ∀ a, a < s.outlen.toNat → (s.out.read a).isSome = true

/-- A state whose FAULT record is empty; any other is never a good final state (R46). -/
abbrev State.good (s : State) : Prop := s.faults = FaultSet.empty

/-- A run of k steps keeps to the host protocol: it ends in a good state (R46). -/
abbrev SafeRun (k : Nat) (s : State) : Prop :=
  ∃ t, Sys2Proof.core.run k s = .next t ∧ State.good t

/-- The key length is legal and every key byte is written: the key is `k` (R39, R244). -/
abbrev State.keyIs (s : State) (k : Bytes) : Prop :=
  keySizeLegal s.keyBytes = true ∧ s.key.readRange 0 s.keyBytes = some k

/-- INLEN is within IN and every input byte is written: the input is `d` (R42, R402). -/
abbrev State.inIs (s : State) (d : Bytes) : Prop :=
  s.inBytes ≤ s.platform.inCap ∧ s.inp.readRange 0 s.inBytes = some d

/-- The IV length is the mode's and every IV byte is written: the IV is `v` (R40, R364). -/
abbrev State.ivIs (s : State) (m : Mode) (v : Bytes) : Prop :=
  s.ivBytes = ivSize m ∧ s.iv.readRange 0 s.ivBytes = some v

/-- The salt is `x` (R200). -/
abbrev State.saltIs (s : State) (x : Bytes) : Prop := s.salt.readRange 0 saltLen = some x

/-- The entropy source's next answers are the n bytes `x`, and `rest` follows (R430). -/
abbrev State.drawIs (s : State) (n : Nat) (x rest : Bytes) : Prop :=
  s.entropy = x ++ rest ∧ x.length = n

/-- The result fits OUT (R403). -/
abbrev State.fits (s : State) (r : Bytes) : Prop := r.length ≤ s.platform.outCap

/-- The padding step of ENCRYPT in mode `m` goes on: in CBC and ECB its draw is answered and NoPadding data is
whole blocks; the other modes have none (R367, R146, R372). -/
abbrev State.padsOn (s : State) (m : Mode) (sch : Scheme) (p : Bytes) : Prop :=
  modePads m = true → fillerLen sch p.length 16 ≤ s.entropy.length ∧ (sch = .noPad → p.length % 16 = 0)

/-- The bytes ENCRYPT draws for a plaintext of n bytes in its padding step (60_exceptions.md R432, first row). -/
def encryptFiller (m : Mode) (sch : Scheme) (n : Nat) : Nat := if modePads m then fillerLen sch n 16 else 0

/-- The bytes ENCRYPT draws for a plaintext of n bytes (R432, first two rows). -/
def encryptDraw (m : Mode) (sch : Scheme) (ivp : Bool) (n : Nat) : Nat :=
  encryptFiller m sch n + if m ≠ .ecb ∧ ivp = false then 8 else 0

/-- The bytes a command draws (R432): no other command draws any. -/
def State.drawBytes (s : State) : Instr → Nat
  | .encryptCbc sch ivp => encryptDraw .cbc sch ivp s.inBytes
  | .encryptCfb sch ivp => encryptDraw .cfb sch ivp s.inBytes
  | .encryptCtr sch ivp => encryptDraw .ctr sch ivp s.inBytes
  | .encryptOfb sch ivp => encryptDraw .ofb sch ivp s.inBytes
  | .encryptGcm sch ivp => encryptDraw .gcm sch ivp s.inBytes
  | .encryptEcb sch ivp => encryptDraw .ecb sch ivp s.inBytes
  | .padIso10126 =>
    if blockSizeOk .iso10126 s.blockSize then fillerLen .iso10126 s.inBytes s.blockSize else 0
  | .buildHdr _ => 8
  | .decryptCbc _ _ | .decryptCfb _ _ | .decryptCtr _ _ => 0
  | .decryptOfb _ _ | .decryptGcm _ _ | .decryptEcb _ _ => 0
  | .padPkcs7 | .padIso9797m2 | .padAnsix923 | .padZero | .padNone => 0
  | .unpadPkcs7 | .unpadIso9797m2 | .unpadAnsix923 | .unpadIso10126 | .unpadZero | .unpadNone => 0
  | .derive _ | .parseHdr _ => 0
  | .ecbEnc | .ecbDec | .aesEnc | .aesDec => 0

/-- The engine's step is next: it is on the agenda, or the agenda is empty; `t` is the state it steps
from. -/
inductive EngineTurn : State → State → Prop where
  | listed (s : State) (rest : List Event) (h : s.agenda = .engine :: rest) :
      EngineTurn s { s with agenda := rest }
  | empty (s : State) (h : s.agenda = []) : EngineTurn s s

/-- The host's access `a` is next; `t` is the state it steps from. -/
inductive HostTurn (a : Access) : State → State → Prop where
  | listed (s : State) (rest : List Event) (h : s.agenda = .host a :: rest) :
      HostTurn a s { s with agenda := rest }

/-- The event issues a command or resets: a well-formed write of CMD, or reset (R87, R450). -/
def restarts : Event → Bool
  | .host (.ctrlWrite width off _) => width == 32 && off == 0
  | .host (.ctrlRead _ _) => false
  | .host (.bufRead _ _) => false
  | .host (.bufWrite _ _ _) => false
  | .engine => false
  | .entropy _ => false
  | .reset => true

/-- The commands that use the key: all but PAD and UNPAD (R244, R400 code 1). -/
def usesKey : Instr → Bool
  | .encryptCbc _ _ | .encryptCfb _ _ | .encryptCtr _ _ => true
  | .encryptOfb _ _ | .encryptGcm _ _ | .encryptEcb _ _ => true
  | .decryptCbc _ _ | .decryptCfb _ _ | .decryptCtr _ _ => true
  | .decryptOfb _ _ | .decryptGcm _ _ | .decryptEcb _ _ => true
  | .padPkcs7 | .padIso9797m2 | .padAnsix923 | .padIso10126 | .padZero | .padNone => false
  | .unpadPkcs7 | .unpadIso9797m2 | .unpadAnsix923 | .unpadIso10126 | .unpadZero | .unpadNone => false
  | .derive _ | .buildHdr _ | .parseHdr _ => true
  | .ecbEnc | .ecbDec | .aesEnc | .aesDec => true

/-- The commands that read IN: all but BUILD_HDR (R402). -/
def readsIn : Instr → Bool
  | .encryptCbc _ _ | .encryptCfb _ _ | .encryptCtr _ _ => true
  | .encryptOfb _ _ | .encryptGcm _ _ | .encryptEcb _ _ => true
  | .decryptCbc _ _ | .decryptCfb _ _ | .decryptCtr _ _ => true
  | .decryptOfb _ _ | .decryptGcm _ _ | .decryptEcb _ _ => true
  | .padPkcs7 | .padIso9797m2 | .padAnsix923 | .padIso10126 | .padZero | .padNone => true
  | .unpadPkcs7 | .unpadIso9797m2 | .unpadAnsix923 | .unpadIso10126 | .unpadZero | .unpadNone => true
  | .derive _ | .parseHdr _ => true
  | .buildHdr _ => false
  | .ecbEnc | .ecbDec | .aesEnc | .aesDec => true

end Sys2Proof.Machine
end

