-- ==== Sys2Proof/Certificates/Slice0/Obligations.lean ====
section
/-! DEFINITION. The statements for the provers. Each docstring names the rules of spec/ it formalises. Where a
statement says `exec i s = .next t`, it says that the command completes, and with what state. -/

open Sys2Proof Sys2Proof.Machine

/-! ## Command words -/

/-- 30_encoding.md R101, R113, R115: decoding and encoding agree on every word and every command. -/
def Obligations.DecodeEncodeAgree : Prop :=
  ∀ (w : Word) (i : Instr), decode w = .ok i ↔ w = encode i

/-- R113: Decode raises the error of the first check that fails, and returns the word's command when none
does. -/
def Obligations.DecodeFollowsItsChecks : Prop :=
  ∀ w : Word,
    (¬ (fieldsOf w).rsvZero → decode w = .error .illegalCommand) ∧
    ((fieldsOf w).rsvZero → ¬ (fieldsOf w).opDefined → decode w = .error .illegalCommand) ∧
    ((fieldsOf w).rsvZero → (fieldsOf w).opDefined → ¬ (fieldsOf w).unusedZero →
      decode w = .error .illegalCommand) ∧
    ((fieldsOf w).rsvZero → (fieldsOf w).opDefined → (fieldsOf w).unusedZero →
      ¬ (fieldsOf w).modeDefined → decode w = .error .unsupportedMode) ∧
    ((fieldsOf w).rsvZero → (fieldsOf w).opDefined → (fieldsOf w).unusedZero →
      (fieldsOf w).modeDefined → ¬ (fieldsOf w).padDefined → decode w = .error .unsupportedMode) ∧
    ((fieldsOf w).wf → ∃ i, decode w = .ok i ∧ encode i = w)

/-- R104 to R107, R109: a word with a reserved value completes with its error and no other effect. -/
def Obligations.ReservedWordsCompleteWithTheirError : Prop :=
  ∀ (s t : State) (op : Latch), EngineTurn s t → s.phase = .busy op →
    ((¬ (fieldsOf op.cmd).rsvZero ∨ ¬ (fieldsOf op.cmd).opDefined ∨ ¬ (fieldsOf op.cmd).unusedZero) →
      step s = .next { t with phase := .idle, done := true, hdr := false, errcode := 8#4,
                              outlenLo := 0#32, outlenHi := 0#32 }) ∧
    ((fieldsOf op.cmd).rsvZero → (fieldsOf op.cmd).opDefined → (fieldsOf op.cmd).unusedZero →
      (¬ (fieldsOf op.cmd).modeDefined ∨ ¬ (fieldsOf op.cmd).padDefined) →
      step s = .next { t with phase := .idle, done := true, hdr := false, errcode := 7#4,
                              outlenLo := 0#32, outlenHi := 0#32 })

/-- R114: a word that matches a row of the opcode map and decodes is of that row's form, and a word that
matches no row raises an error. -/
def Obligations.OpcodeMapNamesTheForm : Prop :=
  (∀ (w : Word) (i : Instr) (row : OpcodeRow), row ∈ opcodeRows → w &&& row.mask = row.pat →
    decode w = .ok i → i.form = row.mnemonic) ∧
  (∀ w : Word, (∀ row ∈ opcodeRows, w &&& row.mask ≠ row.pat) → ∃ e, decode w = .error e)

/-- R114, R115: a few words written out from the encoding decode to the commands they stand for. -/
def Obligations.WrittenOutWordsDecode : Prop :=
  decode 0x00000801 = .ok (.encryptCbc .pkcs7 true) ∧
  decode 0x00000882 = .ok (.decryptGcm .pkcs7 true) ∧
  decode 0x00000503 = .ok .padNone ∧
  decode 0x00000304 = .ok .unpadIso10126 ∧
  decode 0x000000A5 = .ok (.derive .ecb) ∧
  decode 0x00000006 = .ok (.buildHdr .cbc) ∧
  decode 0x00000087 = .ok (.parseHdr .gcm) ∧
  decode 0x00000008 = .ok .ecbEnc ∧
  decode 0x0000000B = .ok .aesDec

/-! ## Steps, issue and completion -/

/-- R113, R401 item 1, R420: when the word in flight decodes to a command, the engine's step is that command's
completion step, from the state whose agenda is past this step. -/
def Obligations.EngineStepRunsTheDecodedCommand : Prop :=
  ∀ (s t : State) (op : Latch) (i : Instr), EngineTurn s t → s.phase = .busy op → decode op.cmd = .ok i →
    step s = exec i t

/-- R405: a host write to CMD while idle stores the word, sets BUSY, clears DONE, HDR and ERRCODE, latches the
operands, and changes nothing else. (`returned` is the model's own record of what the access returned, log
entry 10.) -/
def Obligations.CmdWriteIssues : Prop :=
  ∀ (s t : State) (w : Word), HostTurn (.ctrlWrite 32 0x00 w) s t → s.isBusy = false →
    step s = .next { t with
      returned := .nothing
      cmd := w
      phase := .busy ⟨w, s.keylen, s.ivlen, s.blksz, s.inlenHi ++ s.inlenLo⟩
      done := false
      hdr := false
      errcode := 0#4 }

/-- R410: when a command's rule returns r and r fits OUT, OUT[0..len r) and OUTLEN hold r and its length, HDR
is the rule's, ERRCODE is 0, BUSY 0, DONE 1, and no other register or byte changes. -/
def Obligations.SuccessfulCompletionWrites : Prop :=
  ∀ (i : Instr) (s : State) (r : Result) (rest : Bytes),
    ruleOf i s s.entropy = .done r rest → s.fits r.bytes → s.platform.legal → s.out.wf = true →
    ∃ t, exec i s = .next t ∧
      t.outlen.toNat = r.bytes.length ∧
      (∀ a, t.out.read a = if a < r.bytes.length then r.bytes[a]? else s.out.read a) ∧
      t = { s with
        out := t.out, outlenLo := t.outlenLo, outlenHi := t.outlenHi
        hdr := r.hdr, errcode := 0#4, phase := .idle, done := true, entropy := rest }

/-- R411, R412, R403: when a command's rule raises E, or returns a result longer than OUT_CAP (E is then
CapacityError, raised after every draw), OUTLEN is 0, HDR 0, ERRCODE the code of E, BUSY 0, DONE 1, and every
other register and every buffer is as it was. -/
def Obligations.ErrorCompletionWrites : Prop :=
  ∀ (i : Instr) (s : State) (e : Err) (rest : Bytes),
    (ruleOf i s s.entropy = .raised e rest ∨
      ∃ r, ruleOf i s s.entropy = .done r rest ∧ s.platform.outCap < r.bytes.length ∧ e = .capacity) →
    exec i s = .next { s with
      outlenLo := 0#32, outlenHi := 0#32, hdr := false, errcode := errCode e
      phase := .idle, done := true, entropy := rest }

/-- R31, R45, R412, R70: the frame of every command. It writes STATUS, OUTLEN, OUT, and nothing else but
FAULT's UNWRITTEN_OPERAND; it uses answers only from the front; OUT changes only below the new OUTLEN and not
at all on an error. -/
def Obligations.CommandFrame : Prop :=
  ∀ (i : Instr) (s t : State), s.platform.legal → s.out.wf = true → exec i s = .next t →
    t = { s with
      phase := t.phase, done := t.done, hdr := t.hdr, errcode := t.errcode, outlenLo := t.outlenLo
      outlenHi := t.outlenHi, out := t.out, faults := t.faults, entropy := t.entropy } ∧
    (∃ n, t.entropy = s.entropy.drop n) ∧
    (t.faults = s.faults ∨ t.faults = s.faults.add .unwrittenOperand) ∧
    (∀ a, t.outlen.toNat ≤ a → t.out.read a = s.out.read a) ∧
    (t.errcode ≠ 0#4 → t.out = s.out)

/-- R37: HDR becomes 1 only at a completion of ENCRYPT or DECRYPT that succeeded. In ENCRYPT it does exactly when
the mode is not ECB and no IV was supplied (R366), and in DECRYPT exactly when the input begins with MAGIC (R375). -/
def Obligations.HdrMarksSaltedEnvelopes : Prop :=
  (∀ (i : Instr) (s t : State), s.hdr = false → exec i s = .next t → t.hdr = true →
    t.errcode = 0#4 ∧ t.done = true ∧
    ∃ m sch ivp, i = encryptInstr m sch ivp ∨ i = decryptInstr m sch ivp) ∧
  (∀ (m : Mode) (sch : Scheme) (ivp : Bool) (s t : State), s.done = false →
    exec (encryptInstr m sch ivp) s = .next t → t.done = true → t.errcode = 0#4 →
    t.hdr = (decide (m ≠ .ecb) && !ivp)) ∧
  (∀ (m : Mode) (sch : Scheme) (ivp : Bool) (s t : State), s.done = false →
    exec (decryptInstr m sch ivp) s = .next t → t.done = true → t.errcode = 0#4 →
    (t.hdr = true ↔ 8 ≤ s.inBytes ∧ s.inp.readRange 0 8 = some magic))

/-- R408 and R431: a command whose operand bytes are all written completes in one engine step when as many bytes
are answered as R432 says it draws: with any answers when it draws none. -/
def Obligations.WrittenOperandsAndAnswersComplete : Prop :=
  ∀ (i : Instr) (s : State),
    (s.key.readRange 0 32).isSome = true → (s.iv.readRange 0 16).isSome = true →
    (s.salt.readRange 0 8).isSome = true → (s.inp.readRange 0 s.platform.inCap).isSome = true →
    s.drawBytes i ≤ s.entropy.length →
    ∃ t, exec i s = .next t ∧ t.done = true ∧ t.phase = .idle

/-- R78: a command that reads an unwritten byte of KEY (after its length checks), of IN, of SALT or of IV has
no completion: it stays as it was and FAULT gains UNWRITTEN_OPERAND. Each read of each command has a clause, under
the checks, reads and draws that come before it. (That an answered filler which came before the read of IV is not
used up is the model's choice, log entry 5; that the reason is added at this step, after the draws before it, is its
deduction, log entry 13.) -/
def Obligations.UnwrittenOperandSticks : Prop :=
  ∀ s : State, s.inBytes ≤ s.platform.inCap →
    (∀ i, keySizeLegal s.keyBytes = true → s.key.readRange 0 s.keyBytes = none →
      ((∃ m sch ivp, i = encryptInstr m sch ivp ∨ i = decryptInstr m sch ivp) ∨ (∃ m, i = .buildHdr m) ∨
        (∃ m salt, i = .parseHdr m ∧ 16 ≤ s.inBytes ∧ s.inp.readRange 8 8 = some salt) ∨
        (s.inBytes % 16 = 0 ∧ (i = .ecbEnc ∨ i = .ecbDec)) ∨
        (s.inBytes = 16 ∧ (i = .aesEnc ∨ i = .aesDec))) →
      exec i s = .next (s.addFault .unwrittenOperand)) ∧
    (∀ i sch, blockSizeOk sch s.blockSize = true → s.inp.readRange 0 s.inBytes = none →
      (i = padInstr sch ∨ i = unpadInstr sch) → exec i s = .next (s.addFault .unwrittenOperand)) ∧
    (∀ m, keySizeLegal s.keyBytes = true →
      (s.salt.readRange 0 8 = none ∨ ∃ x, s.saltIs x ∧ s.inp.readRange 0 s.inBytes = none) →
      exec (.derive m) s = .next (s.addFault .unwrittenOperand)) ∧
    (∀ m, keySizeLegal s.keyBytes = true → 16 ≤ s.inBytes → s.inp.readRange 8 8 = none →
      exec (.parseHdr m) s = .next (s.addFault .unwrittenOperand)) ∧
    (∀ i k, s.keyIs k → s.inp.readRange 0 s.inBytes = none →
      ((∃ m sch ivp, i = encryptInstr m sch ivp) ∨
        (∃ m sch ivp, i = decryptInstr m sch ivp ∧
          (s.inp.readRange 0 8 = some magic → s.inBytes < 8 ∨ 16 ≤ s.inBytes)) ∨
        (s.inBytes % 16 = 0 ∧ (i = .ecbEnc ∨ i = .ecbDec)) ∨
        (s.inBytes = 16 ∧ (i = .aesEnc ∨ i = .aesDec))) →
      exec i s = .next (s.addFault .unwrittenOperand)) ∧
    (∀ m sch k p, s.keyIs k → s.inIs p → m ≠ .ecb → s.ivBytes = ivSize m → s.iv.readRange 0 s.ivBytes = none →
      (s.padsOn m sch p → exec (encryptInstr m sch true) s = .next (s.addFault .unwrittenOperand)) ∧
      (p.take 8 ≠ magic → exec (decryptInstr m sch true) s = .next (s.addFault .unwrittenOperand)))

/-- R431: a command whose draws (R432) are not all answered waits, with BUSY as it was and nothing changed, once
the checks and reads that come before them have passed. (That the answers already there, as the filler's when the salt
is not answered, are not used up is the model's choice, log entry 5; that FAULT gains nothing while a draw waits
before a read of an unwritten byte is its deduction, log entry 13.) -/
def Obligations.UnansweredDrawWaits : Prop :=
  ∀ s : State,
    (∀ m k, s.keyIs k → s.entropy.length < 8 → exec (.buildHdr m) s = .next s) ∧
    (∀ m sch ivp k p, s.keyIs k → s.inIs p → (modePads m = true → sch = .noPad → p.length % 16 = 0) →
      s.entropy.length < encryptDraw m sch ivp p.length → exec (encryptInstr m sch ivp) s = .next s) ∧
    (∀ p, s.inIs p → blockSizeOk .iso10126 s.blockSize = true →
      s.entropy.length < padLen p.length s.blockSize - 1 → exec .padIso10126 s = .next s)

/-- 10_state.md R35, with R450's reset: BUSY is set to 1 only by an issue and cleared to 0 only by the
engine's completion step or reset. -/
def Obligations.BusyChangesOnlyByIssueAndCompletion : Prop :=
  ∀ s t : State, step s = .next t →
    (s.isBusy = false → t.isBusy = true → ∃ w rest, s.agenda = .host (.ctrlWrite 32 0x00 w) :: rest) ∧
    (s.isBusy = true → t.isBusy = false →
      s.agenda = [] ∨ (∃ rest, s.agenda = .engine :: rest) ∨ (∃ rest, s.agenda = .reset :: rest))

/-- 20_memory.md R87: after a completion, whatever the agents do short of the next issue (or reset), OUT,
OUTLEN and STATUS keep what the completion wrote. -/
def Obligations.ResultsHoldUntilTheNextIssue : Prop :=
  ∀ (events : List Event) (s : State) (later : List Event), s.isBusy = false →
    s.agenda = events ++ later → (∀ e ∈ events, restarts e = false) →
    ∃ t, Sys2Proof.core.run events.length s = .next t ∧ t.agenda = later ∧
      t.out = s.out ∧ t.outlen = s.outlen ∧ statusWord t = statusWord s

/-! ## Host accesses -/

/-- R34: the fields of the STATUS word, and its reserved bits read 0. -/
def Obligations.StatusWordLayout : Prop :=
  ∀ s : State,
    (statusWord s).getLsbD 0 = s.isBusy ∧ (statusWord s).getLsbD 1 = s.done ∧
    (statusWord s).getLsbD 2 = s.hdr ∧ (statusWord s).extractLsb' 3 5 = 0#5 ∧
    (statusWord s).extractLsb' 8 4 = s.errcode ∧ (statusWord s).extractLsb' 12 20 = 0#20

/-- R32, R39 to R44, R72, R84: what a host read of each CTRL offset returns; the read has no side effect.
(OUTLEN's two offsets while BUSY = 1 are R461's; `returned` is the model's own record, log entry 10.) -/
def Obligations.CtrlReadsReturnTheRegisters : Prop :=
  ∀ (s t : State) (off : Nat), HostTurn (.ctrlRead 32 off) s t → off % 4 = 0 → off ≤ 0x3C →
    (s.isBusy = false ∨ (off ≠ 0x20 ∧ off ≠ 0x24)) →
    ∃ v, step s = .next { t with returned := .word v } ∧
      (off = 0x00 → v = s.cmd) ∧
      (off = 0x04 → v = statusWord s) ∧
      (off = 0x08 → v = s.keylen.zeroExtend 32) ∧
      (off = 0x0C → v = s.ivlen.zeroExtend 32) ∧
      (off = 0x10 → v = s.blksz.zeroExtend 32) ∧
      (off = 0x18 → v = s.inlen.extractLsb' 0 32) ∧
      (off = 0x1C → v = s.inlen.extractLsb' 32 32) ∧
      (off = 0x20 → v = s.outlen.extractLsb' 0 32) ∧
      (off = 0x24 → v = s.outlen.extractLsb' 32 32) ∧
      (off = 0x14 ∨ 0x28 ≤ off → v = 0#32)

/-- R34, R39 to R44: what a host write of each CTRL offset but CMD stores while idle: the writable bits of that
register; STATUS, OUTLEN and the reserved offsets ignore it. (That a write leaves `returned` at no value is the
model's own choice, log entry 10.) -/
def Obligations.CtrlWritesStoreTheWritableBits : Prop :=
  ∀ (s t : State) (off : Nat) (v : Word), HostTurn (.ctrlWrite 32 off v) s t → off % 4 = 0 → off ≤ 0x3C →
    s.isBusy = false →
    (off = 0x08 → step s = .next { t with returned := .nothing, keylen := v.extractLsb' 0 6 }) ∧
    (off = 0x0C → step s = .next { t with returned := .nothing, ivlen := v.extractLsb' 0 5 }) ∧
    (off = 0x10 → step s = .next { t with returned := .nothing, blksz := v.extractLsb' 0 9 }) ∧
    (off = 0x18 → step s = .next { t with returned := .nothing, inlenLo := v }) ∧
    (off = 0x1C → step s = .next { t with returned := .nothing, inlenHi := v }) ∧
    (off = 0x04 ∨ off = 0x14 ∨ 0x20 ≤ off → step s = .next { t with returned := .nothing })

/-- R74: a host byte write below the size of KEY, IV, SALT or IN, while idle, stores that byte: it reads back,
and every other byte of every buffer and every register keeps its value. (That a write leaves `returned` at no
value is the model's own choice, log entry 10.) -/
def Obligations.BufferWriteStoresOneByte : Prop :=
  ∀ (s t : State) (sp : Space) (a : Nat) (b : Byte), HostTurn (.bufWrite sp a b) s t → sp ≠ .out →
    a < sp.size s.platform → s.isBusy = false → (s.buffer sp).wf = true →
    ∃ m, step s = .next (State.setBuffer { t with returned := .nothing } sp m) ∧
      ∀ x, m.read x = if x = a then some b else (s.buffer sp).read x

/-- R74, R77: a host byte read below the size returns the stored byte; of an unwritten byte it returns no value
and FAULT gains HOST_READ_UNWRITTEN. (OUT while BUSY = 1 is the statement on R461's; `returned` is the model's own
record, log entry 10.) -/
def Obligations.BufferReadReturnsTheByte : Prop :=
  ∀ (s t : State) (sp : Space) (a : Nat), HostTurn (.bufRead sp a) s t → a < sp.size s.platform →
    (s.isBusy = false ∨ sp ≠ .out) →
    (∀ b, (s.buffer sp).read a = some b → step s = .next { t with returned := .byte b }) ∧
    ((s.buffer sp).read a = none →
      step s = .next { t with returned := .nothing, faults := s.faults.add .hostReadUnwritten })

/-- R73, R74: an access that is not well formed changes no state, returns no value, and adds CTRL_ACCESS_FORM
or BUFFER_RANGE. That it does so while BUSY = 1 too is log entry 7; `returned` is the model's own record, log
entry 10. -/
def Obligations.MalformedAccessOnlyRecordsAFault : Prop :=
  ∀ (s t : State) (a : Access), HostTurn a s t → a.wf s.platform = false →
    ((∃ width off, a = .ctrlRead width off ∨ ∃ v, a = .ctrlWrite width off v) →
      step s = .next { t with returned := .nothing, faults := s.faults.add .ctrlAccessForm }) ∧
    ((∃ sp addr, a = .bufRead sp addr ∨ ∃ b, a = .bufWrite sp addr b) →
      step s = .next { t with returned := .nothing, faults := s.faults.add .bufferRange })

/-- 70_reset_and_hazards.md R460, R461: while BUSY = 1, a host write to a CTRL register (CMD and the reserved
offsets among them) or to a byte of KEY, IV, SALT or IN changes no state and adds HOST_WRITE_WHILE_BUSY; a host
read of a byte of OUT, of OUTLEN_LO or of OUTLEN_HI returns no value and adds HOST_READ_WHILE_BUSY; every other
read returns the stored value. (An unwritten byte of OUT adds R77's HOST_READ_UNWRITTEN as well, log entry 17;
`returned` is the model's own record, log entry 10.) -/
def Obligations.AccessWhileBusyOnlyRecordsAFault : Prop :=
  ∀ (s t : State) (a : Access), HostTurn a s t → a.wf s.platform = true → s.isBusy = true →
    ((∃ width off v, a = .ctrlWrite width off v) ∨ (∃ sp addr b, a = .bufWrite sp addr b) →
      step s = .next { t with returned := .nothing, faults := s.faults.add .hostWriteWhileBusy }) ∧
    (a = .ctrlRead 32 0x20 ∨ a = .ctrlRead 32 0x24 ∨
        (∃ addr b, a = .bufRead .out addr ∧ s.out.read addr = some b) →
      step s = .next { t with returned := .nothing, faults := s.faults.add .hostReadWhileBusy }) ∧
    (∀ addr, a = .bufRead .out addr → s.out.read addr = none →
      step s = .next { t with
        returned := .nothing
        faults := (s.faults.add .hostReadUnwritten).add .hostReadWhileBusy }) ∧
    (∀ off, a = .ctrlRead 32 off → off ≠ 0x20 → off ≠ 0x24 →
      step s = .next { t with returned := .word (readReg s off) }) ∧
    (∀ sp addr b, a = .bufRead sp addr → sp ≠ .out → (s.buffer sp).read addr = some b →
      step s = .next { t with returned := .byte b })

/-- 10_state.md R46, with R450's reset: no step but reset removes a reason from FAULT. -/
def Obligations.FaultRecordOnlyGrows : Prop :=
  ∀ (s t : State) (f : Fault), step s = .next t → (∀ rest, s.agenda ≠ .reset :: rest) →
    s.faults.has f = true → t.faults.has f = true

/-! ## Reset and the invariant -/

/-- R450: after reset every register is 0, the reserved offsets read 0, every byte is unwritten, the engine is
idle with no draw pending, and FAULT is empty; the entropy source's answers stay. (That the platform's sizes and the
agenda stay too is log entry 9's deduction, and that `returned` is cleared is its choice.) -/
def Obligations.ResetGivesTheResetState : Prop :=
  ∀ (s : State) (rest : List Event), s.agenda = .reset :: rest →
    ∃ t, step s = .next t ∧
      t = {
        platform := s.platform, cmd := 0#32, phase := .idle, done := false, hdr := false, errcode := 0#4
        keylen := 0#6, ivlen := 0#5, blksz := 0#9, inlenLo := 0#32, inlenHi := 0#32, outlenLo := 0#32
        outlenHi := 0#32, key := [], iv := [], salt := [], inp := [], out := []
        faults := ⟨false, false, false, false, false, false⟩, entropy := s.entropy, returned := .nothing
        agenda := rest } ∧
      t.drawPending = false ∧ (∀ sp a, (t.buffer sp).read a = none) ∧ statusWord t = 0#32 ∧
      ∀ off, off = 0x14 ∨ 0x28 ≤ off → readReg t off = 0#32

/-- The invariant holds right after reset, on every legal platform (R9, R450; the platform of `State.reset` is
log entry 1's). -/
def Obligations.ResetMeetsTheInvariant : Prop :=
  Inv State.reset ∧
  ∀ (p : Platform) (answers : Bytes) (events : List Event), p.legal → Inv (State.resetOn p answers events)

/-- Every step keeps the invariant: canonical buffers below their sizes (R45, R70), the latched operands equal
the registers (R406), STATUS clear while busy (R36 to R38), ERRCODE at most 9 (R38), OUTLEN 0 after an error
(R43) and at most OUT_CAP, and every byte of the result written (R76). -/
def Obligations.EveryStepKeepsTheInvariant : Prop :=
  ∀ s t : State, Inv s → step s = .next t → Inv t

/-- R452: issued with no set-up after reset, a command that uses the key fails with InvalidKeySizeError, and PAD
and UNPAD fail with PaddingValidationError; no byte is read and no answer used. -/
def Obligations.NoSetupFailsAtTheFirstCheck : Prop :=
  ∀ (i : Instr) (p : Platform) (answers : Bytes) (events : List Event),
    exec i (issue (encode i) (State.resetOn p answers events)) =
      .next (completeErr (if usesKey i then .invalidKeySize else .paddingValidation)
        (issue (encode i) (State.resetOn p answers events)))

/-! ## Checks and their order -/

/-- R402: every command but BUILD_HDR raises CapacityError when INLEN > IN_CAP, before anything else of its
own; BUILD_HDR makes no INLEN check and does not read IN. -/
def Obligations.InputCapacityIsCheckedFirst : Prop :=
  (∀ (i : Instr) (s : State), readsIn i = true → s.platform.inCap < s.inBytes →
    exec i s = .next (completeErr .capacity s)) ∧
  (∀ (m : Mode) (s : State) (inp : Memory) (lo hi : Word) (n : BitVec 64) (op : Latch), s.phase = .busy op →
    ruleOf (.buildHdr m)
        { s with inp := inp, inlenLo := lo, inlenHi := hi, phase := .busy { op with inlen := n } } =
      ruleOf (.buildHdr m) s)

/-- R244, R362, R401 item 3: every command that uses the key raises InvalidKeySizeError for an illegal KEYLEN
before any other check of its own, and before it reads a byte or takes a draw. -/
def Obligations.KeyLengthIsCheckedNext : Prop :=
  ∀ (i : Instr) (s : State), usesKey i = true → (readsIn i = true → s.inBytes ≤ s.platform.inCap) →
    s.keyBytes ≠ 16 → s.keyBytes ≠ 24 → s.keyBytes ≠ 32 →
    exec i s = .next (completeErr .invalidKeySize s)

/-- R141: PAD and UNPAD raise PaddingValidationError for a block size outside the scheme's range, before they
read any data byte. -/
def Obligations.BlockSizeIsCheckedNext : Prop :=
  ∀ (sch : Scheme) (i : Instr) (s : State), (i = padInstr sch ∨ i = unpadInstr sch) →
    s.inBytes ≤ s.platform.inCap →
    (s.blockSize = 0 ∨
      s.blockSize > (match sch with
        | .iso10126 => 256
        | .noPad => 511
        | .pkcs7 | .iso9797m2 | .ansix923 | .zero => 255)) →
    exec i s = .next (completeErr .paddingValidation s)

/-- R364, R365, R380: with a mode that needs an IV, ENCRYPT with IVP = 1 (after its padding step, whose filler is
then used up) and DECRYPT of an input with no header raise InvalidIVLengthError when the IV is absent or its length
is not the mode's. -/
def Obligations.IvLengthIsChecked : Prop :=
  ∀ (m : Mode) (sch : Scheme) (s : State) (k x : Bytes), s.keyIs k → s.inIs x → m ≠ .ecb →
    (s.padsOn m sch x → s.ivBytes ≠ ivSize m →
      exec (encryptInstr m sch true) s = .next (completeErr .invalidIvLength
        { s with entropy := s.entropy.drop (encryptFiller m sch x.length) })) ∧
    (∀ ivp, x.take 8 ≠ magic → (ivp = true → s.ivBytes ≠ ivSize m) →
      exec (decryptInstr m sch ivp) s = .next (completeErr .invalidIvLength s))

/-- R280, R281, R245, R246, R202, R375, R376, R146: the lengths that raise BlockAlignmentError. -/
def Obligations.MisalignedLengthsFail : Prop :=
  ∀ (s : State), s.inBytes ≤ s.platform.inCap → keySizeLegal s.keyBytes = true →
    (s.inBytes % 16 ≠ 0 → exec .ecbEnc s = .next (completeErr .blockAlignment s) ∧
      exec .ecbDec s = .next (completeErr .blockAlignment s)) ∧
    (s.inBytes ≠ 16 → exec .aesEnc s = .next (completeErr .blockAlignment s) ∧
      exec .aesDec s = .next (completeErr .blockAlignment s)) ∧
    (∀ m, s.inBytes < 16 → exec (.parseHdr m) s = .next (completeErr .blockAlignment s)) ∧
    (∀ m sch ivp k x, s.keyIs k → s.inIs x → x.take 8 = magic → x.length < 16 →
      exec (decryptInstr m sch ivp) s = .next (completeErr .blockAlignment s)) ∧
    (∀ m sch ivp k x v, s.keyIs k → s.inIs x → modePads m = true → x.length % 16 ≠ 0 →
      (x.take 8 = magic ∨ m = .ecb ∨ (ivp = true ∧ s.ivIs m v)) →
      exec (decryptInstr m sch ivp) s = .next (completeErr .blockAlignment s)) ∧
    (∀ m ivp k x, s.keyIs k → s.inIs x → modePads m = true → x.length % 16 ≠ 0 →
      exec (encryptInstr m .noPad ivp) s = .next (completeErr .blockAlignment s))

/-- R403 with R9: on a platform with OUT_CAP ≥ max(IN_CAP + 256, 64), a command whose input fits IN never
completes with CapacityError. -/
def Obligations.RoomyPlatformNeverOverflows : Prop :=
  ∀ (i : Instr) (s t : State), s.platform.roomy →
    (s.errcode ≠ 9#4) → s.inBytes ≤ s.platform.inCap → exec i s = .next t → t.errcode ≠ 9#4

/-- R404: the draws never decide whether a command fails. With other answers, as many of them, a command
reaches the same: it waits or sticks alike, or it completes with the same STATUS and OUTLEN. -/
def Obligations.DrawsNeverDecideFailure : Prop :=
  ∀ (i : Instr) (s t t' : State) (answers : Bytes), answers.length = s.entropy.length →
    exec i s = .next t → exec i { s with entropy := answers } = .next t' →
    statusWord t = statusWord t' ∧ t.outlen = t'.outlen ∧ t.faults = t'.faults ∧
      t.entropy.length = t'.entropy.length

/-! ## PAD and UNPAD -/

/-- R142 to R147: the results of the PAD commands that take no draw, with N = B − (len D mod B). -/
def Obligations.PadCommandsPad : Prop :=
  ∀ (s : State) (d : Bytes), s.inIs d →
    (blockSizeOk .pkcs7 s.blockSize = true →
      s.fits (d ++ rep (byteOf (padLen d.length s.blockSize)) (padLen d.length s.blockSize)) →
      exec .padPkcs7 s = .next (completeOk
        (d ++ rep (byteOf (padLen d.length s.blockSize)) (padLen d.length s.blockSize)) false s)) ∧
    (blockSizeOk .zero s.blockSize = true → s.fits (d ++ rep 0#8 (padLen d.length s.blockSize)) →
      exec .padZero s = .next (completeOk (d ++ rep 0#8 (padLen d.length s.blockSize)) false s)) ∧
    (blockSizeOk .iso9797m2 s.blockSize = true →
      s.fits (d ++ [0x80#8] ++ rep 0#8 (padLen (d.length + 1) s.blockSize)) →
      exec .padIso9797m2 s = .next (completeOk
        (d ++ [0x80#8] ++ rep 0#8 (padLen (d.length + 1) s.blockSize)) false s)) ∧
    (blockSizeOk .ansix923 s.blockSize = true →
      s.fits (d ++ rep 0#8 (padLen d.length s.blockSize - 1) ++ [byteOf (padLen d.length s.blockSize)]) →
      exec .padAnsix923 s = .next (completeOk
        (d ++ rep 0#8 (padLen d.length s.blockSize - 1) ++ [byteOf (padLen d.length s.blockSize)])
        false s)) ∧
    (blockSizeOk .noPad s.blockSize = true →
      (d.length % s.blockSize = 0 → s.fits d → exec .padNone s = .next (completeOk d false s)) ∧
      (d.length % s.blockSize ≠ 0 → exec .padNone s = .next (completeErr .blockAlignment s)))

/-- R142, R148: PAD.ISO10126 draws N − 1 filler bytes and appends them and the count byte N mod 256. -/
def Obligations.PadIso10126DrawsItsFiller : Prop :=
  ∀ (s : State) (d fill rest : Bytes), s.inIs d → 1 ≤ s.blockSize → s.blockSize ≤ 256 →
    s.drawIs (s.blockSize - d.length % s.blockSize - 1) fill rest →
    s.fits (d ++ fill ++ [byteOf (s.blockSize - d.length % s.blockSize)]) →
    exec .padIso10126 s = .next (completeOk
      (d ++ fill ++ [byteOf (s.blockSize - d.length % s.blockSize)]) false { s with entropy := rest })

/-- R150 to R159: the results of the UNPAD commands. Each clause gives the data for which the command succeeds
with `d`; the failures are the next statement's. -/
def Obligations.UnpadCommandsStrip : Prop :=
  ∀ (s : State) (d fill : Bytes) (n : Nat), s.fits d → 1 ≤ n → n ≤ s.blockSize →
    (blockSizeOk .pkcs7 s.blockSize = true → s.inIs (d ++ rep (byteOf n) n) →
      exec .unpadPkcs7 s = .next (completeOk d false s)) ∧
    (blockSizeOk .ansix923 s.blockSize = true → s.inIs (d ++ rep 0#8 (n - 1) ++ [byteOf n]) →
      exec .unpadAnsix923 s = .next (completeOk d false s)) ∧
    (blockSizeOk .iso10126 s.blockSize = true → n ≤ 255 → fill.length = n - 1 →
      s.inIs (d ++ fill ++ [byteOf n]) → exec .unpadIso10126 s = .next (completeOk d false s)) ∧
    (∀ k, blockSizeOk .zero s.blockSize = true → d.getLast? ≠ some 0#8 → s.inIs (d ++ rep 0#8 k) →
      exec .unpadZero s = .next (completeOk d false s)) ∧
    (∀ k b, blockSizeOk .iso9797m2 s.blockSize = true → b ≠ 0#8 → s.inIs (d ++ [b] ++ rep 0#8 k) →
      exec .unpadIso9797m2 s = .next (completeOk d false s)) ∧
    (blockSizeOk .noPad s.blockSize = true → d.length % s.blockSize = 0 → s.inIs d →
      exec .unpadNone s = .next (completeOk d false s))

/-- R151, R153, R155 to R159: the data the UNPAD commands reject. A count byte of 0, above B or above the length,
a mismatched filler, an empty input, nothing left after the zeros, and a misaligned NoPadding input. -/
def Obligations.UnpadCommandsReject : Prop :=
  ∀ (s : State) (d : Bytes), s.inIs d →
    (∀ i sch, (i, sch) ∈ [(Instr.unpadPkcs7, Scheme.pkcs7), (.unpadAnsix923, .ansix923),
        (.unpadIso10126, .iso10126)] → blockSizeOk sch s.blockSize = true →
      (d = [] ∨ ∃ x, d.getLast? = some x ∧ (x = 0#8 ∨ s.blockSize < x.toNat ∨ d.length < x.toNat)) →
      exec i s = .next (completeErr .paddingValidation s)) ∧
    (∀ x, blockSizeOk .pkcs7 s.blockSize = true → d.getLast? = some x → x.toNat ≤ d.length →
      (∃ y ∈ d.drop (d.length - x.toNat), y ≠ x) →
      exec .unpadPkcs7 s = .next (completeErr .paddingValidation s)) ∧
    (∀ x, blockSizeOk .ansix923 s.blockSize = true → d.getLast? = some x → x.toNat ≤ d.length →
      (∃ y ∈ (d.drop (d.length - x.toNat)).dropLast, y ≠ 0#8) →
      exec .unpadAnsix923 s = .next (completeErr .paddingValidation s)) ∧
    (blockSizeOk .iso9797m2 s.blockSize = true → (∀ x ∈ d, x = 0#8) →
      exec .unpadIso9797m2 s = .next (completeErr .paddingValidation s)) ∧
    (blockSizeOk .noPad s.blockSize = true → d.length % s.blockSize ≠ 0 →
      exec .unpadNone s = .next (completeErr .blockAlignment s))

/-- R160: the round trip of each scheme, for every data, every block size in range and every draw; ISO10126's
condition is necessary too (R158). -/
def Obligations.PaddingRoundTrips : Prop :=
  ∀ (sch : Scheme) (d fill : Bytes) (b : Nat), blockSizeOk sch b = true →
    fill.length = fillerLen sch d.length b →
    ((∃ p, pad sch d b fill = .ok p ∧ unpad sch p b = .ok d) ↔
      match sch with
      | .pkcs7 | .iso9797m2 | .ansix923 => True
      | .iso10126 => b ≤ 255 ∨ d.length % 256 ≠ 0
      | .noPad => d.length % b = 0
      | .zero => d = [] ∨ ∃ x, d.getLast? = some x ∧ x ≠ 0#8) ∧
    (sch = .noPad → d.length % b ≠ 0 →
      pad sch d b fill = .error .blockAlignment ∧ unpad sch d b = .error .blockAlignment)

/-- R149: Pad fails only by the block-size check (R141) or, in NoPadding, by alignment (R146); for every other
scheme and every B in range the padded length is a multiple of B and greater than the data's. -/
def Obligations.PadFailsOnlyByItsChecks : Prop :=
  ∀ (sch : Scheme) (d fill : Bytes) (b : Nat), fill.length = fillerLen sch d.length b →
    (∀ e, pad sch d b fill = .error e →
      (blockSizeOk sch b = false ∧ e = .paddingValidation) ∨
      (sch = .noPad ∧ d.length % b ≠ 0 ∧ e = .blockAlignment)) ∧
    (sch ≠ .noPad → blockSizeOk sch b = true →
      ∃ p, pad sch d b fill = .ok p ∧ p.length % b = 0 ∧ d.length < p.length)

/-! ## DERIVE, BUILD_HDR, PARSE_HDR -/

/-- R200: DERIVE returns the key and IV derived from SALT and the password IN, without reading KEY. R197, R198: they
are the first ks and the next ts − ks bytes of the digests Di = MD5(D(i−1) ‖ pw ‖ salt), one hash each, where
D(−1) is ε and there are ceil(ts / 16) of them. -/
def Obligations.DeriveReturnsKeyMaterial : Prop :=
  (∀ (salt pw : Bytes) (ks ts : Nat), ks ≤ ts →
    ∃ digests : List Bytes, digests.length = (ts + 15) / 16 ∧
      (∀ (j : Nat) (d : Bytes), digests[j]? = some d →
        d = md5 ((if j = 0 then [] else (digests[j - 1]?).getD []) ++ pw ++ salt)) ∧
      deriveKeyMaterial salt pw ks ts =
        (digests.flatten.take ks, (digests.flatten.take ts).drop ks) ∧
      (deriveKeyMaterial salt pw ks ts).1.length = ks ∧
      (deriveKeyMaterial salt pw ks ts).2.length = ts - ks) ∧
  ∀ (m : Mode) (s : State) (salt pw : Bytes), keySizeLegal s.keyBytes = true → s.saltIs salt → s.inIs pw →
    s.keyBytes + ivSize m ≤ s.platform.outCap →
    exec (.derive m) s = .next (completeOk
      ((deriveKeyMaterial salt pw s.keyBytes (s.keyBytes + ivSize m)).1 ++
        (deriveKeyMaterial salt pw s.keyBytes (s.keyBytes + ivSize m)).2) false s)

/-- R201: BUILD_HDR draws eight salt bytes and returns the header and the derived key and IV, whatever INLEN
is. -/
def Obligations.BuildHdrReturnsHeaderAndMaterial : Prop :=
  ∀ (m : Mode) (s : State) (k salt rest : Bytes), s.keyIs k → s.drawIs 8 salt rest →
    16 + s.keyBytes + ivSize m ≤ s.platform.outCap →
    exec (.buildHdr m) s = .next (completeOk
      (magic ++ salt ++ (deriveKeyMaterial salt k s.keyBytes (s.keyBytes + ivSize m)).1 ++
        (deriveKeyMaterial salt k s.keyBytes (s.keyBytes + ivSize m)).2) false { s with entropy := rest })

/-- R202: PARSE_HDR re-derives the key and IV from IN[8..16), and reads no other byte of IN. -/
def Obligations.ParseHdrReturnsKeyMaterial : Prop :=
  ∀ (m : Mode) (s : State) (k salt : Bytes), s.keyIs k → 16 ≤ s.inBytes →
    s.inBytes ≤ s.platform.inCap → s.inp.readRange 8 8 = some salt →
    s.keyBytes + ivSize m ≤ s.platform.outCap →
    exec (.parseHdr m) s = .next (completeOk
      ((deriveKeyMaterial salt k s.keyBytes (s.keyBytes + ivSize m)).1 ++
        (deriveKeyMaterial salt k s.keyBytes (s.keyBytes + ivSize m)).2) false s)

/-- R203: PARSE_HDR, run with the header BUILD_HDR produced and the same key, returns bytes [16..) of BUILD_HDR's
result, for every salt drawn. -/
def Obligations.ParseHdrRecoversWhatBuildHdrAppended : Prop :=
  ∀ (m : Mode) (s t : State) (k salt rest h : Bytes), s.keyIs k → s.drawIs 8 salt rest → s.platform.legal →
    16 + s.keyBytes + ivSize m ≤ s.platform.outCap → t.keyIs k → t.keyBytes = s.keyBytes →
    t.inIs h → s.keyBytes + ivSize m ≤ t.platform.outCap → s.out.wf = true →
    ∀ s', exec (.buildHdr m) s = .next s' → s'.out.readRange 0 16 = some h →
      ∃ kv, s'.out.readRange 16 (s.keyBytes + ivSize m) = some kv ∧
        exec (.parseHdr m) t = .next (completeOk kv false t)

/-! ## The block commands and the cipher -/

/-- R245, R246: AES_ENC and AES_DEC return the cipher and the inverse cipher of one block. -/
def Obligations.AesCommandsReturnTheCipher : Prop :=
  ∀ (s : State) (k x : Bytes), s.keyIs k → s.inIs x → x.length = 16 → 16 ≤ s.platform.outCap →
    exec .aesEnc s = .next (completeOk (aesEnc k x) false s) ∧
    exec .aesDec s = .next (completeOk (aesDec k x) false s)

/-- R280 to R284: ECB_ENC and ECB_DEC return the blocks transformed one by one: block i of the result is the
cipher of block i of the input, whatever the other blocks are. -/
def Obligations.EcbCommandsTransformEachBlock : Prop :=
  ∀ (s : State) (k x : Bytes), s.keyIs k → s.inIs x → x.length % 16 = 0 → x.length ≤ s.platform.outCap →
    ∃ y z, exec .ecbEnc s = .next (completeOk y false s) ∧ exec .ecbDec s = .next (completeOk z false s) ∧
      y.length = x.length ∧ z.length = x.length ∧
      ∀ i, 16 * i < x.length →
        slice y (16 * i) (16 * i + 16) = aesEnc k (slice x (16 * i) (16 * i + 16)) ∧
        slice z (16 * i) (16 * i + 16) = aesDec k (slice x (16 * i) (16 * i + 16))

/-- R243: the cipher and the inverse cipher undo each other, for every legal key and every block. -/
def Obligations.CipherInverts : Prop :=
  ∀ k x : Bytes, keySizeLegal k.length = true → x.length = 16 →
    aesDec k (aesEnc k x) = x ∧ aesEnc k (aesDec k x) = x

/-- R301, R302, R304, R305, R307 to R309: the recurrence of each chained mode on a first whole block, and the
leading keystream bytes on a short last segment. R312, R314, R315: the same of GCM's building blocks: inc32 changes
the last four bytes only, GCTR steps its counter by inc32, and GHASH takes in one block more by
Y = GF128Mul(Y ⊕ S, H). -/
def Obligations.ModeRecurrences : Prop :=
  (∀ (k iv b rest : Bytes) (n : Nat), b.length = 16 →
    cbcEnc k iv (b ++ rest) = aesEnc k (xorBytes b iv) ++ cbcEnc k (aesEnc k (xorBytes b iv)) rest ∧
    cbcDec k iv (b ++ rest) = xorBytes (aesDec k b) iv ++ cbcDec k b rest ∧
    cfbEnc k iv (b ++ rest) =
      xorBytes b (aesEnc k iv) ++ cfbEnc k (xorBytes b (aesEnc k iv)) rest ∧
    cfbDec k iv (b ++ rest) = xorBytes b (aesEnc k iv) ++ cfbDec k b rest ∧
    ofbXcrypt k iv (b ++ rest) = xorBytes b (aesEnc k iv) ++ ofbXcrypt k (aesEnc k iv) rest ∧
    ctrXcrypt k (be n 16) (b ++ rest) =
      xorBytes b (aesEnc k (be n 16)) ++ ctrXcrypt k (be ((n + 1) % 2 ^ 128) 16) rest ∧
    (rest.length ≤ 16 → cfbEnc k iv rest = xorBytes rest (aesEnc k iv) ∧
      cfbDec k iv rest = xorBytes rest (aesEnc k iv) ∧ ofbXcrypt k iv rest = xorBytes rest (aesEnc k iv) ∧
      ctrXcrypt k (be n 16) rest = xorBytes rest (aesEnc k (be n 16)))) ∧
  (∀ cb : Bytes, cb.length = 16 →
    ofBlock (inc32 (toBlock cb)) = cb.take 12 ++ be ((intBe (cb.drop 12) + 1) % 2 ^ 32) 4) ∧
  (∀ (k b rest : Bytes) (cb : Block), b.length = 16 →
    gctr k cb (b ++ rest) = xorBytes b (aesEnc k (ofBlock cb)) ++ gctr k (inc32 cb) rest ∧
    (rest.length ≤ 16 → gctr k cb rest = xorBytes rest (aesEnc k (ofBlock cb)))) ∧
  (∀ (h : Block) (x b : Bytes), x.length % 16 = 0 → b.length = 16 →
    ghash h [] = 0#128 ∧ ghash h (x ++ b) = gf128Mul (ghash h x ^^^ toBlock b) h)

/-- R316, R317, R319: sealing succeeds exactly up to (2^32 − 2)·16 bytes, and opening what was sealed gives the
plaintext back; a body whose last 16 bytes are not the tag of the rest, or that is shorter than a tag, fails with
AuthenticationFailureError, and one whose ciphertext is over the bound with PlaintextTooLargeError. With a 12-byte
nonce N the ciphertext is GCTR from the counter block N ‖ 00000002, and the tag is
AES_Enc(K, N ‖ 00000001) ⊕ GHASH(AES_Enc(K, 0), C ‖ zeros ‖ be(0, 8) ‖ be(8·len C, 8)) (R314). -/
def Obligations.GcmOpensOnlyWhatItsTagCovers : Prop :=
  (∀ k n p : Bytes, p.length ≤ (2 ^ 32 - 2) * 16 →
    ∃ c, c.length = p.length ∧ gcmSeal k n p = .ok (c ++ gcmTagOf k n c) ∧
      gcmOpen k n (c ++ gcmTagOf k n c) = .ok p ∧
      (n.length = 12 → c = gctr k (toBlock (n ++ [0, 0, 0, 2])) p)) ∧
  (∀ k n p : Bytes, (2 ^ 32 - 2) * 16 < p.length → gcmSeal k n p = .error .plaintextTooLarge) ∧
  (∀ k n c t : Bytes, t.length = 16 →
    (c.length ≤ (2 ^ 32 - 2) * 16 → t ≠ gcmTagOf k n c →
      gcmOpen k n (c ++ t) = .error .authenticationFailure) ∧
    ((2 ^ 32 - 2) * 16 < c.length → gcmOpen k n (c ++ t) = .error .plaintextTooLarge)) ∧
  (∀ k n e : Bytes, e.length < 16 → gcmOpen k n e = .error .authenticationFailure) ∧
  (∀ k n c : Bytes, n.length = 12 →
    ∃ u, u < 16 ∧ (c.length + u) % 16 = 0 ∧
      gcmTagOf k n c = xorBytes (aesEnc k (n ++ [0, 0, 0, 1]))
        (ofBlock (ghash (toBlock (aesEnc k (rep 0 16)))
          (c ++ rep 0 u ++ be 0 8 ++ be (8 * c.length) 8))))

/-! ## ENCRYPT and DECRYPT -/

/-- R365, R364, R368, R370: ENCRYPT with an explicit IV in a stream mode or GCM returns the mode's transform of
the plaintext under the caller's key and IV, with no header, whatever the PAD field says. -/
def Obligations.EncryptWithIvInStreamModes : Prop :=
  ∀ (sch : Scheme) (s : State) (k iv p : Bytes), s.keyIs k → s.inIs p →
    (s.ivIs .cfb iv → s.fits p →
      exec (.encryptCfb sch true) s = .next (completeOk (cfbEnc k iv p) false s)) ∧
    (s.ivIs .ctr iv → s.fits p →
      exec (.encryptCtr sch true) s = .next (completeOk (ctrXcrypt k iv p) false s)) ∧
    (s.ivIs .ofb iv → s.fits p →
      exec (.encryptOfb sch true) s = .next (completeOk (ofbXcrypt k iv p) false s)) ∧
    (s.ivIs .gcm iv → p.length + 16 ≤ s.platform.outCap →
      (∀ c, gcmSeal k iv p = .ok c → exec (.encryptGcm sch true) s = .next (completeOk c false s)) ∧
      (gcmMax < p.length → exec (.encryptGcm sch true) s = .next (completeErr .plaintextTooLarge s)))

/-- R365, R367, R368, R369, R373: ENCRYPT in CBC with an explicit IV, and in ECB (which ignores IVP and IV), pads
the plaintext to blocks of 16, with the draw ISO10126 takes, and transforms it. -/
def Obligations.EncryptPadsInCbcAndEcb : Prop :=
  ∀ (sch : Scheme) (s : State) (k iv p fill rest padded : Bytes), s.keyIs k → s.inIs p →
    s.drawIs (fillerLen sch p.length 16) fill rest → pad sch p 16 fill = .ok padded → s.fits padded →
    (s.ivIs .cbc iv →
      exec (.encryptCbc sch true) s =
        .next (completeOk (cbcEnc k iv padded) false { s with entropy := rest })) ∧
    (∀ ivp, exec (.encryptEcb sch ivp) s =
      .next (completeOk (ecbEnc k padded) false { s with entropy := rest }))

/-- R366, R363, R371, R372: ENCRYPT without an IV draws the filler and then an eight-byte salt, derives key and IV
with the caller's key as the password, and prefixes the header: OUT is MAGIC, the salt, and the mode's transform;
HDR is 1. -/
def Obligations.EncryptWithoutIvIsSalted : Prop :=
  ∀ (m : Mode) (sch : Scheme) (s : State) (k p fill salt rest padded c : Bytes), m ≠ .ecb → s.keyIs k →
    s.inIs p → s.entropy = fill ++ salt ++ rest → salt.length = 8 →
    (if m = .cbc then fill.length = fillerLen sch p.length 16 ∧ pad sch p 16 fill = .ok padded
      else fill = [] ∧ padded = p) →
    modeEncrypt m (deriveKeyMaterial salt k s.keyBytes (s.keyBytes + ivSize m)).1
      (deriveKeyMaterial salt k s.keyBytes (s.keyBytes + ivSize m)).2 padded = .ok c →
    s.fits (magic ++ salt ++ c) →
    exec (encryptInstr m sch false) s =
      .next (completeOk (magic ++ salt ++ c) true { s with entropy := rest })

/-- R374, R377 to R380: DECRYPT of an input that does not begin with MAGIC transforms it under the caller's key
(and explicit IV, but in ECB) and unpads in CBC and ECB; the error of the transform or of the unpadding is the
command's. -/
def Obligations.DecryptWithoutHeader : Prop :=
  ∀ (m : Mode) (sch : Scheme) (ivp : Bool) (s : State) (k iv c : Bytes), s.keyIs k → s.inIs c →
    c.take 8 ≠ magic → (m ≠ .ecb → ivp = true ∧ s.ivIs m iv) → (modePads m = true → c.length % 16 = 0) →
    (∀ e, modeDecrypt m k iv c = .error e →
      exec (decryptInstr m sch ivp) s = .next (completeErr e s)) ∧
    (∀ p, modeDecrypt m k iv c = .ok p →
      (modePads m = false → s.fits p →
        exec (decryptInstr m sch ivp) s = .next (completeOk p false s)) ∧
      (∀ e, modePads m = true → unpad sch p 16 = .error e →
        exec (decryptInstr m sch ivp) s = .next (completeErr e s)) ∧
      (∀ r, modePads m = true → unpad sch p 16 = .ok r → s.fits r →
        exec (decryptInstr m sch ivp) s = .next (completeOk r false s)))

/-- R374, R375: DECRYPT of an input that begins with MAGIC, in every mode and whatever IVP and the IV buffer hold,
re-derives key and IV from the salt and decrypts the rest; HDR is 1 on success. -/
def Obligations.DecryptWithHeader : Prop :=
  ∀ (m : Mode) (sch : Scheme) (ivp : Bool) (s : State) (k salt c : Bytes), s.keyIs k →
    s.inIs (magic ++ salt ++ c) → salt.length = 8 → (modePads m = true → c.length % 16 = 0) →
    (∀ e, modeDecrypt m (deriveKeyMaterial salt k s.keyBytes (s.keyBytes + ivSize m)).1
        (deriveKeyMaterial salt k s.keyBytes (s.keyBytes + ivSize m)).2 c = .error e →
      exec (decryptInstr m sch ivp) s = .next (completeErr e s)) ∧
    (∀ p, modeDecrypt m (deriveKeyMaterial salt k s.keyBytes (s.keyBytes + ivSize m)).1
        (deriveKeyMaterial salt k s.keyBytes (s.keyBytes + ivSize m)).2 c = .ok p →
      (modePads m = false → s.fits p →
        exec (decryptInstr m sch ivp) s = .next (completeOk p true s)) ∧
      (∀ e, modePads m = true → unpad sch p 16 = .error e →
        exec (decryptInstr m sch ivp) s = .next (completeErr e s)) ∧
      (∀ r, modePads m = true → unpad sch p 16 = .ok r → s.fits r →
        exec (decryptInstr m sch ivp) s = .next (completeOk r true s)))

/-- R382: the round trip with an explicit IV, on the engine: if ENCRYPT succeeds from s and its result does not
begin with MAGIC, DECRYPT from a state with the same key and IV and the result in IN returns the plaintext, for
data whose padding round trip holds (R160: with B = 16 it excludes only ZeroPadding of data that ends in 0x00). -/
def Obligations.ExplicitIvRoundTrip : Prop :=
  ∀ (m : Mode) (sch : Scheme) (s s' t : State) (k iv p e : Bytes), s.platform.legal → s.out.wf = true →
    s.done = false → s.keyIs k → s.inIs p → (m ≠ .ecb → s.ivIs m iv) →
    (modePads m = true → sch = .zero → p.getLast? ≠ some 0#8) →
    exec (encryptInstr m sch true) s = .next s' → s'.done = true → s'.errcode = 0#4 →
    s'.out.readRange 0 s'.outlen.toNat = some e → e.take 8 ≠ magic →
    t.keyIs k → t.inIs e → (m ≠ .ecb → t.ivIs m iv) → t.fits p →
    exec (decryptInstr m sch true) t = .next (completeOk p false t)

/-- R383: the salted round trip, whatever salt and filler were drawn and whatever IV is set. -/
def Obligations.SaltedRoundTrip : Prop :=
  ∀ (m : Mode) (sch : Scheme) (ivp : Bool) (s s' t : State) (k p e : Bytes), m ≠ .ecb → s.platform.legal →
    s.out.wf = true → s.done = false → s.keyIs k → s.inIs p →
    (modePads m = true → sch = .zero → p.getLast? ≠ some 0#8) →
    exec (encryptInstr m sch false) s = .next s' → s'.done = true → s'.errcode = 0#4 →
    s'.out.readRange 0 s'.outlen.toNat = some e →
    t.keyIs k → t.keyBytes = s.keyBytes → t.inIs e → t.fits p →
    exec (decryptInstr m sch ivp) t = .next (completeOk p true t)

/-! ## Isolation -/

/-- R112, R200, R142, R150, R373: three cases of a command that does not depend on what it does not read. DERIVE,
PAD and UNPAD reach the same whatever KEY holds; every command reaches the same whatever OUT and OUTLEN hold; ENCRYPT
and DECRYPT in ECB reach the same whatever IVP is and IV holds. -/
def Obligations.DeriveAndPadIgnoreKeyAllIgnoreOutEcbIgnoresIv : Prop :=
  (∀ (i : Instr) (s : State) (key : Memory), ((∃ m, i = .derive m) ∨ (∃ sch, i = padInstr sch) ∨
    (∃ sch, i = unpadInstr sch)) → ruleOf i { s with key := key } = ruleOf i s) ∧
  (∀ (i : Instr) (s : State) (out : Memory) (lo hi : Word),
    ruleOf i { s with out := out, outlenLo := lo, outlenHi := hi } = ruleOf i s) ∧
  (∀ (sch : Scheme) (s : State) (iv : Memory), ruleOf (.encryptEcb sch true) { s with iv := iv } =
    ruleOf (.encryptEcb sch false) s ∧
    ruleOf (.decryptEcb sch true) { s with iv := iv } = ruleOf (.decryptEcb sch false) s)

/-- R50, R92, R435: a step of one engine leaves every other engine as it was, and steps of two engines give the
same in either order. 00_scope.md R9: a platform with N_ENGINES ≥ 1 and legal sizes stays one, and is one right
after reset. -/
def Obligations.EnginesAreIndependent : Prop :=
  (∀ (j k : Nat) (c : Cluster), j ≠ k →
    ∃ a b d, c.step j = .next a ∧ c.step k = .next b ∧ a.step k = .next d ∧ b.step j = .next d ∧
      a.engines[k]? = c.engines[k]? ∧ a.engines.length = c.engines.length ∧ (c.legal → a.legal)) ∧
  ∀ (p : Platform) (n : Nat), p.legal → 1 ≤ n →
    (Cluster.resetOn p n).nEngines = n ∧ (Cluster.resetOn p n).legal

/-! ## The host's program -/

/-- R117, with R87 and R410: WAIT polls STATUS for as long as DONE = 0, whatever the number of polls, and changes
nothing but what the host's access returned (log entry 10). Once the command in flight completes with result r, WAIT
ends at the next poll, and the GETOUT after it binds its name to r, with no reason added to FAULT. (The session, with
at most one access a turn, and so the count of turns, is the model's choice, log entry 16.) -/
def Obligations.WaitThenGetOutReadsTheResult : Prop :=
  (∀ (s : State) (x : String) (later : List Stmt) (names : List (String × Value)) (n : Nat), s.done = false →
    ∃ names', Session.run (List.replicate n .host) ⟨s, wait x ++ later, names⟩ =
      .next ⟨if n = 0 then s else { s with returned := .word (statusWord s) }, wait x ++ later, names'⟩) ∧
  (∀ (i : Instr) (s : State) (op : Latch) (r : Result) (rest : Bytes) (x y : String)
      (names : List (String × Value)) (n : Nat),
    s.platform.legal → s.out.wf = true → s.done = false → s.phase = .busy op → decode op.cmd = .ok i →
    ruleOf i s s.entropy = .done r rest → s.fits r.bytes →
    ∃ c, Session.run
        (List.replicate n .host ++ [.engine] ++ List.replicate (r.bytes.length + 5) .host)
        ⟨s, wait x ++ getOut y, names⟩ = .next c ∧
      c.program = [] ∧ lookupName y c.names = .bytes r.bytes ∧ c.engine.faults = s.faults)
end

