-- ==== Sys2Proof/Laws/Bytes.lean ====
section
/-! SUPPORT. Lengths and segments: what the byte-string functions, the cipher, the mode engines, MD5 and the
padding functions say of the length of their results, the two ways a segment list is walked, and byte strings as
integers. -/

namespace Sys2Proof.Machine

@[simp] theorem length_rep (v : Byte) (n : Nat) : (rep v n).length = n := List.length_replicate

@[simp] theorem length_be (n k : Nat) : (be n k).length = k := by
  induction k with
  | zero => rfl
  | succ k ih => simp [be, ih]

@[simp] theorem length_le32 (w : Word) : (le32 w).length = 4 := rfl

@[simp] theorem length_le64 (n : Nat) : (le64 n).length = 8 := by simp [le64]

@[simp] theorem length_ofBlock (x : Block) : (ofBlock x).length = 16 := length_be _ _

@[simp] theorem length_magic : magic.length = 8 := rfl

@[simp] theorem length_header (salt : Bytes) : (header salt).length = 8 + salt.length := by
  simp [header]

@[simp] theorem length_xorBytes (x b : Bytes) : (xorBytes x b).length = min x.length b.length :=
  List.length_zipWith

theorem length_slice (b : Bytes) (i j : Nat) (h : j ≤ b.length) : (slice b i j).length = j - i := by
  simp only [slice, List.length_take, List.length_drop]
  omega

/-- Exclusive-or with the same bytes twice gives the bytes back, where the second operand reaches. -/
theorem xorBytes_cancel {x b : Bytes} (h : x.length ≤ b.length) : xorBytes (xorBytes x b) b = x := by
  induction x generalizing b with
  | nil => rfl
  | cons p rest ih =>
    cases b with
    | nil => simp at h
    | cons q b =>
      simp only [List.length_cons, Nat.add_le_add_iff_right] at h
      have hq : p ^^^ q ^^^ q = p := by rw [BitVec.xor_assoc, BitVec.xor_self, BitVec.xor_zero]
      simp only [xorBytes, List.zipWith_cons_cons, hq]
      exact congrArg _ (ih h)

/-! ### Segments (R300) -/

@[simp] theorem segs_nil : segs [] = [] := rfl

theorem segsFuel_eq {n m : Nat} {x : Bytes} (hn : x.length ≤ n) (hm : x.length ≤ m) :
    segsFuel n x = segsFuel m x := by
  induction n generalizing m x with
  | zero =>
    have : x = [] := List.eq_nil_of_length_eq_zero (by omega)
    subst this
    cases m <;> rfl
  | succ n ih =>
    cases x with
    | nil => cases m <;> rfl
    | cons b rest =>
      cases m with
      | zero => simp at hm
      | succ m =>
        simp only [segsFuel]
        congr 1
        refine ih ?_ ?_ <;> simp only [List.length_drop, List.length_cons] at * <;> omega

/-- The segments of a non-empty string: its first 16 bytes, then the segments of the rest. -/
theorem segs_of_ne_nil {x : Bytes} (h : x ≠ []) : segs x = x.take 16 :: segs (x.drop 16) := by
  cases x with
  | nil => exact absurd rfl h
  | cons b rest =>
    simp only [segs, List.length_cons, segsFuel]
    congr 1
    refine segsFuel_eq ?_ (Nat.le_refl _)
    simp only [List.length_drop, List.length_cons]
    omega

/-- A whole block in front is the first segment. -/
theorem segs_append_block {b x : Bytes} (h : b.length = 16) : segs (b ++ x) = b :: segs x := by
  have hne : b ++ x ≠ [] := by
    intro hn
    have := congrArg List.length hn
    simp only [List.length_append, h, List.length_nil] at this
    omega
  rw [segs_of_ne_nil hne, ← h, List.take_left, List.drop_left]

/-- Induction along the segments: the empty string, and a first segment before a rest that is empty
when the segment is short. -/
theorem segs_induction {P : Bytes → Prop} (nil : P [])
    (cons : ∀ x, x ≠ [] → P (x.drop 16) → P x) (x : Bytes) : P x := by
  have h : ∀ n, ∀ x : Bytes, x.length ≤ n → P x := by
    intro n
    induction n with
    | zero =>
      intro x hx
      have : x = [] := List.eq_nil_of_length_eq_zero (by omega)
      exact this ▸ nil
    | succ n ih =>
      intro x hx
      by_cases hn : x = []
      · exact hn ▸ nil
      · refine cons x hn (ih _ ?_)
        have := List.length_pos_iff.2 hn
        simp only [List.length_drop]
        omega
  exact h x.length x (Nat.le_refl _)

/-- The first 16 bytes and the rest have the string's length together. -/
theorem length_take_add_drop (x : Bytes) : (x.take 16).length + (x.drop 16).length = x.length := by
  rw [← List.length_append, List.take_append_drop]

/-! ### The cipher and the modes -/

@[simp] theorem length_storeState (s : AesState) : (storeState s).length = 16 := rfl

@[simp] theorem length_aesEnc (k x : Bytes) : (aesEnc k x).length = 16 := rfl

@[simp] theorem length_aesDec (k y : Bytes) : (aesDec k y).length = 16 := rfl

/-- A mode that masks each segment with 16 bytes keeps the length. -/
theorem length_mask_take (x m : Bytes) (h : m.length = 16) :
    (xorBytes (x.take 16) m).length = (x.take 16).length := by
  simp only [length_xorBytes, h, List.length_take]
  omega

theorem length_cfbEnc (k iv p : Bytes) : (cfbEnc k iv p).length = p.length := by
  unfold cfbEnc
  induction p using segs_induction generalizing iv with
  | nil => rfl
  | cons x hx ih =>
    simp only [segs_of_ne_nil hx, cfbEncSegs, List.length_append, ih,
      length_mask_take x _ (length_aesEnc k iv), length_take_add_drop]

theorem length_cfbDec (k iv c : Bytes) : (cfbDec k iv c).length = c.length := by
  unfold cfbDec
  induction c using segs_induction generalizing iv with
  | nil => rfl
  | cons x hx ih =>
    simp only [segs_of_ne_nil hx, cfbDecSegs, List.length_append, ih,
      length_mask_take x _ (length_aesEnc k iv), length_take_add_drop]

theorem length_ctrSegs (k : Bytes) (cb : Block) (x : Bytes) : (ctrSegs k cb (segs x)).length = x.length := by
  induction x using segs_induction generalizing cb with
  | nil => rfl
  | cons x hx ih =>
    simp only [segs_of_ne_nil hx, ctrSegs, List.length_append, ih,
      length_mask_take x _ (length_aesEnc k _), length_take_add_drop]

theorem length_ctrXcrypt (k iv x : Bytes) : (ctrXcrypt k iv x).length = x.length := length_ctrSegs k _ x

theorem length_ofbXcrypt (k iv x : Bytes) : (ofbXcrypt k iv x).length = x.length := by
  unfold ofbXcrypt
  induction x using segs_induction generalizing iv with
  | nil => rfl
  | cons x hx ih =>
    simp only [segs_of_ne_nil hx, ofbSegs, List.length_append, ih,
      length_mask_take x _ (length_aesEnc k _), length_take_add_drop]

theorem length_gctr (k : Bytes) (icb : Block) (x : Bytes) : (gctr k icb x).length = x.length := by
  unfold gctr
  induction x using segs_induction generalizing icb with
  | nil => rfl
  | cons x hx ih =>
    simp only [segs_of_ne_nil hx, gctrSegs, List.length_append, ih,
      length_mask_take x _ (length_aesEnc k _), length_take_add_drop]

@[simp] theorem length_gcmTagOf (k n c : Bytes) : (gcmTagOf k n c).length = 16 := by
  simp [gcmTagOf]

/-- The block modes give a whole block per segment. -/
theorem length_blocks {f : Bytes → List Bytes → Bytes} (hnil : ∀ x, f x [] = [])
    (hcons : ∀ x p rest, ∃ c y, c.length = 16 ∧ f x (p :: rest) = c ++ f y rest) (x p : Bytes) :
    (f x (segs p)).length = 16 * ((p.length + 15) / 16) := by
  induction p using segs_induction generalizing x with
  | nil => simp [hnil]
  | cons p hp ih =>
    obtain ⟨c, y, hc, he⟩ := hcons x (p.take 16) (segs (p.drop 16))
    rw [segs_of_ne_nil hp, he, List.length_append, hc, ih]
    have := List.length_pos_iff.2 hp
    simp only [List.length_drop]
    omega

theorem length_cbcEnc (k iv p : Bytes) : (cbcEnc k iv p).length = 16 * ((p.length + 15) / 16) :=
  length_blocks (f := cbcEncSegs k) (fun _ => rfl) (fun _ _ _ => ⟨_, _, length_aesEnc _ _, rfl⟩) iv p

theorem length_ecbEnc (k p : Bytes) : (ecbEnc k p).length = 16 * ((p.length + 15) / 16) :=
  length_blocks (f := fun _ l => (l.map (aesEnc k)).flatten) (fun _ => rfl)
    (fun x p _ => ⟨aesEnc k p, x, length_aesEnc _ _, rfl⟩) [] p

theorem length_ecbDec (k c : Bytes) : (ecbDec k c).length = 16 * ((c.length + 15) / 16) :=
  length_blocks (f := fun _ l => (l.map (aesDec k)).flatten) (fun _ => rfl)
    (fun x p _ => ⟨aesDec k p, x, length_aesDec _ _, rfl⟩) [] c

/-- CBC decryption never gives more than the ciphertext's blocks. -/
theorem length_cbcDec_le (k iv c : Bytes) : (cbcDec k iv c).length ≤ 16 * ((c.length + 15) / 16) := by
  unfold cbcDec
  induction c using segs_induction generalizing iv with
  | nil => simp [cbcDecSegs]
  | cons x hx ih =>
    rw [segs_of_ne_nil hx, cbcDecSegs, List.length_append, length_xorBytes, length_aesDec]
    have h1 := ih (x.take 16)
    have h2 := List.length_pos_iff.2 hx
    simp only [List.length_drop] at h1
    omega

/-! ### MD5 and the derivation -/

@[simp] theorem length_md5 (m : Bytes) : (md5 m).length = 16 := rfl

theorem length_kdfDigests (salt pw : Bytes) (n : Nat) (prev : Bytes) :
    (kdfDigests salt pw n prev).length = 16 * n := by
  induction n generalizing prev with
  | zero => rfl
  | succ n ih =>
    simp only [kdfDigests, List.length_append, length_md5, ih]
    omega

theorem length_derivedKey (salt pw : Bytes) {ks ts : Nat} (h : ks ≤ ts) :
    (deriveKeyMaterial salt pw ks ts).1.length = ks := by
  have := length_slice (kdfDigests salt pw ((ts + 15) / 16) []) 0 ks
    (by rw [length_kdfDigests]; omega)
  simpa [deriveKeyMaterial] using this

theorem length_derivedIv (salt pw : Bytes) (ks ts : Nat) :
    (deriveKeyMaterial salt pw ks ts).2.length = ts - ks :=
  length_slice _ _ _ (by rw [length_kdfDigests]; omega)

/-! ### Padding -/

/-- PadLen is between 1 and the block size (R140). -/
theorem padLen_bounds (l : Nat) {b : Nat} (h : 1 ≤ b) : 1 ≤ padLen l b ∧ padLen l b ≤ b := by
  have := Nat.mod_lt l h
  unfold padLen
  omega

/-- PadLen fills the data up to a block (R140). -/
theorem padLen_fills (l : Nat) {b : Nat} (h : 1 ≤ b) : (l + padLen l b) % b = 0 := by
  have h1 := Nat.mod_lt l h
  have h2 := Nat.div_add_mod l b
  have : l + padLen l b = b * (l / b + 1) := by
    unfold padLen
    rw [Nat.mul_add]
    omega
  rw [this, Nat.mul_mod_right]

theorem length_zeroPad (d : Bytes) (b : Nat) : (zeroPad d b).length = d.length + padLen d.length b := by
  simp [zeroPad]

/-! ### Byte strings as integers (R11) -/

theorem intBe_foldl (b : Bytes) (acc : Nat) :
    b.foldl (fun acc x => acc * 256 + x.toNat) acc = acc * 256 ^ b.length + intBe b := by
  induction b generalizing acc with
  | nil => simp [intBe]
  | cons x b ih =>
    simp only [List.foldl_cons, intBe, List.length_cons]
    rw [ih, ih (0 * 256 + x.toNat)]
    ring

theorem intBe_append (a b : Bytes) : intBe (a ++ b) = intBe a * 256 ^ b.length + intBe b := by
  simp only [intBe, List.foldl_append]
  exact intBe_foldl b _

theorem intBe_lt (b : Bytes) : intBe b < 256 ^ b.length := by
  induction b using List.reverseRecOn with
  | nil => simp [intBe]
  | append_singleton b x ih =>
    rw [intBe_append]
    simp [intBe] at *
    have := x.isLt
    rw [Nat.pow_succ]
    omega

theorem intBe_be (n k : Nat) : intBe (be n k) = n % 256 ^ k := by
  induction k with
  | zero => simp [be, intBe, Nat.mod_one]
  | succ k ih =>
    rw [be]
    show List.foldl _ _ _ = _
    rw [List.foldl_cons, intBe_foldl, ih, length_be]
    simp only [byteOf, BitVec.toNat_ofNat, Nat.shiftRight_eq_div_pow]
    rw [show (2 : Nat) ^ (8 * k) = 256 ^ k by rw [Nat.pow_mul], Nat.pow_succ 256 k,
      Nat.mod_mul (x := n) (a := 256 ^ k) (b := 256)]
    norm_num
    ring

/-- The low k bytes decide `be(n, k)`. -/
theorem be_mod (n k : Nat) : be (n % 256 ^ k) k = be n k := by
  have hle : ∀ j ≤ k, be (n % 256 ^ k) j = be n j := by
    intro j hj
    induction j with
    | zero => rfl
    | succ j ih =>
      rw [be, be, ih (by omega)]
      congr 1
      simp only [byteOf]
      apply BitVec.eq_of_toNat_eq
      simp only [BitVec.toNat_ofNat, Nat.shiftRight_eq_div_pow]
      rw [show (2 : Nat) ^ (8 * j) = 256 ^ j by rw [Nat.pow_mul], show k = j + (1 + (k - j - 1)) by omega,
        Nat.pow_add, Nat.mod_mul_right_div_self, Nat.pow_add]
      norm_num
  exact hle k (Nat.le_refl _)

theorem be_intBe (b : Bytes) : be (intBe b) b.length = b := by
  induction b with
  | nil => rfl
  | cons x b ih =>
    rw [List.length_cons, be]
    have h1 : intBe (x :: b) = x.toNat * 256 ^ b.length + intBe b := by
      simpa [intBe] using intBe_append [x] b
    have hl := intBe_lt b
    congr 1
    · rw [h1, byteOf, Nat.shiftRight_eq_div_pow, Nat.pow_mul, show (2 : Nat) ^ 8 = 256 by rfl, Nat.add_comm,
        Nat.mul_comm, Nat.add_mul_div_left _ _ (by positivity), Nat.div_eq_of_lt hl]
      simp
    · rw [← be_mod, h1, Nat.add_comm, Nat.mul_comm, Nat.add_mul_mod_self_left, be_mod, ih]

@[simp] theorem toBlock_be (n : Nat) : toBlock (be n 16) = BitVec.ofNat 128 n := by
  simp only [toBlock, intBe_be]
  apply BitVec.eq_of_toNat_eq
  simp

@[simp] theorem ofBlock_ofNat (n : Nat) : ofBlock (BitVec.ofNat 128 n) = be n 16 := by
  simp only [ofBlock, BitVec.toNat_ofNat]
  exact be_mod n 16

/-- A 16-byte string is the bytes of its integer (R308). -/
theorem ofBlock_toBlock {b : Bytes} (h : b.length = 16) : ofBlock (toBlock b) = b := by
  rw [toBlock, ofBlock_ofNat, ← h]
  exact be_intBe b

/-- An integer below 2^128 is that of its bytes (R308). -/
@[simp] theorem toBlock_ofBlock (x : Block) : toBlock (ofBlock x) = x := by
  rw [ofBlock, toBlock_be]
  simp

end Sys2Proof.Machine
end

