-- ==== Sys2Proof/Laws/Memory.lean ====
section
/-! SUPPORT. The laws of buffers: read after write, reads of ranges, and that every operation keeps the
canonical form. -/

namespace Sys2Proof.Machine

namespace Memory

/-- Every listed address is above `a`. -/
abbrev above (a : Nat) (m : Memory) : Prop := ∀ cell ∈ m, a < cell.1

theorem wf_cons_iff (a : Nat) (v : Byte) (m : Memory) :
    Memory.wf ((a, v) :: m) = true ↔ above a m ∧ m.wf = true := by
  induction m generalizing a v with
  | nil => simp [Memory.wf]
  | cons c rest ih =>
    obtain ⟨b, y⟩ := c
    simp only [Memory.wf, Bool.and_eq_true, decide_eq_true_eq, List.forall_mem_cons]
    constructor
    · rintro ⟨hab, hr⟩
      exact ⟨⟨hab, fun cell h => Nat.lt_trans hab (((ih b y).1 hr).1 cell h)⟩, hr⟩
    · rintro ⟨⟨hab, -⟩, hr⟩
      exact ⟨hab, hr⟩

theorem read_eq_none_of_above {a : Nat} {m : Memory} (h : above a m) : m.read a = none := by
  induction m with
  | nil => rfl
  | cons c rest ih =>
    obtain ⟨k, v⟩ := c
    have hk : a < k := h (k, v) (by simp)
    simp only [Memory.read, if_neg (by omega : ¬ k = a)]
    exact ih fun cell hc => h cell (List.mem_cons_of_mem _ hc)

/-- A byte written reads back, and every other byte keeps its value. -/
theorem read_write (m : Memory) (h : m.wf = true) (a : Nat) (b : Byte) (x : Nat) :
    (m.write a b).read x = if x = a then some b else m.read x := by
  induction m with
  | nil =>
    simp only [Memory.write, Memory.read]
    by_cases hx : x = a
    · simp [hx]
    · simp [hx, Ne.symm hx]
  | cons c rest ih =>
    obtain ⟨k, v⟩ := c
    obtain ⟨hab, hr⟩ := (wf_cons_iff k v rest).1 h
    simp only [Memory.write]
    split
    · next hlt =>
      by_cases hx : x = a
      · simp [Memory.read, hx]
      · simp [Memory.read, hx, Ne.symm hx]
    · split
      · next hlt heq =>
        subst heq
        by_cases hx : x = a
        · simp [Memory.read, hx]
        · simp [Memory.read, hx, Ne.symm hx]
      · next hlt heq =>
        simp only [Memory.read, ih hr]
        by_cases hk : k = x
        · subst hk
          simp [Ne.symm heq]
        · simp [hk]

theorem mem_write {m : Memory} {a : Nat} {b : Byte} {cell : Host.Cell} (h : cell ∈ m.write a b) :
    cell = (a, b) ∨ cell ∈ m := by
  induction m with
  | nil => simpa [Memory.write] using h
  | cons c rest ih =>
    obtain ⟨k, v⟩ := c
    simp only [Memory.write] at h
    split at h
    · simpa using h
    · split at h
      · simp only [List.mem_cons] at h ⊢
        tauto
      · simp only [List.mem_cons] at h ⊢
        rcases h with h | h
        · exact .inr (.inl h)
        · rcases ih h with h | h
          · exact .inl h
          · exact .inr (.inr h)

/-- A write keeps the canonical form. -/
theorem wf_write {m : Memory} (h : m.wf = true) (a : Nat) (b : Byte) : (m.write a b).wf = true := by
  induction m with
  | nil => rfl
  | cons c rest ih =>
    obtain ⟨k, v⟩ := c
    obtain ⟨hab, hr⟩ := (wf_cons_iff k v rest).1 h
    simp only [Memory.write]
    split
    · next hlt =>
      refine (wf_cons_iff a b _).2 ⟨?_, h⟩
      intro cell hc
      rcases List.mem_cons.1 hc with rfl | hc
      · exact hlt
      · exact Nat.lt_trans hlt (hab cell hc)
    · split
      · next hlt heq =>
        subst heq
        exact (wf_cons_iff a b _).2 ⟨hab, hr⟩
      · next hlt heq =>
        refine (wf_cons_iff k v _).2 ⟨?_, ih hr⟩
        intro cell hc
        rcases mem_write hc with rfl | hc
        · exact Nat.lt_of_le_of_ne (Nat.le_of_not_lt hlt) (Ne.symm heq)
        · exact hab cell hc

/-- A write below the size keeps every byte below the size. -/
theorem within_write {m : Memory} {size a : Nat} (b : Byte) (h : m.within size = true) (ha : a < size) :
    (m.write a b).within size = true := by
  simp only [Memory.within, List.all_eq_true, decide_eq_true_eq] at h ⊢
  intro cell hc
  rcases mem_write hc with rfl | hc
  · exact ha
  · exact h cell hc

theorem wf_writeRange {m : Memory} (h : m.wf = true) (a : Nat) (r : Bytes) :
    (m.writeRange a r).wf = true := by
  induction r generalizing m a with
  | nil => exact h
  | cons b rest ih => exact ih (wf_write h a b) (a + 1)

theorem within_writeRange {m : Memory} {size a : Nat} {r : Bytes} (h : m.within size = true)
    (ha : a + r.length ≤ size) : (m.writeRange a r).within size = true := by
  induction r generalizing m a with
  | nil => exact h
  | cons b rest ih =>
    simp only [List.length_cons] at ha
    exact ih (within_write b h (by omega)) (by omega)

/-- MemWrite stores its bytes in address order and leaves every other byte (R76). -/
theorem read_writeRange {m : Memory} (h : m.wf = true) (a : Nat) (r : Bytes) (x : Nat) :
    (m.writeRange a r).read x =
      if a ≤ x ∧ x < a + r.length then r[x - a]? else m.read x := by
  induction r generalizing m a with
  | nil =>
    simp only [Memory.writeRange, List.length_nil]
    rw [if_neg (by omega)]
  | cons b rest ih =>
    simp only [Memory.writeRange, ih (wf_write h a b), read_write m h, List.length_cons]
    by_cases h1 : a + 1 ≤ x ∧ x < a + 1 + rest.length
    · rw [if_pos h1, if_pos (by omega), show x - a = (x - (a + 1)) + 1 by omega]
      rfl
    · rw [if_neg h1]
      by_cases hx : x = a
      · subst hx
        simp
      · rw [if_neg hx, if_neg (by omega)]

theorem readRange_length {m : Memory} {a n : Nat} {b : Bytes} (h : m.readRange a n = some b) :
    b.length = n := by
  induction n generalizing a b with
  | zero =>
    simp only [Memory.readRange, Option.some.injEq] at h
    simp [← h]
  | succ n ih =>
    simp only [Memory.readRange] at h
    split at h
    · next x y hx hy =>
      simp only [Option.some.injEq] at h
      simp [← h, ih hy]
    · simp at h

/-- MemRead has a value exactly when every byte of the range is written (R75, R78). -/
theorem readRange_isSome_iff (m : Memory) (a n : Nat) :
    (m.readRange a n).isSome = true ↔ ∀ i, i < n → (m.read (a + i)).isSome = true := by
  induction n generalizing a with
  | zero => simp [Memory.readRange]
  | succ n ih =>
    simp only [Memory.readRange]
    have hsplit : (∀ i, i < n + 1 → (m.read (a + i)).isSome = true) ↔
        (m.read a).isSome = true ∧ ∀ i, i < n → (m.read (a + 1 + i)).isSome = true := by
      constructor
      · intro h
        exact ⟨h 0 (by omega), fun i hi => by simpa [Nat.add_assoc, Nat.add_comm 1] using h (i + 1) (by omega)⟩
      · rintro ⟨h0, h⟩ i hi
        cases i with
        | zero => simpa using h0
        | succ i => simpa [Nat.add_assoc, Nat.add_comm 1] using h i (by omega)
    rw [hsplit, ← ih]
    cases m.read a <;> cases Memory.readRange m (a + 1) n <;> simp

/-- The byte at position i of a MemRead is the buffer's byte at address a + i (R75). -/
theorem readRange_getElem? {m : Memory} {a n : Nat} {b : Bytes} (h : m.readRange a n = some b)
    {i : Nat} (hi : i < n) : b[i]? = m.read (a + i) := by
  induction n generalizing a b i with
  | zero => omega
  | succ n ih =>
    simp only [Memory.readRange] at h
    split at h
    · next x y hx hy =>
      simp only [Option.some.injEq] at h
      subst h
      cases i with
      | zero => simp [hx]
      | succ i =>
        rw [List.getElem?_cons_succ, ih hy (by omega), show a + 1 + i = a + (i + 1) by omega]
    · simp at h

/-- Reading back a MemWrite of a whole range. -/
theorem readRange_writeRange {m : Memory} (h : m.wf = true) (a : Nat) (r : Bytes) :
    (m.writeRange a r).readRange a r.length = some r := by
  have hs : ((m.writeRange a r).readRange a r.length).isSome = true := by
    rw [readRange_isSome_iff]
    intro i hi
    rw [read_writeRange h, if_pos (by omega), show a + i - a = i by omega]
    simp [hi]
  obtain ⟨b, hb⟩ := Option.isSome_iff_exists.1 hs
  rw [hb]
  congr 1
  refine List.ext_getElem? fun i => ?_
  by_cases hi : i < r.length
  · rw [readRange_getElem? hb hi, read_writeRange h, if_pos (by omega), show a + i - a = i by omega]
  · have := readRange_length hb
    rw [List.getElem?_eq_none (by omega), List.getElem?_eq_none (by omega)]

/-- A MemRead splits at any point. -/
theorem readRange_add (m : Memory) (a n k : Nat) :
    m.readRange a (n + k) =
      match m.readRange a n, m.readRange (a + n) k with
      | some x, some y => some (x ++ y)
      | _, _ => none := by
  induction n generalizing a with
  | zero =>
    simp only [Nat.zero_add, Memory.readRange, Nat.add_zero]
    cases m.readRange a k <;> simp
  | succ n ih =>
    rw [show n + 1 + k = (n + k) + 1 by omega]
    simp only [Memory.readRange, ih, show a + 1 + n = a + (n + 1) by omega]
    cases m.read a <;> cases Memory.readRange m (a + 1) n <;>
      cases Memory.readRange m (a + (n + 1)) k <;> simp

/-- The two parts of a MemRead that has a value. -/
theorem readRange_split {m : Memory} {a n k : Nat} {x : Bytes} (h : m.readRange a (n + k) = some x) :
    m.readRange a n = some (x.take n) ∧ m.readRange (a + n) k = some (x.drop n) := by
  rw [readRange_add] at h
  split at h
  · next u v hu hv =>
    injection h with h
    have hl := readRange_length hu
    subst h
    rw [hu, hv]
    simp [← hl]
  · simp at h

/-- A part of a MemRead that has a value. -/
theorem readRange_part {m : Memory} {n : Nat} {x : Bytes} (h : m.readRange 0 n = some x) {a k : Nat}
    (hk : a + k ≤ n) : m.readRange a k = some ((x.drop a).take k) := by
  rw [show n = a + (k + (n - a - k)) by omega] at h
  simpa using (readRange_split (readRange_split h).2).1

end Memory

/-- The buffers right after reset are in canonical form. -/
theorem reset_buffers_wf (p : Platform) (e : Bytes) (ev : List Event) (sp : Space) :
    ((State.resetOn p e ev).buffer sp).wf = true := by
  cases sp <;> rfl

end Sys2Proof.Machine
end

