-- ==== Sys2Proof/Laws/Run.lean ====
section
/-! SUPPORT. The laws of command rules: what each piece of a rule reaches. -/

namespace Sys2Proof.Machine

variable {α β : Type}

@[simp] theorem ret_apply (a : α) (e : Bytes) : Run.ret a e = .done a e := rfl

@[simp] theorem raise_apply (err : Err) (e : Bytes) : (Run.raise err : Run α) e = .raised err e := rfl

theorem bind_done {x : Run α} {e e' : Bytes} {a : α} (f : α → Run β) (h : x e = .done a e') :
    x.bind f e = f a e' := by
  simp only [Run.bind, h]

theorem bind_raised {x : Run α} {e e' : Bytes} {err : Err} (f : α → Run β) (h : x e = .raised err e') :
    x.bind f e = .raised err e' := by
  simp only [Run.bind, h]

theorem bind_unwritten {x : Run α} {e : Bytes} (f : α → Run β) (h : x e = .unwritten) :
    x.bind f e = .unwritten := by
  simp only [Run.bind, h]

theorem bind_waiting {x : Run α} {e : Bytes} (f : α → Run β) (h : x e = .waiting) :
    x.bind f e = .waiting := by
  simp only [Run.bind, h]

@[simp] theorem ret_bind (a : α) (f : α → Run β) : (Run.ret a).bind f = f a := rfl

@[simp] theorem raise_bind (err : Err) (f : α → Run β) : (Run.raise err).bind f = Run.raise err := rfl

@[simp] theorem check_true (err : Err) : Run.check true err = Run.ret () := rfl

@[simp] theorem check_false (err : Err) : Run.check false err = Run.raise err := rfl

@[simp] theorem lift_ok (a : α) : Run.lift (.ok a : Except Err α) = Run.ret a := rfl

@[simp] theorem lift_error (err : Err) : Run.lift (.error err : Except Err α) = Run.raise err := rfl

/-- A MemRead of written bytes goes on with them. -/
theorem read_bind {m : Memory} {a n : Nat} {b : Bytes} (h : m.readRange a n = some b) (f : Bytes → Run β) :
    (Run.read m a n).bind f = f b := by
  funext e
  simp [Run.bind, Run.read, h]

/-- A MemRead of an unwritten byte ends the rule there (R78). -/
theorem read_bind_unwritten {m : Memory} {a n : Nat} (h : m.readRange a n = none) (f : Bytes → Run β)
    (e : Bytes) : (Run.read m a n).bind f e = .unwritten := by
  simp [Run.bind, Run.read, h]

/-- An answered draw takes its bytes and leaves the rest (R430). -/
theorem draw_bind {n : Nat} {x rest : Bytes} (h : x.length = n) (f : Bytes → Run β) :
    (Run.draw n).bind f (x ++ rest) = f x rest := by
  subst h
  simp [Run.bind, Run.draw]

/-- An unanswered draw waits (R431). -/
theorem draw_bind_waiting {n : Nat} {e : Bytes} (h : e.length < n) (f : Bytes → Run β) :
    (Run.draw n).bind f e = .waiting := by
  simp [Run.bind, Run.draw, Nat.not_le.2 h]

/-- Draw(0) needs no answer (R432). -/
@[simp] theorem draw_zero : Run.draw 0 = Run.ret [] := by
  funext e
  simp [Run.draw, Run.ret]

theorem checkIn_ok {s : State} (h : s.inBytes ≤ s.platform.inCap) : checkIn s = Run.ret () := by
  simp [checkIn, h]

theorem checkIn_over {s : State} (h : s.platform.inCap < s.inBytes) : checkIn s = Run.raise .capacity := by
  simp [checkIn, Nat.not_le.2 h]

theorem checkKey_ok {s : State} (h : keySizeLegal s.keyBytes = true) : checkKey s = Run.ret () := by
  simp [checkKey, h]

theorem checkKey_bad {s : State} (h : keySizeLegal s.keyBytes = false) :
    checkKey s = Run.raise .invalidKeySize := by
  simp [checkKey, h]

/-- Everything the completion step can do (R403, R410, R411, R78, R431). -/
theorem conclude_cases (s : State) (x : Reach Result) :
    (∃ r e, x = .done r e ∧ r.bytes.length ≤ s.platform.outCap ∧
      conclude s x = completeOk r.bytes r.hdr { s with entropy := e }) ∨
    (∃ r e, x = .done r e ∧ s.platform.outCap < r.bytes.length ∧
      conclude s x = completeErr .capacity { s with entropy := e }) ∨
    (∃ err e, x = .raised err e ∧ conclude s x = completeErr err { s with entropy := e }) ∨
    (x = .unwritten ∧ conclude s x = s.addFault .unwrittenOperand) ∨
    (x = .waiting ∧ conclude s x = s) := by
  cases x with
  | done r e =>
    by_cases h : r.bytes.length ≤ s.platform.outCap
    · exact .inl ⟨r, e, rfl, h, by simp [conclude, h]⟩
    · exact .inr (.inl ⟨r, e, rfl, by omega, by simp [conclude, h]⟩)
  | raised err e => exact .inr (.inr (.inl ⟨err, e, rfl, rfl⟩))
  | unwritten => exact .inr (.inr (.inr (.inl ⟨rfl, rfl⟩)))
  | waiting => exact .inr (.inr (.inr (.inr ⟨rfl, rfl⟩)))

theorem runRule_done {rule : Run Result} {s : State} {r : Result} {e : Bytes}
    (h : rule s.entropy = .done r e) (hfit : r.bytes.length ≤ s.platform.outCap) :
    runRule rule s = .next (completeOk r.bytes r.hdr { s with entropy := e }) := by
  simp [runRule, h, conclude, hfit]

theorem runRule_raised {rule : Run Result} {s : State} {err : Err} {e : Bytes}
    (h : rule s.entropy = .raised err e) :
    runRule rule s = .next (completeErr err { s with entropy := e }) := by
  simp [runRule, h, conclude]

theorem runRule_unwritten {rule : Run Result} {s : State} (h : rule s.entropy = .unwritten) :
    runRule rule s = .next (s.addFault .unwrittenOperand) := by
  simp [runRule, h, conclude]

theorem runRule_waiting {rule : Run Result} {s : State} (h : rule s.entropy = .waiting) :
    runRule rule s = .next s := by
  simp [runRule, h, conclude]

end Sys2Proof.Machine
end

