-- ==== Sys2Proof/Laws/State.lean ====
section
/-! SUPPORT. One lemma per field per update of the state, so that no later proof unfolds a record update. -/

namespace Sys2Proof.Machine

variable (s : State)

/-! ### Adding a FAULT reason -/

@[simp] theorem addFault_platform (f : Fault) : (s.addFault f).platform = s.platform := rfl
@[simp] theorem addFault_cmd (f : Fault) : (s.addFault f).cmd = s.cmd := rfl
@[simp] theorem addFault_phase (f : Fault) : (s.addFault f).phase = s.phase := rfl
@[simp] theorem addFault_done (f : Fault) : (s.addFault f).done = s.done := rfl
@[simp] theorem addFault_hdr (f : Fault) : (s.addFault f).hdr = s.hdr := rfl
@[simp] theorem addFault_errcode (f : Fault) : (s.addFault f).errcode = s.errcode := rfl
@[simp] theorem addFault_keylen (f : Fault) : (s.addFault f).keylen = s.keylen := rfl
@[simp] theorem addFault_ivlen (f : Fault) : (s.addFault f).ivlen = s.ivlen := rfl
@[simp] theorem addFault_blksz (f : Fault) : (s.addFault f).blksz = s.blksz := rfl
@[simp] theorem addFault_inlenLo (f : Fault) : (s.addFault f).inlenLo = s.inlenLo := rfl
@[simp] theorem addFault_inlenHi (f : Fault) : (s.addFault f).inlenHi = s.inlenHi := rfl
@[simp] theorem addFault_outlenLo (f : Fault) : (s.addFault f).outlenLo = s.outlenLo := rfl
@[simp] theorem addFault_outlenHi (f : Fault) : (s.addFault f).outlenHi = s.outlenHi := rfl
@[simp] theorem addFault_key (f : Fault) : (s.addFault f).key = s.key := rfl
@[simp] theorem addFault_iv (f : Fault) : (s.addFault f).iv = s.iv := rfl
@[simp] theorem addFault_salt (f : Fault) : (s.addFault f).salt = s.salt := rfl
@[simp] theorem addFault_inp (f : Fault) : (s.addFault f).inp = s.inp := rfl
@[simp] theorem addFault_out (f : Fault) : (s.addFault f).out = s.out := rfl
@[simp] theorem addFault_faults (f : Fault) : (s.addFault f).faults = s.faults.add f := rfl
@[simp] theorem addFault_entropy (f : Fault) : (s.addFault f).entropy = s.entropy := rfl
@[simp] theorem addFault_returned (f : Fault) : (s.addFault f).returned = s.returned := rfl
@[simp] theorem addFault_agenda (f : Fault) : (s.addFault f).agenda = s.agenda := rfl

/-! ### A host protocol fault -/

@[simp] theorem hostFault_platform (f : Fault) : (hostFault f s).platform = s.platform := rfl
@[simp] theorem hostFault_cmd (f : Fault) : (hostFault f s).cmd = s.cmd := rfl
@[simp] theorem hostFault_phase (f : Fault) : (hostFault f s).phase = s.phase := rfl
@[simp] theorem hostFault_done (f : Fault) : (hostFault f s).done = s.done := rfl
@[simp] theorem hostFault_hdr (f : Fault) : (hostFault f s).hdr = s.hdr := rfl
@[simp] theorem hostFault_errcode (f : Fault) : (hostFault f s).errcode = s.errcode := rfl
@[simp] theorem hostFault_keylen (f : Fault) : (hostFault f s).keylen = s.keylen := rfl
@[simp] theorem hostFault_ivlen (f : Fault) : (hostFault f s).ivlen = s.ivlen := rfl
@[simp] theorem hostFault_blksz (f : Fault) : (hostFault f s).blksz = s.blksz := rfl
@[simp] theorem hostFault_inlenLo (f : Fault) : (hostFault f s).inlenLo = s.inlenLo := rfl
@[simp] theorem hostFault_inlenHi (f : Fault) : (hostFault f s).inlenHi = s.inlenHi := rfl
@[simp] theorem hostFault_outlenLo (f : Fault) : (hostFault f s).outlenLo = s.outlenLo := rfl
@[simp] theorem hostFault_outlenHi (f : Fault) : (hostFault f s).outlenHi = s.outlenHi := rfl
@[simp] theorem hostFault_key (f : Fault) : (hostFault f s).key = s.key := rfl
@[simp] theorem hostFault_iv (f : Fault) : (hostFault f s).iv = s.iv := rfl
@[simp] theorem hostFault_salt (f : Fault) : (hostFault f s).salt = s.salt := rfl
@[simp] theorem hostFault_inp (f : Fault) : (hostFault f s).inp = s.inp := rfl
@[simp] theorem hostFault_out (f : Fault) : (hostFault f s).out = s.out := rfl
@[simp] theorem hostFault_faults (f : Fault) : (hostFault f s).faults = s.faults.add f := rfl
@[simp] theorem hostFault_entropy (f : Fault) : (hostFault f s).entropy = s.entropy := rfl
@[simp] theorem hostFault_returned (f : Fault) : (hostFault f s).returned = .nothing := rfl
@[simp] theorem hostFault_agenda (f : Fault) : (hostFault f s).agenda = s.agenda := rfl

/-! ### Writing OUTLEN -/

@[simp] theorem setOutlen_platform (n : BitVec 64) : (s.setOutlen n).platform = s.platform := rfl
@[simp] theorem setOutlen_cmd (n : BitVec 64) : (s.setOutlen n).cmd = s.cmd := rfl
@[simp] theorem setOutlen_phase (n : BitVec 64) : (s.setOutlen n).phase = s.phase := rfl
@[simp] theorem setOutlen_done (n : BitVec 64) : (s.setOutlen n).done = s.done := rfl
@[simp] theorem setOutlen_hdr (n : BitVec 64) : (s.setOutlen n).hdr = s.hdr := rfl
@[simp] theorem setOutlen_errcode (n : BitVec 64) : (s.setOutlen n).errcode = s.errcode := rfl
@[simp] theorem setOutlen_keylen (n : BitVec 64) : (s.setOutlen n).keylen = s.keylen := rfl
@[simp] theorem setOutlen_ivlen (n : BitVec 64) : (s.setOutlen n).ivlen = s.ivlen := rfl
@[simp] theorem setOutlen_blksz (n : BitVec 64) : (s.setOutlen n).blksz = s.blksz := rfl
@[simp] theorem setOutlen_inlenLo (n : BitVec 64) : (s.setOutlen n).inlenLo = s.inlenLo := rfl
@[simp] theorem setOutlen_inlenHi (n : BitVec 64) : (s.setOutlen n).inlenHi = s.inlenHi := rfl
@[simp] theorem setOutlen_outlenLo (n : BitVec 64) : (s.setOutlen n).outlenLo = n.extractLsb' 0 32 := rfl
@[simp] theorem setOutlen_outlenHi (n : BitVec 64) : (s.setOutlen n).outlenHi = n.extractLsb' 32 32 := rfl
@[simp] theorem setOutlen_key (n : BitVec 64) : (s.setOutlen n).key = s.key := rfl
@[simp] theorem setOutlen_iv (n : BitVec 64) : (s.setOutlen n).iv = s.iv := rfl
@[simp] theorem setOutlen_salt (n : BitVec 64) : (s.setOutlen n).salt = s.salt := rfl
@[simp] theorem setOutlen_inp (n : BitVec 64) : (s.setOutlen n).inp = s.inp := rfl
@[simp] theorem setOutlen_out (n : BitVec 64) : (s.setOutlen n).out = s.out := rfl
@[simp] theorem setOutlen_faults (n : BitVec 64) : (s.setOutlen n).faults = s.faults := rfl
@[simp] theorem setOutlen_entropy (n : BitVec 64) : (s.setOutlen n).entropy = s.entropy := rfl
@[simp] theorem setOutlen_returned (n : BitVec 64) : (s.setOutlen n).returned = s.returned := rfl
@[simp] theorem setOutlen_agenda (n : BitVec 64) : (s.setOutlen n).agenda = s.agenda := rfl

/-! ### Issue -/

@[simp] theorem issue_platform (w : Word) : (issue w s).platform = s.platform := rfl
@[simp] theorem issue_cmd (w : Word) : (issue w s).cmd = w := rfl
@[simp] theorem issue_phase (w : Word) : (issue w s).phase = .busy ⟨w, s.keylen, s.ivlen, s.blksz, s.inlen⟩ := rfl
@[simp] theorem issue_done (w : Word) : (issue w s).done = false := rfl
@[simp] theorem issue_hdr (w : Word) : (issue w s).hdr = false := rfl
@[simp] theorem issue_errcode (w : Word) : (issue w s).errcode = 0#4 := rfl
@[simp] theorem issue_keylen (w : Word) : (issue w s).keylen = s.keylen := rfl
@[simp] theorem issue_ivlen (w : Word) : (issue w s).ivlen = s.ivlen := rfl
@[simp] theorem issue_blksz (w : Word) : (issue w s).blksz = s.blksz := rfl
@[simp] theorem issue_inlenLo (w : Word) : (issue w s).inlenLo = s.inlenLo := rfl
@[simp] theorem issue_inlenHi (w : Word) : (issue w s).inlenHi = s.inlenHi := rfl
@[simp] theorem issue_outlenLo (w : Word) : (issue w s).outlenLo = s.outlenLo := rfl
@[simp] theorem issue_outlenHi (w : Word) : (issue w s).outlenHi = s.outlenHi := rfl
@[simp] theorem issue_key (w : Word) : (issue w s).key = s.key := rfl
@[simp] theorem issue_iv (w : Word) : (issue w s).iv = s.iv := rfl
@[simp] theorem issue_salt (w : Word) : (issue w s).salt = s.salt := rfl
@[simp] theorem issue_inp (w : Word) : (issue w s).inp = s.inp := rfl
@[simp] theorem issue_out (w : Word) : (issue w s).out = s.out := rfl
@[simp] theorem issue_faults (w : Word) : (issue w s).faults = s.faults := rfl
@[simp] theorem issue_entropy (w : Word) : (issue w s).entropy = s.entropy := rfl
@[simp] theorem issue_returned (w : Word) : (issue w s).returned = s.returned := rfl
@[simp] theorem issue_agenda (w : Word) : (issue w s).agenda = s.agenda := rfl

/-! ### Successful completion -/

@[simp] theorem completeOk_platform (r : Bytes) (h : Bool) : (completeOk r h s).platform = s.platform := rfl
@[simp] theorem completeOk_cmd (r : Bytes) (h : Bool) : (completeOk r h s).cmd = s.cmd := rfl
@[simp] theorem completeOk_phase (r : Bytes) (h : Bool) : (completeOk r h s).phase = .idle := rfl
@[simp] theorem completeOk_done (r : Bytes) (h : Bool) : (completeOk r h s).done = true := rfl
@[simp] theorem completeOk_hdr (r : Bytes) (h : Bool) : (completeOk r h s).hdr = h := rfl
@[simp] theorem completeOk_errcode (r : Bytes) (h : Bool) : (completeOk r h s).errcode = 0#4 := rfl
@[simp] theorem completeOk_keylen (r : Bytes) (h : Bool) : (completeOk r h s).keylen = s.keylen := rfl
@[simp] theorem completeOk_ivlen (r : Bytes) (h : Bool) : (completeOk r h s).ivlen = s.ivlen := rfl
@[simp] theorem completeOk_blksz (r : Bytes) (h : Bool) : (completeOk r h s).blksz = s.blksz := rfl
@[simp] theorem completeOk_inlenLo (r : Bytes) (h : Bool) : (completeOk r h s).inlenLo = s.inlenLo := rfl
@[simp] theorem completeOk_inlenHi (r : Bytes) (h : Bool) : (completeOk r h s).inlenHi = s.inlenHi := rfl
@[simp] theorem completeOk_outlenLo (r : Bytes) (h : Bool) : (completeOk r h s).outlenLo = (BitVec.ofNat 64 r.length).extractLsb' 0 32 := rfl
@[simp] theorem completeOk_outlenHi (r : Bytes) (h : Bool) : (completeOk r h s).outlenHi = (BitVec.ofNat 64 r.length).extractLsb' 32 32 := rfl
@[simp] theorem completeOk_key (r : Bytes) (h : Bool) : (completeOk r h s).key = s.key := rfl
@[simp] theorem completeOk_iv (r : Bytes) (h : Bool) : (completeOk r h s).iv = s.iv := rfl
@[simp] theorem completeOk_salt (r : Bytes) (h : Bool) : (completeOk r h s).salt = s.salt := rfl
@[simp] theorem completeOk_inp (r : Bytes) (h : Bool) : (completeOk r h s).inp = s.inp := rfl
@[simp] theorem completeOk_out (r : Bytes) (h : Bool) : (completeOk r h s).out = s.out.writeRange 0 r := rfl
@[simp] theorem completeOk_faults (r : Bytes) (h : Bool) : (completeOk r h s).faults = s.faults := rfl
@[simp] theorem completeOk_entropy (r : Bytes) (h : Bool) : (completeOk r h s).entropy = s.entropy := rfl
@[simp] theorem completeOk_returned (r : Bytes) (h : Bool) : (completeOk r h s).returned = s.returned := rfl
@[simp] theorem completeOk_agenda (r : Bytes) (h : Bool) : (completeOk r h s).agenda = s.agenda := rfl

/-! ### Error completion -/

@[simp] theorem completeErr_platform (e : Err) : (completeErr e s).platform = s.platform := rfl
@[simp] theorem completeErr_cmd (e : Err) : (completeErr e s).cmd = s.cmd := rfl
@[simp] theorem completeErr_phase (e : Err) : (completeErr e s).phase = .idle := rfl
@[simp] theorem completeErr_done (e : Err) : (completeErr e s).done = true := rfl
@[simp] theorem completeErr_hdr (e : Err) : (completeErr e s).hdr = false := rfl
@[simp] theorem completeErr_errcode (e : Err) : (completeErr e s).errcode = errCode e := rfl
@[simp] theorem completeErr_keylen (e : Err) : (completeErr e s).keylen = s.keylen := rfl
@[simp] theorem completeErr_ivlen (e : Err) : (completeErr e s).ivlen = s.ivlen := rfl
@[simp] theorem completeErr_blksz (e : Err) : (completeErr e s).blksz = s.blksz := rfl
@[simp] theorem completeErr_inlenLo (e : Err) : (completeErr e s).inlenLo = s.inlenLo := rfl
@[simp] theorem completeErr_inlenHi (e : Err) : (completeErr e s).inlenHi = s.inlenHi := rfl
@[simp] theorem completeErr_outlenLo (e : Err) : (completeErr e s).outlenLo = 0#32 := rfl
@[simp] theorem completeErr_outlenHi (e : Err) : (completeErr e s).outlenHi = 0#32 := rfl
@[simp] theorem completeErr_key (e : Err) : (completeErr e s).key = s.key := rfl
@[simp] theorem completeErr_iv (e : Err) : (completeErr e s).iv = s.iv := rfl
@[simp] theorem completeErr_salt (e : Err) : (completeErr e s).salt = s.salt := rfl
@[simp] theorem completeErr_inp (e : Err) : (completeErr e s).inp = s.inp := rfl
@[simp] theorem completeErr_out (e : Err) : (completeErr e s).out = s.out := rfl
@[simp] theorem completeErr_faults (e : Err) : (completeErr e s).faults = s.faults := rfl
@[simp] theorem completeErr_entropy (e : Err) : (completeErr e s).entropy = s.entropy := rfl
@[simp] theorem completeErr_returned (e : Err) : (completeErr e s).returned = s.returned := rfl
@[simp] theorem completeErr_agenda (e : Err) : (completeErr e s).agenda = s.agenda := rfl

/-! ### An entropy answer -/

@[simp] theorem entropyStep_platform (bs : Bytes) : (entropyStep bs s).platform = s.platform := rfl
@[simp] theorem entropyStep_cmd (bs : Bytes) : (entropyStep bs s).cmd = s.cmd := rfl
@[simp] theorem entropyStep_phase (bs : Bytes) : (entropyStep bs s).phase = s.phase := rfl
@[simp] theorem entropyStep_done (bs : Bytes) : (entropyStep bs s).done = s.done := rfl
@[simp] theorem entropyStep_hdr (bs : Bytes) : (entropyStep bs s).hdr = s.hdr := rfl
@[simp] theorem entropyStep_errcode (bs : Bytes) : (entropyStep bs s).errcode = s.errcode := rfl
@[simp] theorem entropyStep_keylen (bs : Bytes) : (entropyStep bs s).keylen = s.keylen := rfl
@[simp] theorem entropyStep_ivlen (bs : Bytes) : (entropyStep bs s).ivlen = s.ivlen := rfl
@[simp] theorem entropyStep_blksz (bs : Bytes) : (entropyStep bs s).blksz = s.blksz := rfl
@[simp] theorem entropyStep_inlenLo (bs : Bytes) : (entropyStep bs s).inlenLo = s.inlenLo := rfl
@[simp] theorem entropyStep_inlenHi (bs : Bytes) : (entropyStep bs s).inlenHi = s.inlenHi := rfl
@[simp] theorem entropyStep_outlenLo (bs : Bytes) : (entropyStep bs s).outlenLo = s.outlenLo := rfl
@[simp] theorem entropyStep_outlenHi (bs : Bytes) : (entropyStep bs s).outlenHi = s.outlenHi := rfl
@[simp] theorem entropyStep_key (bs : Bytes) : (entropyStep bs s).key = s.key := rfl
@[simp] theorem entropyStep_iv (bs : Bytes) : (entropyStep bs s).iv = s.iv := rfl
@[simp] theorem entropyStep_salt (bs : Bytes) : (entropyStep bs s).salt = s.salt := rfl
@[simp] theorem entropyStep_inp (bs : Bytes) : (entropyStep bs s).inp = s.inp := rfl
@[simp] theorem entropyStep_out (bs : Bytes) : (entropyStep bs s).out = s.out := rfl
@[simp] theorem entropyStep_faults (bs : Bytes) : (entropyStep bs s).faults = s.faults := rfl
@[simp] theorem entropyStep_entropy (bs : Bytes) : (entropyStep bs s).entropy = s.entropy ++ bs := rfl
@[simp] theorem entropyStep_returned (bs : Bytes) : (entropyStep bs s).returned = s.returned := rfl
@[simp] theorem entropyStep_agenda (bs : Bytes) : (entropyStep bs s).agenda = s.agenda := rfl

/-! ### Reset -/

@[simp] theorem resetStep_platform : (resetStep s).platform = s.platform := rfl
@[simp] theorem resetStep_cmd : (resetStep s).cmd = 0#32 := rfl
@[simp] theorem resetStep_phase : (resetStep s).phase = .idle := rfl
@[simp] theorem resetStep_done : (resetStep s).done = false := rfl
@[simp] theorem resetStep_hdr : (resetStep s).hdr = false := rfl
@[simp] theorem resetStep_errcode : (resetStep s).errcode = 0#4 := rfl
@[simp] theorem resetStep_keylen : (resetStep s).keylen = 0#6 := rfl
@[simp] theorem resetStep_ivlen : (resetStep s).ivlen = 0#5 := rfl
@[simp] theorem resetStep_blksz : (resetStep s).blksz = 0#9 := rfl
@[simp] theorem resetStep_inlenLo : (resetStep s).inlenLo = 0#32 := rfl
@[simp] theorem resetStep_inlenHi : (resetStep s).inlenHi = 0#32 := rfl
@[simp] theorem resetStep_outlenLo : (resetStep s).outlenLo = 0#32 := rfl
@[simp] theorem resetStep_outlenHi : (resetStep s).outlenHi = 0#32 := rfl
@[simp] theorem resetStep_key : (resetStep s).key = [] := rfl
@[simp] theorem resetStep_iv : (resetStep s).iv = [] := rfl
@[simp] theorem resetStep_salt : (resetStep s).salt = [] := rfl
@[simp] theorem resetStep_inp : (resetStep s).inp = [] := rfl
@[simp] theorem resetStep_out : (resetStep s).out = [] := rfl
@[simp] theorem resetStep_faults : (resetStep s).faults = FaultSet.empty := rfl
@[simp] theorem resetStep_entropy : (resetStep s).entropy = s.entropy := rfl
@[simp] theorem resetStep_returned : (resetStep s).returned = .nothing := rfl
@[simp] theorem resetStep_agenda : (resetStep s).agenda = s.agenda := rfl

/-! ### Replacing a buffer -/

@[simp] theorem setBuffer_platform (sp : Space) (m : Memory) : (s.setBuffer sp m).platform = s.platform := by
  cases sp <;> rfl
@[simp] theorem setBuffer_cmd (sp : Space) (m : Memory) : (s.setBuffer sp m).cmd = s.cmd := by
  cases sp <;> rfl
@[simp] theorem setBuffer_phase (sp : Space) (m : Memory) : (s.setBuffer sp m).phase = s.phase := by
  cases sp <;> rfl
@[simp] theorem setBuffer_done (sp : Space) (m : Memory) : (s.setBuffer sp m).done = s.done := by
  cases sp <;> rfl
@[simp] theorem setBuffer_hdr (sp : Space) (m : Memory) : (s.setBuffer sp m).hdr = s.hdr := by
  cases sp <;> rfl
@[simp] theorem setBuffer_errcode (sp : Space) (m : Memory) : (s.setBuffer sp m).errcode = s.errcode := by
  cases sp <;> rfl
@[simp] theorem setBuffer_keylen (sp : Space) (m : Memory) : (s.setBuffer sp m).keylen = s.keylen := by
  cases sp <;> rfl
@[simp] theorem setBuffer_ivlen (sp : Space) (m : Memory) : (s.setBuffer sp m).ivlen = s.ivlen := by
  cases sp <;> rfl
@[simp] theorem setBuffer_blksz (sp : Space) (m : Memory) : (s.setBuffer sp m).blksz = s.blksz := by
  cases sp <;> rfl
@[simp] theorem setBuffer_inlenLo (sp : Space) (m : Memory) : (s.setBuffer sp m).inlenLo = s.inlenLo := by
  cases sp <;> rfl
@[simp] theorem setBuffer_inlenHi (sp : Space) (m : Memory) : (s.setBuffer sp m).inlenHi = s.inlenHi := by
  cases sp <;> rfl
@[simp] theorem setBuffer_outlenLo (sp : Space) (m : Memory) : (s.setBuffer sp m).outlenLo = s.outlenLo := by
  cases sp <;> rfl
@[simp] theorem setBuffer_outlenHi (sp : Space) (m : Memory) : (s.setBuffer sp m).outlenHi = s.outlenHi := by
  cases sp <;> rfl
@[simp] theorem setBuffer_faults (sp : Space) (m : Memory) : (s.setBuffer sp m).faults = s.faults := by
  cases sp <;> rfl
@[simp] theorem setBuffer_entropy (sp : Space) (m : Memory) : (s.setBuffer sp m).entropy = s.entropy := by
  cases sp <;> rfl
@[simp] theorem setBuffer_returned (sp : Space) (m : Memory) : (s.setBuffer sp m).returned = s.returned := by
  cases sp <;> rfl
@[simp] theorem setBuffer_agenda (sp : Space) (m : Memory) : (s.setBuffer sp m).agenda = s.agenda := by
  cases sp <;> rfl

@[simp] theorem setBuffer_buffer_same (sp : Space) (m : Memory) : (s.setBuffer sp m).buffer sp = m := by
  cases sp <;> rfl

theorem setBuffer_buffer_other {sp sp' : Space} (m : Memory) (h : sp' ≠ sp) :
    (s.setBuffer sp m).buffer sp' = s.buffer sp' := by
  cases sp <;> cases sp' <;> first | rfl | exact absurd rfl h

/-! ### 64-bit lengths and the phase -/

@[simp] theorem outlen_setOutlen (n : BitVec 64) : (s.setOutlen n).outlen = n := by
  simp only [State.outlen, setOutlen_outlenHi, setOutlen_outlenLo]
  ext i hi
  simp only [BitVec.getElem_append, BitVec.getElem_extractLsb']
  split
  · simp [BitVec.getLsbD_eq_getElem hi]
  · rw [show 32 + (i - 32) = i by omega, BitVec.getLsbD_eq_getElem hi]

@[simp] theorem outlen_completeOk (r : Bytes) (h : Bool) :
    (completeOk r h s).outlen = BitVec.ofNat 64 r.length :=
  outlen_setOutlen { s with out := s.out.writeRange 0 r } _

@[simp] theorem outlen_completeErr (e : Err) : (completeErr e s).outlen = 0#64 := outlen_setOutlen s _

@[simp] theorem outlen_issue (w : Word) : (issue w s).outlen = s.outlen := rfl

@[simp] theorem isBusy_issue (w : Word) : (issue w s).isBusy = true := rfl

@[simp] theorem isBusy_completeOk (r : Bytes) (h : Bool) : (completeOk r h s).isBusy = false := rfl

@[simp] theorem isBusy_completeErr (e : Err) : (completeErr e s).isBusy = false := rfl

@[simp] theorem operands_issue (w : Word) :
    (issue w s).operands = ⟨w, s.keylen, s.ivlen, s.blksz, s.inlen⟩ := rfl

theorem isBusy_iff : s.isBusy = true ↔ ∃ op, s.phase = .busy op := by
  unfold State.isBusy
  cases s.phase <;> simp

theorem not_isBusy_iff : s.isBusy = false ↔ s.phase = .idle := by
  unfold State.isBusy
  cases s.phase <;> simp

/-! ### A host write of a register -/

/-- A register write stores in one of five fields, or in none. -/
theorem writeReg_eq (off : Nat) (v : Word) : ∃ k n b lo hi, writeReg s off v =
    { s with keylen := k, ivlen := n, blksz := b, inlenLo := lo, inlenHi := hi } := by
  unfold writeReg
  split <;> exact ⟨_, _, _, _, _, rfl⟩

@[simp] theorem writeReg_platform (off : Nat) (v : Word) : (writeReg s off v).platform = s.platform := by
  unfold writeReg
  split <;> rfl
@[simp] theorem writeReg_cmd (off : Nat) (v : Word) : (writeReg s off v).cmd = s.cmd := by
  unfold writeReg
  split <;> rfl
@[simp] theorem writeReg_phase (off : Nat) (v : Word) : (writeReg s off v).phase = s.phase := by
  unfold writeReg
  split <;> rfl
@[simp] theorem writeReg_done (off : Nat) (v : Word) : (writeReg s off v).done = s.done := by
  unfold writeReg
  split <;> rfl
@[simp] theorem writeReg_hdr (off : Nat) (v : Word) : (writeReg s off v).hdr = s.hdr := by
  unfold writeReg
  split <;> rfl
@[simp] theorem writeReg_errcode (off : Nat) (v : Word) : (writeReg s off v).errcode = s.errcode := by
  unfold writeReg
  split <;> rfl
@[simp] theorem writeReg_outlenLo (off : Nat) (v : Word) : (writeReg s off v).outlenLo = s.outlenLo := by
  unfold writeReg
  split <;> rfl
@[simp] theorem writeReg_outlenHi (off : Nat) (v : Word) : (writeReg s off v).outlenHi = s.outlenHi := by
  unfold writeReg
  split <;> rfl
@[simp] theorem writeReg_key (off : Nat) (v : Word) : (writeReg s off v).key = s.key := by
  unfold writeReg
  split <;> rfl
@[simp] theorem writeReg_iv (off : Nat) (v : Word) : (writeReg s off v).iv = s.iv := by
  unfold writeReg
  split <;> rfl
@[simp] theorem writeReg_salt (off : Nat) (v : Word) : (writeReg s off v).salt = s.salt := by
  unfold writeReg
  split <;> rfl
@[simp] theorem writeReg_inp (off : Nat) (v : Word) : (writeReg s off v).inp = s.inp := by
  unfold writeReg
  split <;> rfl
@[simp] theorem writeReg_out (off : Nat) (v : Word) : (writeReg s off v).out = s.out := by
  unfold writeReg
  split <;> rfl
@[simp] theorem writeReg_faults (off : Nat) (v : Word) : (writeReg s off v).faults = s.faults := by
  unfold writeReg
  split <;> rfl
@[simp] theorem writeReg_entropy (off : Nat) (v : Word) : (writeReg s off v).entropy = s.entropy := by
  unfold writeReg
  split <;> rfl
@[simp] theorem writeReg_returned (off : Nat) (v : Word) : (writeReg s off v).returned = s.returned := by
  unfold writeReg
  split <;> rfl
@[simp] theorem writeReg_agenda (off : Nat) (v : Word) : (writeReg s off v).agenda = s.agenda := by
  unfold writeReg
  split <;> rfl

/-! ### The halves of a 64-bit register -/

theorem extract_low (h l : Word) : (h ++ l).extractLsb' 0 32 = l := by
  ext i hi
  rw [BitVec.getElem_extractLsb', BitVec.getLsbD_append]
  simp only [show (0 + i < 32) = True by simp [hi], if_true]
  rw [Nat.zero_add, BitVec.getLsbD_eq_getElem hi]

theorem extract_high (h l : Word) : (h ++ l).extractLsb' 32 32 = h := by
  ext i hi
  rw [BitVec.getElem_extractLsb', BitVec.getLsbD_append]
  simp only [show (32 + i < 32) = False by simp, if_false]
  rw [Nat.add_sub_cancel_left, BitVec.getLsbD_eq_getElem hi]

/-! ### The FAULT record -/

theorem add_has (fs : FaultSet) (f g : Fault) : (fs.add f).has g = (decide (f = g) || fs.has g) := by
  cases f <;> cases g <;> simp [FaultSet.add, FaultSet.has]

end Sys2Proof.Machine
end

