-- ==== Sys2Proof/Laws/Exec.lean ====
section
/-! SUPPORT. What a command's completion step, the engine's step and a step of the machine can do, each said
once; later proofs cite these and unfold neither `exec` nor `step`. -/

namespace Sys2Proof.Machine

/-- The meaning of every command runs its rule. -/
theorem exec_eq_runRule (i : Instr) (s : State) : exec i s = runRule (ruleOf i s) s := by
  cases i <;> rfl

/-- Every command answers a next state, the one its rule concludes with. -/
theorem exec_eq_next (i : Instr) (s : State) : exec i s = .next (conclude s (ruleOf i s s.entropy)) :=
  exec_eq_runRule i s

/-- Everything a command can do: complete with its result, fail, stick on an unwritten byte, or wait. -/
theorem exec_cases {i : Instr} {s t : State} (h : exec i s = .next t) :
    (∃ r e, ruleOf i s s.entropy = .done r e ∧ r.bytes.length ≤ s.platform.outCap ∧
      t = completeOk r.bytes r.hdr { s with entropy := e }) ∨
    (∃ r e, ruleOf i s s.entropy = .done r e ∧ s.platform.outCap < r.bytes.length ∧
      t = completeErr .capacity { s with entropy := e }) ∨
    (∃ err e, ruleOf i s s.entropy = .raised err e ∧ t = completeErr err { s with entropy := e }) ∨
    (ruleOf i s s.entropy = .unwritten ∧ t = s.addFault .unwrittenOperand) ∨
    (ruleOf i s s.entropy = .waiting ∧ t = s) := by
  rw [exec_eq_next] at h
  injection h with h
  subst h
  exact conclude_cases s _

/-- Everything the engine's step can do. -/
theorem engineStep_cases {s t : State} (h : engineStep s = .next t) :
    (s.phase = .idle ∧ t = s) ∨
    (∃ op i, s.phase = .busy op ∧ decode op.cmd = .ok i ∧ exec i s = .next t) ∨
    (∃ op e, s.phase = .busy op ∧ decode op.cmd = .error e ∧ t = completeErr e s) := by
  unfold engineStep at h
  split at h
  · next hp =>
    injection h with h
    exact .inl ⟨hp, h.symm⟩
  · next op hp =>
    split at h
    · next i hd => exact .inr (.inl ⟨op, i, hp, hd, h⟩)
    · next e hd =>
      injection h with h
      exact .inr (.inr ⟨op, e, hp, hd, h.symm⟩)

/-- Everything a step can do. -/
theorem step_cases {s t : State} (h : step s = .next t) :
    (s.agenda = [] ∧ engineStep s = .next t) ∨
    (∃ rest, s.agenda = .engine :: rest ∧ engineStep { s with agenda := rest } = .next t) ∨
    (∃ a rest, s.agenda = .host a :: rest ∧ t = hostStep a { s with agenda := rest }) ∨
    (∃ bs rest, s.agenda = .entropy bs :: rest ∧ t = entropyStep bs { s with agenda := rest }) ∨
    (∃ rest, s.agenda = .reset :: rest ∧ t = resetStep { s with agenda := rest }) := by
  unfold step at h
  split at h
  · next ha => exact .inl ⟨ha, h⟩
  · next rest ha => exact .inr (.inl ⟨rest, ha, h⟩)
  · next a rest ha =>
    injection h with h
    exact .inr (.inr (.inl ⟨a, rest, ha, h.symm⟩))
  · next bs rest ha =>
    injection h with h
    exact .inr (.inr (.inr (.inl ⟨bs, rest, ha, h.symm⟩)))
  · next rest ha =>
    injection h with h
    exact .inr (.inr (.inr (.inr ⟨rest, ha, h.symm⟩)))

/-- The engine's step always answers a next state. -/
theorem engineStep_next (s : State) : ∃ t, engineStep s = .next t := by
  unfold engineStep
  split
  · exact ⟨_, rfl⟩
  · split
    · exact ⟨_, exec_eq_next _ _⟩
    · exact ⟨_, rfl⟩

/-- Everything a host access can do: record one fault, or two (R77 and R461 together), return a value, issue, store in a register, or store a
byte. -/
theorem hostStep_cases (a : Access) (s : State) :
    (∃ f, hostStep a s = hostFault f s) ∨
    (∃ f g, hostStep a s = hostFault f (s.addFault g)) ∨
    (∃ v, hostStep a s = { s with returned := v }) ∨
    (∃ w, a = .ctrlWrite 32 0x00 w ∧ s.isBusy = false ∧
      hostStep a s = issue w { s with returned := .nothing }) ∨
    (∃ off v, s.isBusy = false ∧ hostStep a s = writeReg { s with returned := .nothing } off v) ∨
    (∃ sp addr b, sp ≠ .out ∧ addr < sp.size s.platform ∧ s.isBusy = false ∧
      hostStep a s =
        State.setBuffer { s with returned := .nothing } sp ((s.buffer sp).write addr b)) := by
  cases a with
  | ctrlRead width off =>
    simp only [hostStep, hostCtrlRead]
    split
    · exact .inl ⟨_, rfl⟩
    · split
      · exact .inl ⟨_, rfl⟩
      · exact .inr (.inr (.inl ⟨_, rfl⟩))
  | ctrlWrite width off v =>
    simp only [hostStep, hostCtrlWrite]
    split
    · exact .inl ⟨_, rfl⟩
    · next hf =>
      split
      · exact .inl ⟨_, rfl⟩
      · next hb =>
        simp only [Bool.not_eq_true] at hb
        split
        · next h0 =>
          have hw : width = 32 := by
            simp only [ctrlForm, Bool.not_eq_true', Bool.not_eq_false, Bool.and_eq_true, beq_iff_eq] at hf
            exact hf.1.1
          subst h0 hw
          exact .inr (.inr (.inr (.inl ⟨v, rfl, hb, rfl⟩)))
        · exact .inr (.inr (.inr (.inr (.inl ⟨off, v, hb, rfl⟩))))
  | bufRead sp addr =>
    simp only [hostStep, hostBufRead, busyOutRead]
    split
    · exact .inl ⟨_, rfl⟩
    · split
      · split
        · exact .inr (.inl ⟨_, _, rfl⟩)
        · exact .inl ⟨_, rfl⟩
      · split
        · exact .inr (.inr (.inl ⟨_, rfl⟩))
        · exact .inl ⟨_, rfl⟩
  | bufWrite sp addr b =>
    simp only [hostStep, hostBufWrite]
    split
    · exact .inl ⟨_, rfl⟩
    · next hr =>
      split
      · exact .inl ⟨_, rfl⟩
      · next hb =>
        simp only [Bool.or_eq_true, beq_iff_eq, decide_eq_true_eq, not_or, Nat.not_le] at hr
        simp only [Bool.not_eq_true] at hb
        exact .inr (.inr (.inr (.inr (.inr ⟨sp, addr, b, hr.1, hr.2, hb, rfl⟩))))

end Sys2Proof.Machine
end

