-- ==== Sys2Proof/Laws/Commands.lean ====
section
/-! SUPPORT. What a command answers for each way its rule can end, and what the pieces shared by several
commands reach, each said once. -/

namespace Sys2Proof.Machine

/-! ### The rule of a form given by its mode or scheme -/

theorem ruleOf_encryptInstr (m : Mode) (sch : Scheme) (ivp : Bool) (s : State) :
    ruleOf (encryptInstr m sch ivp) s = encryptRule m sch ivp s := by
  cases m <;> rfl

theorem ruleOf_decryptInstr (m : Mode) (sch : Scheme) (ivp : Bool) (s : State) :
    ruleOf (decryptInstr m sch ivp) s = decryptRule m sch ivp s := by
  cases m <;> rfl

theorem ruleOf_padInstr (sch : Scheme) (s : State) : ruleOf (padInstr sch) s = padRule sch s := by
  cases sch <;> rfl

theorem ruleOf_unpadInstr (sch : Scheme) (s : State) : ruleOf (unpadInstr sch) s = unpadRule sch s := by
  cases sch <;> rfl

/-- No rule reads the answers held in the state: a rule takes them as its argument. -/
theorem ruleOf_entropy (i : Instr) (s : State) (answers : Bytes) :
    ruleOf i { s with entropy := answers } = ruleOf i s := by
  cases i <;> rfl

/-! ### How a command ends -/

variable {i : Instr} {s : State} {rest : Bytes}

theorem exec_of_done {r : Bytes} {hdr : Bool} (h : ruleOf i s s.entropy = .done ⟨r, hdr⟩ rest)
    (hfit : r.length ≤ s.platform.outCap) :
    exec i s = .next (completeOk r hdr { s with entropy := rest }) := by
  rw [exec_eq_next, h]
  simp [conclude, hfit]

theorem exec_of_ret {r : Bytes} {hdr : Bool} (h : ruleOf i s = Run.ret ⟨r, hdr⟩)
    (hfit : r.length ≤ s.platform.outCap) : exec i s = .next (completeOk r hdr s) := by
  rw [exec_eq_next, h]
  simp [conclude, hfit]

theorem exec_of_raise {e : Err} (h : ruleOf i s = Run.raise e) : exec i s = .next (completeErr e s) := by
  rw [exec_eq_next, h]
  rfl

theorem exec_of_unwritten (h : ruleOf i s s.entropy = .unwritten) :
    exec i s = .next (s.addFault .unwrittenOperand) := by
  rw [exec_eq_next, h]
  rfl

theorem exec_of_waiting (h : ruleOf i s s.entropy = .waiting) : exec i s = .next s := by
  rw [exec_eq_next, h]
  rfl

/-- The error completion step as one record (R411, R412). -/
theorem completeErr_eq (e : Err) (s : State) :
    completeErr e s = { s with
      phase := .idle, done := true, hdr := false, errcode := errCode e
      outlenLo := 0#32, outlenHi := 0#32 } := by
  simp [completeErr, statusErr, State.setOutlen]

/-! ### Pieces shared by several commands -/

/-- The recognition of a salted input compares its first 8 bytes with MAGIC (R375). -/
theorem recognise_bind {β : Type} {x : Bytes} (hx : s.inp.readRange 0 s.inBytes = some x)
    (f : Bool → Run β) : (recognise s).bind f = f (x.take 8 == magic) := by
  have hl := Memory.readRange_length hx
  unfold recognise
  split
  · have hp := Memory.readRange_part hx (a := 0) (k := 8) (by omega)
    funext e
    simp only [List.drop_zero] at hp
    simp [readIn, Run.bind, Run.read, hp]
  · have hne : (x.take 8 == magic) = false := by
      simp only [beq_eq_false_iff_ne]
      intro h
      have h8 := congrArg List.length h
      rw [List.length_take] at h8
      simp [magic] at h8
      omega
    rw [hne]
    rfl

/-- The explicit IV of the mode's length is what the IV buffer holds (R364). -/
theorem explicitIv_bind {β : Type} {m : Mode} {v : Bytes} (hl : s.ivBytes = ivSize m)
    (hv : s.iv.readRange 0 s.ivBytes = some v) (f : Bytes → Run β) :
    (explicitIv m true s).bind f = f v := by
  funext e
  rw [hl] at hv
  simp [explicitIv, hl, Run.bind, Run.read, hv]

/-- A padding piece that is answered its filler goes on with the padded data (R142, R148). -/
theorem padRun_done {sch : Scheme} {d fill padded : Bytes} {b : Nat}
    (hl : fill.length = fillerLen sch d.length b) (h : pad sch d b fill = .ok padded) :
    padRun sch d b (fill ++ rest) = .done padded rest := by
  unfold pad at h
  cases hc : checkB sch b with
  | error e => simp [hc] at h
  | ok u =>
    simp only [hc] at h
    simp only [padRun, hc, lift_ok, ret_bind]
    rw [draw_bind hl, h]
    rfl

theorem bind_of_done {α β : Type} {x : Run α} {f : α → Run β} {e e' : Bytes} {a : α} (h : x e = .done a e') :
    (x.bind f) e = f a e' := by
  simp [Run.bind, h]

/-- A padding step that goes on uses up its filler (R367, R372). -/
theorem padStep_of_padsOn {m : Mode} {sch : Scheme} {p : Bytes} (h : s.padsOn m sch p) :
    ∃ padded, padStep m sch p s.entropy =
      .done padded (s.entropy.drop (encryptFiller m sch p.length)) := by
  unfold padStep encryptFiller
  by_cases hm : modePads m = true
  · obtain ⟨hl, hn⟩ := h hm
    have hc : checkB sch blk = .ok () := by cases sch <;> rfl
    have hd : Run.draw (fillerLen sch p.length blk) s.entropy =
        .done (s.entropy.take (fillerLen sch p.length 16)) (s.entropy.drop (fillerLen sch p.length 16)) := by
      unfold Run.draw
      rw [if_pos (by exact hl)]
      rfl
    simp only [hm, if_true, padRun, hc, lift_ok, ret_bind]
    rw [bind_of_done hd]
    cases sch with
    | noPad => exact ⟨p, by simp [padWith, hn rfl, blk]⟩
    | pkcs7 | iso9797m2 | ansix923 | iso10126 | zero => exact ⟨_, rfl⟩
  · exact ⟨p, by simp [hm, Run.ret]⟩

/-! ### Answers are used from the front -/

/-- A rule that goes on or fails has used up some number of the first answers (R430). -/
def Drops {α : Type} (x : Run α) : Prop := ∀ e,
  (∀ a e', x e = .done a e' → ∃ n, e' = e.drop n) ∧ (∀ err e', x e = .raised err e' → ∃ n, e' = e.drop n)

variable {α β : Type}

theorem drops_ret (a : α) : Drops (Run.ret a) := fun e =>
  ⟨fun _ _ h => by cases h; exact ⟨0, rfl⟩, fun _ _ h => nomatch h⟩

theorem drops_raise (err : Err) : Drops (Run.raise err : Run α) := fun e =>
  ⟨fun _ _ h => (nomatch h), fun _ _ h => by cases h; exact ⟨0, rfl⟩⟩

theorem drops_check (b : Bool) (err : Err) : Drops (Run.check b err) := by
  cases b
  · exact drops_raise err
  · exact drops_ret ()

theorem drops_lift (x : Except Err α) : Drops (Run.lift x) := by
  cases x
  · exact drops_raise _
  · exact drops_ret _

theorem drops_read (m : Memory) (a n : Nat) : Drops (Run.read m a n) := by
  intro e
  unfold Run.read
  cases m.readRange a n with
  | none => exact ⟨fun _ _ h => (nomatch h), fun _ _ h => (nomatch h)⟩
  | some b => exact drops_ret b e

theorem drops_draw (n : Nat) : Drops (Run.draw n) := by
  intro e
  unfold Run.draw
  split
  · exact ⟨fun _ _ h => by cases h; exact ⟨n, rfl⟩, fun _ _ h => nomatch h⟩
  · exact ⟨fun _ _ h => (nomatch h), fun _ _ h => (nomatch h)⟩

theorem drops_bind {x : Run α} {f : α → Run β} (hx : Drops x) (hf : ∀ a, Drops (f a)) :
    Drops (x.bind f) := by
  intro e
  unfold Run.bind
  cases h : x e with
  | done a e₁ =>
    obtain ⟨n, rfl⟩ := (hx e).1 _ _ h
    refine ⟨fun b e' h => ?_, fun err e' h => ?_⟩
    · obtain ⟨k, rfl⟩ := (hf a _).1 _ _ h
      exact ⟨n + k, by rw [List.drop_drop]⟩
    · obtain ⟨k, rfl⟩ := (hf a _).2 _ _ h
      exact ⟨n + k, by rw [List.drop_drop]⟩
  | raised err e₁ =>
    refine ⟨fun _ _ h => (nomatch h), fun _ _ h' => ?_⟩
    injection h' with _ h'
    exact h' ▸ (hx e).2 _ _ h
  | unwritten => exact ⟨fun _ _ h => (nomatch h), fun _ _ h => (nomatch h)⟩
  | waiting => exact ⟨fun _ _ h => (nomatch h), fun _ _ h => (nomatch h)⟩

theorem drops_ite {c : Prop} [Decidable c] {x y : Run α} (hx : Drops x) (hy : Drops y) :
    Drops (if c then x else y) := by
  split <;> assumption

theorem drops_padRun (sch : Scheme) (d : Bytes) (b : Nat) : Drops (padRun sch d b) :=
  drops_bind (drops_lift _) fun _ => drops_bind (drops_draw _) fun _ => drops_lift _

theorem drops_explicitIv (m : Mode) (ivp : Bool) (s : State) : Drops (explicitIv m ivp s) :=
  drops_bind (drops_check _ _) fun _ => drops_read _ _ _

theorem drops_encryptRule (m : Mode) (sch : Scheme) (ivp : Bool) (s : State) :
    Drops (encryptRule m sch ivp s) :=
  drops_bind (drops_check _ _) fun _ => drops_bind (drops_check _ _) fun _ =>
    drops_bind (drops_read _ _ _) fun _ => drops_bind (drops_read _ _ _) fun _ =>
    drops_bind (drops_ite (drops_padRun _ _ _) (drops_ret _)) fun _ =>
    drops_bind (drops_ite (drops_ret _) (drops_ite (drops_bind (drops_explicitIv _ _ _) fun _ => drops_ret _)
      (drops_bind (drops_draw _) fun _ => drops_ret _))) fun _ =>
    drops_bind (drops_lift _) fun _ => drops_ret _

theorem drops_decryptRule (m : Mode) (sch : Scheme) (ivp : Bool) (s : State) :
    Drops (decryptRule m sch ivp s) :=
  drops_bind (drops_check _ _) fun _ => drops_bind (drops_check _ _) fun _ =>
    drops_bind (drops_read _ _ _) fun _ =>
    drops_bind (drops_ite (drops_bind (drops_read _ _ _) fun _ => drops_ret _) (drops_ret _)) fun _ =>
    drops_bind (drops_ite
      (drops_bind (drops_check _ _) fun _ => drops_bind (drops_read _ _ _) fun _ =>
        drops_bind (drops_read _ _ _) fun _ => drops_ret _)
      (drops_bind (drops_read _ _ _) fun _ =>
        drops_ite (drops_ret _) (drops_bind (drops_explicitIv _ _ _) fun _ => drops_ret _))) fun _ =>
    drops_bind (drops_check _ _) fun _ => drops_bind (drops_lift _) fun _ =>
    drops_bind (drops_lift _) fun _ => drops_ret _

theorem drops_padRule (sch : Scheme) (s : State) : Drops (padRule sch s) :=
  drops_bind (drops_check _ _) fun _ => drops_bind (drops_lift _) fun _ =>
    drops_bind (drops_read _ _ _) fun _ => drops_bind (drops_padRun _ _ _) fun _ => drops_ret _

theorem drops_unpadRule (sch : Scheme) (s : State) : Drops (unpadRule sch s) :=
  drops_bind (drops_check _ _) fun _ => drops_bind (drops_lift _) fun _ =>
    drops_bind (drops_read _ _ _) fun _ => drops_bind (drops_lift _) fun _ => drops_ret _

theorem drops_blockRule (aligned : Nat → Bool) (f : Bytes → Bytes → Bytes) (s : State) :
    Drops (blockRule aligned f s) :=
  drops_bind (drops_check _ _) fun _ => drops_bind (drops_check _ _) fun _ =>
    drops_bind (drops_check _ _) fun _ => drops_bind (drops_read _ _ _) fun _ =>
    drops_bind (drops_read _ _ _) fun _ => drops_ret _

/-- Every command uses its answers from the front. -/
theorem drops_ruleOf (i : Instr) (s : State) : Drops (ruleOf i s) := by
  cases i with
  | derive m =>
    exact drops_bind (drops_check _ _) fun _ => drops_bind (drops_check _ _) fun _ =>
      drops_bind (drops_read _ _ _) fun _ => drops_bind (drops_read _ _ _) fun _ => drops_ret _
  | buildHdr m =>
    exact drops_bind (drops_check _ _) fun _ => drops_bind (drops_read _ _ _) fun _ =>
      drops_bind (drops_draw _) fun _ => drops_ret _
  | parseHdr m =>
    exact drops_bind (drops_check _ _) fun _ => drops_bind (drops_check _ _) fun _ =>
      drops_bind (drops_check _ _) fun _ => drops_bind (drops_read _ _ _) fun _ =>
      drops_bind (drops_read _ _ _) fun _ => drops_ret _
  | encryptCbc | encryptCfb | encryptCtr | encryptOfb | encryptGcm | encryptEcb =>
    exact drops_encryptRule _ _ _ _
  | decryptCbc | decryptCfb | decryptCtr | decryptOfb | decryptGcm | decryptEcb =>
    exact drops_decryptRule _ _ _ _
  | padPkcs7 | padIso9797m2 | padAnsix923 | padIso10126 | padZero | padNone => exact drops_padRule _ _
  | unpadPkcs7 | unpadIso9797m2 | unpadAnsix923 | unpadIso10126 | unpadZero | unpadNone =>
    exact drops_unpadRule _ _
  | ecbEnc | ecbDec | aesEnc | aesDec => exact drops_blockRule _ _ _

end Sys2Proof.Machine
end

