-- ==== Sys2Proof/Laws/PerInstr.lean ====
section
/-! SUPPORT. One statement about every command as syntax, proved constructor by constructor. -/

namespace Sys2Proof.Laws.Encoding

/-- The word of a command passes every check of Decode (30_encoding.md R104 to R109) and matches the row of the
opcode map that its form names (R114). -/
def Statement (i : Instr) : Prop :=
  (fieldsOf (encode i)).wf ∧
    ∃ row ∈ opcodeRows, row.mnemonic = i.form ∧ encode i &&& row.mask = row.pat

theorem encryptCbc (pad : Scheme) (ivp : Bool) : Statement (.encryptCbc pad ivp) := by
  revert ivp
  cases pad <;> (unfold Statement; decide +kernel)

theorem encryptCfb (pad : Scheme) (ivp : Bool) : Statement (.encryptCfb pad ivp) := by
  revert ivp
  cases pad <;> (unfold Statement; decide +kernel)

theorem encryptCtr (pad : Scheme) (ivp : Bool) : Statement (.encryptCtr pad ivp) := by
  revert ivp
  cases pad <;> (unfold Statement; decide +kernel)

theorem encryptOfb (pad : Scheme) (ivp : Bool) : Statement (.encryptOfb pad ivp) := by
  revert ivp
  cases pad <;> (unfold Statement; decide +kernel)

theorem encryptGcm (pad : Scheme) (ivp : Bool) : Statement (.encryptGcm pad ivp) := by
  revert ivp
  cases pad <;> (unfold Statement; decide +kernel)

theorem encryptEcb (pad : Scheme) (ivp : Bool) : Statement (.encryptEcb pad ivp) := by
  revert ivp
  cases pad <;> (unfold Statement; decide +kernel)

theorem decryptCbc (pad : Scheme) (ivp : Bool) : Statement (.decryptCbc pad ivp) := by
  revert ivp
  cases pad <;> (unfold Statement; decide +kernel)

theorem decryptCfb (pad : Scheme) (ivp : Bool) : Statement (.decryptCfb pad ivp) := by
  revert ivp
  cases pad <;> (unfold Statement; decide +kernel)

theorem decryptCtr (pad : Scheme) (ivp : Bool) : Statement (.decryptCtr pad ivp) := by
  revert ivp
  cases pad <;> (unfold Statement; decide +kernel)

theorem decryptOfb (pad : Scheme) (ivp : Bool) : Statement (.decryptOfb pad ivp) := by
  revert ivp
  cases pad <;> (unfold Statement; decide +kernel)

theorem decryptGcm (pad : Scheme) (ivp : Bool) : Statement (.decryptGcm pad ivp) := by
  revert ivp
  cases pad <;> (unfold Statement; decide +kernel)

theorem decryptEcb (pad : Scheme) (ivp : Bool) : Statement (.decryptEcb pad ivp) := by
  revert ivp
  cases pad <;> (unfold Statement; decide +kernel)

theorem padPkcs7 : Statement .padPkcs7 := by
  unfold Statement
  decide +kernel

theorem padIso9797m2 : Statement .padIso9797m2 := by
  unfold Statement
  decide +kernel

theorem padAnsix923 : Statement .padAnsix923 := by
  unfold Statement
  decide +kernel

theorem padIso10126 : Statement .padIso10126 := by
  unfold Statement
  decide +kernel

theorem padZero : Statement .padZero := by
  unfold Statement
  decide +kernel

theorem padNone : Statement .padNone := by
  unfold Statement
  decide +kernel

theorem unpadPkcs7 : Statement .unpadPkcs7 := by
  unfold Statement
  decide +kernel

theorem unpadIso9797m2 : Statement .unpadIso9797m2 := by
  unfold Statement
  decide +kernel

theorem unpadAnsix923 : Statement .unpadAnsix923 := by
  unfold Statement
  decide +kernel

theorem unpadIso10126 : Statement .unpadIso10126 := by
  unfold Statement
  decide +kernel

theorem unpadZero : Statement .unpadZero := by
  unfold Statement
  decide +kernel

theorem unpadNone : Statement .unpadNone := by
  unfold Statement
  decide +kernel

theorem derive (mode : Mode) : Statement (.derive mode) := by
  cases mode <;> (unfold Statement; decide +kernel)

theorem buildHdr (mode : Mode) : Statement (.buildHdr mode) := by
  cases mode <;> (unfold Statement; decide +kernel)

theorem parseHdr (mode : Mode) : Statement (.parseHdr mode) := by
  cases mode <;> (unfold Statement; decide +kernel)

theorem ecbEnc : Statement .ecbEnc := by
  unfold Statement
  decide +kernel

theorem ecbDec : Statement .ecbDec := by
  unfold Statement
  decide +kernel

theorem aesEnc : Statement .aesEnc := by
  unfold Statement
  decide +kernel

theorem aesDec : Statement .aesDec := by
  unfold Statement
  decide +kernel

end Sys2Proof.Laws.Encoding
end

