-- ==== Sys2Proof/Laws/Session.lean ====
section
/-! SUPPORT. What a turn of a session does, said once for each agent, and runs in pieces. -/

namespace Sys2Proof.Machine

/-- STATUS bit 1 is DONE (R34). -/
@[simp] theorem statusWord_done (s : State) : (statusWord s)[1] = s.done := by
  rw [← BitVec.getLsbD_eq_getElem]
  simp [statusWord]

@[simp] theorem pollDone_word (w : Word) : pollDone (.word w) = w[1] := rfl

/-- A step on a host access is that access, from the engine as it is. -/
@[simp] theorem Session.on_host (a : Access) (c : Session) (f : State → Session) :
    c.on (.host a) f = .next (f (hostStep a c.engine)) := by
  simp [Session.on, Sys2Proof.Machine.step, mapNext]

/-- A step on an answer adds it. -/
@[simp] theorem Session.on_entropy (bs : Bytes) (c : Session) (f : State → Session) :
    c.on (.entropy bs) f = .next (f (entropyStep bs c.engine)) := by
  simp [Session.on, Sys2Proof.Machine.step, mapNext]

@[simp] theorem Session.on_reset (c : Session) (f : State → Session) :
    c.on .reset f = .next (f (resetStep c.engine)) := by
  simp [Session.on, Sys2Proof.Machine.step, mapNext]

/-- A step of the engine is its step, whatever is on the agenda. -/
theorem Session.on_engine {c : Session} {t : State} (f : State → Session) (h : engineStep c.engine = .next t) :
    c.on .engine f = .next (f t) := by
  simp [Session.on, Sys2Proof.Machine.step, h, mapNext]

@[simp] theorem Session.run_nil (c : Session) : Session.run [] c = .next c := rfl

theorem Session.run_cons {turn : Turn} {c d : Session} (h : c.step turn = .next d) (rest : List Turn) :
    Session.run (turn :: rest) c = Session.run rest d := by
  rw [Session.run, h]

/-- A run of two lists of turns is a run of the first, then of the second. -/
theorem Session.run_append {a : List Turn} {c d : Session} (h : Session.run a c = .next d) (b : List Turn) :
    Session.run (a ++ b) c = Session.run b d := by
  induction a generalizing c with
  | nil =>
    injection h with h
    rw [List.nil_append, h]
  | cons turn a ih =>
    rw [List.cons_append, Session.run]
    rw [Session.run] at h
    cases hs : c.step turn with
    | next e =>
      rw [hs] at h
      exact ih h
    | fault f => simp [hs] at h
    | refused r => simp [hs] at h

end Sys2Proof.Machine
end

