-- ==== Sys2Proof/Tests/Slice0.lean ====
section
/-! SUPPORT. The package's own tests: the well-formedness checks, the decoding of words written out from
30_encoding.md R101, single steps with the results of 95_test_vectors.md, and a witness for the hypotheses of
every statement that has some. -/

namespace Sys2Proof.Tests

set_option Elab.async false

open Sys2Proof.Machine

/-! ### Helpers -/

/-- A buffer that holds the bytes from address 0. -/
def filled (b : Bytes) : Memory := Memory.writeRange [] 0 b

/-- An idle engine just reset, whose host has written the operands and the lengths. -/
def readyOn (p : Platform) (key iv salt inp : Bytes) (b : BitVec 9) (answers : Bytes) : State :=
  { State.resetOn p answers [] with
    keylen := BitVec.ofNat 6 key.length
    ivlen := BitVec.ofNat 5 iv.length
    blksz := b
    inlenLo := BitVec.ofNat 32 inp.length
    key := filled key
    iv := filled iv
    salt := filled salt
    inp := filled inp }

/-- The same on the platform of the test vectors (IN_CAP = 4096, OUT_CAP = 4352). -/
def ready (key iv salt inp : Bytes) (b : BitVec 9) (answers : Bytes) : State :=
  readyOn Platform.default key iv salt inp b answers

/-- What a test looks at after a step: the STATUS word, OUTLEN, and OUT up to OUTLEN. -/
def shows : Host.Outcome State Fault Refusal → Option (Word × Nat × Option Bytes)
  | .next s => some (statusWord s, s.outlen.toNat, s.out.readRange 0 s.outlen.toNat)
  | .fault _ => none
  | .refused _ => none

/-- "0123456789abcdef". -/
def key16 : Bytes := be 0x30313233343536373839616263646566 16

/-- "hello world". -/
def hello : Bytes := be 0x68656c6c6f20776f726c64 11

/-- "Salted__", the salt 01 to 08, and 16 bytes of ciphertext (95_test_vectors.md L2.7 row 13). -/
def envelope : Bytes := be 0x53616c7465645f5f0102030405060708367d5343d1b4d8860db3c048f368fba2 32

/-- The salt 01 to 08. -/
def salt8 : Bytes := be 0x0102030405060708 8

/-! ### Well-formedness: each check refuses an ill-formed term -/

theorem smoke_rsv : ¬ (fieldsOf 0x00001801).wf := by decide

theorem smoke_op_zero : ¬ (fieldsOf 0x00000000).wf := by decide

theorem smoke_op_high : ¬ (fieldsOf 0x0000000C).wf := by decide

theorem smoke_unused_mode : ¬ (fieldsOf 0x00000023).wf := by decide

theorem smoke_unused_pad : ¬ (fieldsOf 0x00000105).wf := by decide

theorem smoke_unused_ivp : ¬ (fieldsOf 0x00000808).wf := by decide

theorem smoke_mode : ¬ (fieldsOf 0x000000C1).wf := by decide

theorem smoke_pad : ¬ (fieldsOf 0x00000603).wf := by decide

theorem smoke_wf : (fieldsOf 0x00000801).wf := by decide

theorem smoke_ctrl_width : Access.wf Platform.default (.ctrlRead 16 0x04) = false := by decide

theorem smoke_ctrl_align : Access.wf Platform.default (.ctrlWrite 32 0x06 0) = false := by decide

theorem smoke_ctrl_range : Access.wf Platform.default (.ctrlRead 32 0x40) = false := by decide

theorem smoke_buffer_range : Access.wf Platform.default (.bufRead .salt 8) = false := by decide

theorem smoke_out_write : Access.wf Platform.default (.bufWrite .out 0 0) = false := by decide

theorem smoke_access_wf : Access.wf Platform.default (.ctrlRead 32 0x3C) = true ∧
    Access.wf Platform.default (.bufRead .out 4351) = true := by decide

/-! ### Decoding: words written out bit by bit from R101 (RSV 20, IVP 1, PAD 3, MODE 3, OP 5 bits) -/

theorem decode_encrypt :
    decode 0b00000000000000000000100000000001#32 = .ok (.encryptCbc .pkcs7 true) ∧
    decode 0b00000000000000000000000100100001#32 = .ok (.encryptCfb .iso9797m2 false) ∧
    decode 0b00000000000000000000101001000001#32 = .ok (.encryptCtr .ansix923 true) ∧
    decode 0b00000000000000000000001101100001#32 = .ok (.encryptOfb .iso10126 false) ∧
    decode 0b00000000000000000000110010000001#32 = .ok (.encryptGcm .zero true) ∧
    decode 0b00000000000000000000010110100001#32 = .ok (.encryptEcb .noPad false) := by decide

theorem decode_decrypt :
    decode 0b00000000000000000000000000000010#32 = .ok (.decryptCbc .pkcs7 false) ∧
    decode 0b00000000000000000000100100100010#32 = .ok (.decryptCfb .iso9797m2 true) ∧
    decode 0b00000000000000000000001001000010#32 = .ok (.decryptCtr .ansix923 false) ∧
    decode 0b00000000000000000000101101100010#32 = .ok (.decryptOfb .iso10126 true) ∧
    decode 0b00000000000000000000010010000010#32 = .ok (.decryptGcm .zero false) ∧
    decode 0b00000000000000000000110110100010#32 = .ok (.decryptEcb .noPad true) := by decide

theorem decode_pad :
    decode 0b00000000000000000000000000000011#32 = .ok .padPkcs7 ∧
    decode 0b00000000000000000000000100000011#32 = .ok .padIso9797m2 ∧
    decode 0b00000000000000000000001000000011#32 = .ok .padAnsix923 ∧
    decode 0b00000000000000000000001100000011#32 = .ok .padIso10126 ∧
    decode 0b00000000000000000000010000000011#32 = .ok .padZero ∧
    decode 0b00000000000000000000010100000011#32 = .ok .padNone := by decide

theorem decode_unpad :
    decode 0b00000000000000000000000000000100#32 = .ok .unpadPkcs7 ∧
    decode 0b00000000000000000000000100000100#32 = .ok .unpadIso9797m2 ∧
    decode 0b00000000000000000000001000000100#32 = .ok .unpadAnsix923 ∧
    decode 0b00000000000000000000001100000100#32 = .ok .unpadIso10126 ∧
    decode 0b00000000000000000000010000000100#32 = .ok .unpadZero ∧
    decode 0b00000000000000000000010100000100#32 = .ok .unpadNone := by decide

theorem decode_derivation :
    decode 0b00000000000000000000000010100101#32 = .ok (.derive .ecb) ∧
    decode 0b00000000000000000000000010000110#32 = .ok (.buildHdr .gcm) ∧
    decode 0b00000000000000000000000001000111#32 = .ok (.parseHdr .ctr) := by decide

theorem decode_block :
    decode 0b00000000000000000000000000001000#32 = .ok .ecbEnc ∧
    decode 0b00000000000000000000000000001001#32 = .ok .ecbDec ∧
    decode 0b00000000000000000000000000001010#32 = .ok .aesEnc ∧
    decode 0b00000000000000000000000000001011#32 = .ok .aesDec := by decide

/-- 95_test_vectors.md L2.1: a reserved operation, a field not used, and a reserved mode. -/
theorem decode_reserved :
    decode 0x00000000 = .error .illegalCommand ∧ decode 0x00000103 = .ok .padIso9797m2 ∧
    decode 0x00000023 = .error .illegalCommand ∧ decode 0x000000C1 = .error .unsupportedMode := by decide

/-- The table's numbering: one 32-bit word. -/
theorem decode_table_word : decodeTableWord 32 0x801 = some (.encryptCbc .pkcs7 true) := by decide

/-! ### The S-box table against its formula -/

/-- The inverse in GF(2^8) as the power 254, by the products of R231. -/
def inverse (x : Byte) : Byte :=
  let x2 := gmul x x
  let x4 := gmul x2 x2
  let x8 := gmul x4 x4
  let x16 := gmul x8 x8
  let x32 := gmul x16 x16
  let x64 := gmul x32 x32
  gmul x2 (gmul x4 (gmul x8 (gmul x16 (gmul x32 (gmul x64 (gmul x64 x64))))))

/-- R235, R236: the S-box is the affine map of the inverse, and the inverse table inverts it. -/
theorem test_sbox :
    (∀ x : Byte, invSbox (sbox x) = x ∧ sbox (invSbox x) = x) ∧
    ∀ x ∈ ([0x00, 0x01, 0x02, 0x53, 0x80, 0xff] : Bytes),
      let y := inverse x
      sbox x = y ^^^ y.rotateLeft 1 ^^^ y.rotateLeft 2 ^^^ y.rotateLeft 3 ^^^ y.rotateLeft 4 ^^^ 0x63#8 := by
  decide +kernel

/-- R312: inc32 wraps in the last four bytes and leaves the first twelve. -/
theorem test_inc32 :
    ofBlock (inc32 (toBlock (be 0x000102030405060708090a0bffffffff 16))) =
      be 0x000102030405060708090a0b00000000 16 := by decide +kernel

/-- The state the package names as reset: R450's values on the platform of log entry 1, nothing answered and no
step to come. -/
theorem test_reset : State.reset =
    { platform := ⟨4096, 4352⟩, cmd := 0, phase := .idle, done := false, hdr := false, errcode := 0, keylen := 0
      ivlen := 0, blksz := 0, inlenLo := 0, inlenHi := 0, outlenLo := 0, outlenHi := 0, key := [], iv := []
      salt := [], inp := [], out := [], faults := FaultSet.empty, entropy := [], returned := .nothing
      agenda := [] } := rfl

/-! ### One step of each command -/

/-- The command placed by `withFetchWord` is what the next step runs, as just issued (log entry 11). -/
theorem placed_command_runs_next (s : State) (w : Nat) (i : Instr)
    (h : decode (BitVec.ofNat 32 (w % 2 ^ 32)) = .ok i) :
    step (s.withFetchWord 32 w) = exec i (issue (BitVec.ofNat 32 (w % 2 ^ 32)) s) := by
  simp only [State.withFetchWord, step, issue, statusIssued, engineStep, State.snapshot, h, State.inlen]

/-- 95_test_vectors.md L2.6 row 10. -/
theorem test_aes_dec_1 :
    shows (step (State.withFetchWord
      (ready (be 0x000102030405060708090a0b0c0d0e0f101112131415161718191a1b1c1d1e1f 32) [] [] (be 0x8ea2b7ca516745bfeafc49904b496089 16) 0 [])
      32 0x0000000B)) =
      some (0x00000002, 16, some (be 0x00112233445566778899aabbccddeeff 16)) := by
  decide +kernel

/-- 95_test_vectors.md L2.6 row 13. -/
theorem test_aes_dec_2 :
    shows (step (State.withFetchWord
      (ready key16 [] [] [] 0 [])
      32 0x0000000B)) =
      some (0x00000302, 0, some []) := by
  decide +kernel

/-- 95_test_vectors.md L2.6 row 9. -/
theorem test_aes_enc_1 :
    shows (step (State.withFetchWord
      (ready (be 0x000102030405060708090a0b0c0d0e0f 16) [] [] (be 0x00112233445566778899aabbccddeeff 16) 0 [])
      32 0x0000000A)) =
      some (0x00000002, 16, some (be 0x69c4e0d86a7b0430d8cdb78070b4c55a 16)) := by
  decide +kernel

/-- 95_test_vectors.md L2.6 row 11. -/
theorem test_aes_enc_2 :
    shows (step (State.withFetchWord
      (ready key16 [] [] (be 0x000000000000000000000000000000 15) 0 [])
      32 0x0000000A)) =
      some (0x00000302, 0, some []) := by
  decide +kernel

/-- 95_test_vectors.md L2.8 row 8. -/
theorem test_build_hdr_1 :
    shows (step (State.withFetchWord
      (ready key16 [] [] [] 0 (be 0x0102030405060708 8))
      32 0x00000086)) =
      some (0x00000002, 44, some (be 0x53616c7465645f5f0102030405060708a0a7e9b874aad2a7b017cba7276f7321dc19fb5214a8d29fc0bca608 44)) := by
  decide +kernel

/-- 95_test_vectors.md L2.8 row 10. -/
theorem test_build_hdr_2 :
    shows (step (State.withFetchWord
      (ready (be 0x303132333435363738396162636465 15) [] [] [] 0 [])
      32 0x00000006)) =
      some (0x00000102, 0, some []) := by
  decide +kernel

/-- 95_test_vectors.md L2.7 row 14. -/
theorem test_decrypt_cbc_1 :
    shows (step (State.withFetchWord
      (ready key16 [] [] (be 0x53616c7465645f5f0102030405060708367d5343d1b4d8860db3c048f368fba2 32) 0 [])
      32 0x00000002)) =
      some (0x00000006, 11, some hello) := by
  decide +kernel

/-- 95_test_vectors.md L2.7 row 4. -/
theorem test_decrypt_cfb_1 :
    shows (step (State.withFetchWord
      (ready key16 (rep 0 16) [] (be 0x63fe79b62464d79a6771ab 11) 0 [])
      32 0x00000822)) =
      some (0x00000002, 11, some hello) := by
  decide +kernel

/-- 95_test_vectors.md L2.7 row 18. -/
theorem test_decrypt_ctr_1 :
    shows (step (State.withFetchWord
      (ready key16 (be 0x0000000000 5) [] (be 0x53616c7465645f5f0102030405060708fa46b5a446ecdfa00adcd7 27) 0 [])
      32 0x00000842)) =
      some (0x00000006, 11, some hello) := by
  decide +kernel

/-- 95_test_vectors.md L2.7 row 12. -/
theorem test_decrypt_ecb_1 :
    shows (step (State.withFetchWord
      (ready key16 [] [] (be 0x8169bed4ef49a8874559c5b200daade7 16) 0 [])
      32 0x000008A2)) =
      some (0x00000002, 11, some hello) := by
  decide +kernel

/-- 95_test_vectors.md L2.7 row 35. -/
theorem test_decrypt_ecb_2 :
    shows (step (State.withFetchWord
      (ready key16 (rep 0 16) [] (be 0x8169bed4ef49a8874559c5b200daad 15) 0 [])
      32 0x000008A2)) =
      some (0x00000302, 0, some []) := by
  decide +kernel

/-- 95_test_vectors.md L2.7 row 10. -/
theorem test_decrypt_gcm_1 :
    shows (step (State.withFetchWord
      (ready key16 (rep 0 12) [] (be 0x2a87462996aafbacfd3af5f548ff92105b4cae7336773620923679 27) 0 [])
      32 0x00000882)) =
      some (0x00000002, 11, some hello) := by
  decide +kernel

/-- 95_test_vectors.md L2.7 row 8. -/
theorem test_decrypt_ofb_1 :
    shows (step (State.withFetchWord
      (ready key16 (rep 0 16) [] (be 0x63fe79b62464d79a6771ab 11) 0 [])
      32 0x00000862)) =
      some (0x00000002, 11, some hello) := by
  decide +kernel

/-- 95_test_vectors.md L2.8 row 2. -/
theorem test_derive_1 :
    shows (step (State.withFetchWord
      ({ ready [] [] (be 0x0102030405060708 8) key16 0 [] with keylen := 16 })
      32 0x00000085)) =
      some (0x00000002, 28, some (be 0xa0a7e9b874aad2a7b017cba7276f7321dc19fb5214a8d29fc0bca608 28)) := by
  decide +kernel

/-- 95_test_vectors.md L2.8 row 5. -/
theorem test_derive_2 :
    shows (step (State.withFetchWord
      ({ ready [] [] (be 0x0102030405060708 8) [] 0 [] with keylen := 24 })
      32 0x00000025)) =
      some (0x00000002, 40, some (be 0x0ee0646c1c77d8131cc8f4ee65c7673bd9c71573d83f48690dfb757a175734e9c0734d0548f83775 40)) := by
  decide +kernel

/-- 95_test_vectors.md L2.6 row 2. -/
theorem test_ecb_dec_1 :
    shows (step (State.withFetchWord
      (ready key16 [] [] (be 0x3bfd04cc0d7ed55358e2cbe19de213833bfd04cc0d7ed55358e2cbe19de21383 32) 0 [])
      32 0x00000009)) =
      some (0x00000002, 32, some (be 0x4141414141414141414141414141414141414141414141414141414141414141 32)) := by
  decide +kernel

/-- 95_test_vectors.md L2.6 row 5. -/
theorem test_ecb_dec_2 :
    shows (step (State.withFetchWord
      (ready key16 [] [] (be 0x414141414141414141414141414141 15) 0 [])
      32 0x00000009)) =
      some (0x00000302, 0, some []) := by
  decide +kernel

/-- 95_test_vectors.md L2.6 row 1. -/
theorem test_ecb_enc_1 :
    shows (step (State.withFetchWord
      (ready key16 [] [] (be 0x4141414141414141414141414141414141414141414141414141414141414141 32) 0 [])
      32 0x00000008)) =
      some (0x00000002, 32, some (be 0x3bfd04cc0d7ed55358e2cbe19de213833bfd04cc0d7ed55358e2cbe19de21383 32)) := by
  decide +kernel

/-- 95_test_vectors.md L2.6 row 4. -/
theorem test_ecb_enc_2 :
    shows (step (State.withFetchWord
      (ready key16 [] [] (be 0x4141414141414141414141414141414141 17) 0 [])
      32 0x00000008)) =
      some (0x00000302, 0, some []) := by
  decide +kernel

/-- 95_test_vectors.md L2.7 row 20. -/
theorem test_encrypt_cbc_1 :
    shows (step (State.withFetchWord
      (ready key16 [] [] hello 0 (be 0xb0b1b2b30102030405060708 12))
      32 0x00000301)) =
      some (0x00000006, 32, some (be 0x53616c7465645f5f0102030405060708f84a35c6d23ed34f3d428bf804c9ef56 32)) := by
  decide +kernel

/-- 95_test_vectors.md L2.7 row 3. -/
theorem test_encrypt_cfb_1 :
    shows (step (State.withFetchWord
      (ready key16 (rep 0 16) [] hello 0 [])
      32 0x00000821)) =
      some (0x00000002, 11, some (be 0x63fe79b62464d79a6771ab 11)) := by
  decide +kernel

/-- 95_test_vectors.md L2.7 row 29. -/
theorem test_encrypt_cfb_2 :
    shows (step (State.withFetchWord
      (ready key16 [] [] hello 0 [])
      32 0x00000821)) =
      some (0x00000202, 0, some []) := by
  decide +kernel

/-- 95_test_vectors.md L2.7 row 17. -/
theorem test_encrypt_ctr_1 :
    shows (step (State.withFetchWord
      (ready key16 [] [] hello 0 (be 0x0102030405060708 8))
      32 0x00000041)) =
      some (0x00000006, 27, some (be 0x53616c7465645f5f0102030405060708fa46b5a446ecdfa00adcd7 27)) := by
  decide +kernel

/-- 95_test_vectors.md L2.7 row 19. -/
theorem test_encrypt_ecb_1 :
    shows (step (State.withFetchWord
      (ready key16 [] [] hello 0 (be 0x0102030405060708 8))
      32 0x000000A1)) =
      some (0x00000002, 16, some (be 0x8169bed4ef49a8874559c5b200daade7 16)) := by
  decide +kernel

/-- 95_test_vectors.md L2.7 row 9. -/
theorem test_encrypt_gcm_1 :
    shows (step (State.withFetchWord
      (ready key16 (rep 0 12) [] hello 0 [])
      32 0x00000881)) =
      some (0x00000002, 27, some (be 0x2a87462996aafbacfd3af5f548ff92105b4cae7336773620923679 27)) := by
  decide +kernel

/-- 95_test_vectors.md L2.7 row 7. -/
theorem test_encrypt_ofb_1 :
    shows (step (State.withFetchWord
      (ready key16 (rep 0 16) [] hello 0 [])
      32 0x00000861)) =
      some (0x00000002, 11, some (be 0x63fe79b62464d79a6771ab 11)) := by
  decide +kernel

/-- 95_test_vectors.md L2.8 row 18. -/
theorem test_pad_ansix923_1 :
    shows (step (State.withFetchWord
      (ready [] [] [] (be 0x616263 3) 8 [])
      32 0x00000203)) =
      some (0x00000002, 8, some (be 0x6162630000000005 8)) := by
  decide +kernel

/-- 95_test_vectors.md L2.2 row 17. -/
theorem test_pad_ansix923_2 :
    shows (step (State.withFetchWord
      (ready [] [] [] (be 0x61626364 4) 4 [])
      32 0x203)) =
      some (0x2, 8, some (be 0x6162636400000004 8)) := by
  decide +kernel

/-- 95_test_vectors.md L2.8 row 17. -/
theorem test_pad_iso10126_1 :
    shows (step (State.withFetchWord
      (ready [] [] [] hello 16 (be 0xa0a1a2a3a4 5))
      32 0x00000303)) =
      some (0x00000002, 16, some (be 0x68656c6c6f20776f726c64a0a1a2a305 16)) := by
  decide +kernel

/-- 95_test_vectors.md L2.2 row 13. -/
theorem test_pad_iso9797m2_1 :
    shows (step (State.withFetchWord
      (ready [] [] [] (be 0x616263 3) 4 [])
      32 0x103)) =
      some (0x2, 8, some (be 0x6162638000000000 8)) := by
  decide +kernel

/-- 95_test_vectors.md L2.8 row 24. -/
theorem test_pad_none_1 :
    shows (step (State.withFetchWord
      (ready [] [] [] [] 511 [])
      32 0x00000503)) =
      some (0x00000002, 0, some []) := by
  decide +kernel

/-- 95_test_vectors.md L2.8 row 25. -/
theorem test_pad_none_2 :
    shows (step (State.withFetchWord
      (ready [] [] [] (be 0x616263 3) 4 [])
      32 0x00000503)) =
      some (0x00000302, 0, some []) := by
  decide +kernel

/-- 95_test_vectors.md L2.8 row 16. -/
theorem test_pad_pkcs7_1 :
    shows (step (State.withFetchWord
      (ready [] [] [] hello 16 [])
      32 0x00000003)) =
      some (0x00000002, 16, some (be 0x68656c6c6f20776f726c640505050505 16)) := by
  decide +kernel

/-- 95_test_vectors.md L2.8 row 22. -/
theorem test_pad_pkcs7_2 :
    shows (step (State.withFetchWord
      (ready [] [] [] (be 0x616263 3) 256 [])
      32 0x00000003)) =
      some (0x00000402, 0, some []) := by
  decide +kernel

/-- 95_test_vectors.md L2.2 row 11. -/
theorem test_pad_zero_1 :
    shows (step (State.withFetchWord
      (ready [] [] [] (be 0x6162 2) 4 [])
      32 0x403)) =
      some (0x2, 4, some (be 0x61620000 4)) := by
  decide +kernel

/-- 95_test_vectors.md L2.8 row 13. -/
theorem test_parse_hdr_1 :
    shows (step (State.withFetchWord
      (ready key16 [] [] (be 0x585858585858585801020304050607087461696c 20) 0 [])
      32 0x00000007)) =
      some (0x00000002, 32, some (be 0xa0a7e9b874aad2a7b017cba7276f7321dc19fb5214a8d29fc0bca608ab405c28 32)) := by
  decide +kernel

/-- 95_test_vectors.md L2.8 row 14. -/
theorem test_parse_hdr_2 :
    shows (step (State.withFetchWord
      (ready key16 [] [] (be 0x53616c7465645f5f01020304050607 15) 0 [])
      32 0x00000007)) =
      some (0x00000302, 0, some []) := by
  decide +kernel

/-- 95_test_vectors.md L2.8 row 19. -/
theorem test_unpad_ansix923_1 :
    shows (step (State.withFetchWord
      (ready [] [] [] (be 0x616263 3) 8 [])
      32 0x00000204)) =
      some (0x00000402, 0, some []) := by
  decide +kernel

/-- 95_test_vectors.md L2.8 row 20. -/
theorem test_unpad_ansix923_2 :
    shows (step (State.withFetchWord
      (ready [] [] [] (be 0x6162630000000005 8) 8 [])
      32 0x00000204)) =
      some (0x00000002, 3, some (be 0x616263 3)) := by
  decide +kernel

/-- 95_test_vectors.md L2.8 row 23. -/
theorem test_unpad_iso10126_1 :
    shows (step (State.withFetchWord
      (ready [] [] [] (be 0x616263 3) 257 [])
      32 0x00000304)) =
      some (0x00000402, 0, some []) := by
  decide +kernel

/-- 95_test_vectors.md L2.2 row 50. -/
theorem test_unpad_iso10126_2 :
    shows (step (State.withFetchWord
      (ready [] [] [] (be 0x616263ffffffff05 8) 8 [])
      32 0x304)) =
      some (0x2, 3, some (be 0x616263 3)) := by
  decide +kernel

/-- 95_test_vectors.md L2.2 row 40. -/
theorem test_unpad_iso9797m2_1 :
    shows (step (State.withFetchWord
      (ready [] [] [] (be 0x61628000 4) 4 [])
      32 0x104)) =
      some (0x2, 2, some (be 0x6162 2)) := by
  decide +kernel

/-- 95_test_vectors.md L2.2 row 43. -/
theorem test_unpad_iso9797m2_2 :
    shows (step (State.withFetchWord
      (ready [] [] [] (be 0x61627f00 4) 4 [])
      32 0x104)) =
      some (0x2, 2, some (be 0x6162 2)) := by
  decide +kernel

/-- 95_test_vectors.md L2.2 row 53. -/
theorem test_unpad_none_1 :
    shows (step (State.withFetchWord
      (ready [] [] [] (be 0x61626364 4) 4 [])
      32 0x504)) =
      some (0x2, 4, some (be 0x61626364 4)) := by
  decide +kernel

/-- 95_test_vectors.md L2.2 row 54. -/
theorem test_unpad_none_2 :
    shows (step (State.withFetchWord
      (ready [] [] [] (be 0x616263 3) 4 [])
      32 0x504)) =
      some (0x302, 0, some []) := by
  decide +kernel

/-- 95_test_vectors.md L2.2 row 28. -/
theorem test_unpad_pkcs7_1 :
    shows (step (State.withFetchWord
      (ready [] [] [] (be 0x68656c6c6f20776f726c640505050505 16) 16 [])
      32 0x4)) =
      some (0x2, 11, some hello) := by
  decide +kernel

/-- 95_test_vectors.md L2.2 row 33. -/
theorem test_unpad_pkcs7_2 :
    shows (step (State.withFetchWord
      (ready [] [] [] (be 0x6162630505040505 8) 8 [])
      32 0x4)) =
      some (0x402, 0, some []) := by
  decide +kernel

/-- 95_test_vectors.md L2.8 row 26. -/
theorem test_unpad_zero_1 :
    shows (step (State.withFetchWord
      (ready [] [] [] (be 0x61620000 4) 4 [])
      32 0x00000404)) =
      some (0x00000002, 2, some (be 0x6162 2)) := by
  decide +kernel

/-- 95_test_vectors.md L2.2 row 37. -/
theorem test_unpad_zero_2 :
    shows (step (State.withFetchWord
      (ready [] [] [] (be 0x00000000 4) 4 [])
      32 0x404)) =
      some (0x2, 0, some []) := by
  decide +kernel

/-! ### Witnesses: the hypotheses of each statement can be met -/

/-- An engine ready for every command: key16, a 16-byte IV, a salt, "hello world", block size 16, 12 answers. -/
def base : State := ready key16 (rep 0 16) salt8 hello 16 (be 0xb0b1b2b30102030405060708 12)

/-- `base` with other bytes in IN. -/
def withIn (d : Bytes) : State := { base with inp := filled d, inlenLo := BitVec.ofNat 32 d.length }

/-- `base` with a command in flight. -/
def running (w : Word) : State := issue w base

theorem witness_DecodeFollowsItsChecks :
    (¬ (fieldsOf 0x00001000).rsvZero) ∧
    ((fieldsOf 0x0000000C).rsvZero ∧ ¬ (fieldsOf 0x0000000C).opDefined) ∧
    ((fieldsOf 0x00000023).rsvZero ∧ (fieldsOf 0x00000023).opDefined ∧ ¬ (fieldsOf 0x00000023).unusedZero) ∧
    ((fieldsOf 0x000000C1).rsvZero ∧ (fieldsOf 0x000000C1).opDefined ∧ (fieldsOf 0x000000C1).unusedZero ∧
      ¬ (fieldsOf 0x000000C1).modeDefined) ∧
    ((fieldsOf 0x00000603).rsvZero ∧ (fieldsOf 0x00000603).opDefined ∧ (fieldsOf 0x00000603).unusedZero ∧
      (fieldsOf 0x00000603).modeDefined ∧ ¬ (fieldsOf 0x00000603).padDefined) ∧
    (fieldsOf 0x000005A1).wf :=
  ⟨by decide, by decide, by decide, by decide, by decide, by decide⟩

theorem witness_ReservedWordsCompleteWithTheirError :
    (EngineTurn (running 0) (running 0) ∧ (running 0).phase = .busy (issue 0 base).snapshot ∧
      ¬ (fieldsOf (issue 0 base).snapshot.cmd).opDefined) ∧
    (EngineTurn (running 0xC1) (running 0xC1) ∧ (running 0xC1).phase = .busy (issue 0xC1 base).snapshot ∧
      ¬ (fieldsOf (issue 0xC1 base).snapshot.cmd).modeDefined) :=
  ⟨⟨.empty _ rfl, rfl, by decide⟩, ⟨.empty _ rfl, rfl, by decide⟩⟩

theorem witness_OpcodeMapNamesTheForm :
    (∃ row ∈ opcodeRows, (0x801 : Word) &&& row.mask = row.pat ∧
      decode 0x801 = .ok (.encryptCbc .pkcs7 true)) ∧
    (∀ row ∈ opcodeRows, (0x00000C : Word) &&& row.mask ≠ row.pat) := by decide

/-- Both forms of the engine's turn. -/
theorem witness_EngineStepRunsTheDecodedCommand :
    (EngineTurn (running 0x801) (running 0x801) ∧
      (running 0x801).phase = .busy (issue 0x801 base).snapshot ∧
      decode (issue 0x801 base).snapshot.cmd = .ok (.encryptCbc .pkcs7 true)) ∧
    EngineTurn { running 0x801 with agenda := [.engine] } { running 0x801 with agenda := [] } :=
  ⟨⟨.empty _ rfl, rfl, by decide⟩, .listed { running 0x801 with agenda := [.engine] } [] rfl⟩

theorem witness_CmdWriteIssues :
    HostTurn (.ctrlWrite 32 0x00 0x801) { base with agenda := [.host (.ctrlWrite 32 0x00 0x801)] } base ∧
      base.isBusy = false :=
  ⟨.listed { base with agenda := [.host (.ctrlWrite 32 0x00 0x801)] } [] rfl, rfl⟩

/-- UNPAD.NONE of 16 bytes returns them. -/
theorem witness_SuccessfulCompletionWrites :
    ruleOf .unpadNone (withIn key16) (withIn key16).entropy =
      .done ⟨key16, false⟩ (withIn key16).entropy ∧
    (withIn key16).fits key16 ∧ (withIn key16).platform.legal ∧ (withIn key16).out.wf = true := by
  decide +kernel

/-- UNPAD.NONE of 11 bytes raises BlockAlignmentError; on a platform with OUT_CAP = 1 a result of 16 bytes is too
long. -/
theorem witness_ErrorCompletionWrites :
    ruleOf .unpadNone base base.entropy = .raised .blockAlignment base.entropy ∧
    (ruleOf .unpadNone { withIn key16 with platform := ⟨16, 1⟩ } [] = .done ⟨key16, false⟩ [] ∧
      1 < key16.length) := by decide +kernel

theorem witness_CommandFrame :
    base.platform.legal ∧ base.out.wf = true ∧ ∃ t, exec .padPkcs7 base = .next t :=
  ⟨by decide, rfl, _, rfl⟩

/-- What a step leaves in DONE, ERRCODE and HDR. -/
def ends : Host.Outcome State Fault Refusal → Option (Bool × BitVec 4 × Bool)
  | .next t => some (t.done, t.errcode, t.hdr)
  | .fault _ => none
  | .refused _ => none

/-- A salted ENCRYPT sets HDR, and one with an IV does not; a DECRYPT with a header sets it, and one without does
not. -/
theorem witness_HdrMarksSaltedEnvelopes :
    base.hdr = false ∧ base.done = false ∧
    ends (exec (encryptInstr .ctr .pkcs7 false) base) = some (true, 0, true) ∧
    ends (exec (encryptInstr .ctr .pkcs7 true) base) = some (true, 0, false) ∧
    ((withIn envelope).done = false ∧ 8 ≤ (withIn envelope).inBytes ∧
      (withIn envelope).inp.readRange 0 8 = some magic ∧
      ends (exec (decryptInstr .ctr .pkcs7 false) (withIn envelope)) = some (true, 0, true)) ∧
    ends (exec (decryptInstr .ctr .pkcs7 true) base) = some (true, 0, false) := by decide +kernel

/-- A platform with IN_CAP = 16 whose buffers are all written: with no answer, commands that draw none; with the
answers of the largest draws, those that draw. -/
theorem witness_WrittenOperandsAndAnswersComplete :
    let s (n : Nat) := readyOn ⟨16, 272⟩ (rep 1 32) (rep 2 16) (rep 3 8) (rep 4 16) 256 (rep 5 n)
    ((s 0).key.readRange 0 32).isSome = true ∧ ((s 0).iv.readRange 0 16).isSome = true ∧
    ((s 0).salt.readRange 0 8).isSome = true ∧ ((s 0).inp.readRange 0 (s 0).platform.inCap).isSome = true ∧
    (s 0).drawBytes .aesEnc ≤ (s 0).entropy.length ∧
    (s 0).drawBytes (.encryptEcb .pkcs7 false) ≤ (s 0).entropy.length ∧
    (s 0).drawBytes (.encryptGcm .iso10126 true) ≤ (s 0).entropy.length ∧
    (s 8).drawBytes (.buildHdr .cbc) = (s 8).entropy.length ∧
    (s 23).drawBytes (.encryptCbc .iso10126 false) = (s 23).entropy.length ∧
    (s 239).drawBytes .padIso10126 = (s 239).entropy.length := by decide +kernel

/-- One clause each: no key byte, with a header's salt read before it or not; no data byte for PAD; no salt byte, or a
salt and no data byte for DERIVE; no salt in PARSE_HDR's header; no data byte after the key, with MAGIC or none; no
IV byte, with a padding step that goes on. -/
theorem witness_UnwrittenOperandSticks :
    (base.inBytes ≤ base.platform.inCap) ∧
    (keySizeLegal base.keyBytes = true ∧ ({ base with key := [] } : State).key.readRange 0 16 = none ∧
      (withIn envelope).inp.readRange 8 8 = some salt8) ∧
    (blockSizeOk .pkcs7 base.blockSize = true ∧
      ({ base with inp := filled (rep 0 10) } : State).inp.readRange 0 base.inBytes = none) ∧
    (({ base with salt := filled (rep 0 7) } : State).salt.readRange 0 8 = none ∧ base.saltIs salt8) ∧
    (16 ≤ (withIn envelope).inBytes ∧
      ({ withIn envelope with inp := filled (magic ++ [1]) } : State).inp.readRange 8 8 = none) ∧
    base.keyIs key16 ∧
    (({ withIn (rep 0 16) with inp := [] } : State).inBytes = 16 ∧
      ({ withIn (rep 0 16) with inp := [] } : State).inp.readRange 0 16 = none) ∧
    (({ withIn envelope with inp := filled magic } : State).inp.readRange 0 8 = some magic ∧
      ({ withIn envelope with inp := filled magic } : State).inp.readRange 0 32 = none) ∧
    (base.inIs hello ∧ base.ivBytes = ivSize .cbc ∧ base.padsOn .cbc .iso10126 hello ∧ hello.take 8 ≠ magic ∧
      ({ base with iv := filled (rep 0 15) } : State).iv.readRange 0 16 = none) := by decide +kernel

/-- Seven answers are too few for a salt, and three for the filler of 11 bytes; eleven are enough for the filler and
three of the salt. -/
theorem witness_UnansweredDrawWaits :
    base.keyIs key16 ∧ base.inIs hello ∧ ({ base with entropy := rep 0 7 } : State).entropy.length < 8 ∧
    (7 < encryptDraw .ctr .noPad false hello.length ∧ 7 < encryptDraw .cbc .zero false hello.length) ∧
    3 < encryptDraw .ecb .iso10126 true hello.length ∧ 11 < encryptDraw .cbc .iso10126 false hello.length ∧
    (key16.length % 16 = 0 ∧ 7 < encryptDraw .cbc .noPad false key16.length) ∧
    (blockSizeOk .iso10126 base.blockSize = true ∧ 3 < padLen hello.length base.blockSize - 1) := by
  decide +kernel

/-- An issue, and a completion from each of the two engine turns, and a reset while busy. -/
theorem witness_BusyChangesOnlyByIssueAndCompletion :
    (match step { base with agenda := [.host (.ctrlWrite 32 0x00 0x801)] } with
      | .next t => t.isBusy
      | .fault _ => false
      | .refused _ => false) = true ∧
    (match step (running 0) with
      | .next t => !t.isBusy
      | .fault _ => false
      | .refused _ => false) = true ∧
    (match step { running 0 with agenda := [.engine] } with
      | .next t => !t.isBusy
      | .fault _ => false
      | .refused _ => false) = true ∧
    (match step { running 0 with agenda := [.reset] } with
      | .next t => !t.isBusy
      | .fault _ => false
      | .refused _ => false) = true := by decide +kernel

/-- Reads, a write that does not issue, an engine step and an answer, before an issue still to come. -/
theorem witness_ResultsHoldUntilTheNextIssue :
    let events : List Event := [.host (.bufRead .out 0), .host (.ctrlWrite 32 0x18 0), .engine, .entropy [1]]
    let s : State := { base with agenda := events ++ [.host (.ctrlWrite 32 0x00 (encode .aesEnc))] }
    s.isBusy = false ∧ s.agenda = events ++ [.host (.ctrlWrite 32 0x00 (encode .aesEnc))] ∧ ∀ e ∈ events, restarts e = false := by
  decide

/-- A read of CTRL is next, at the first offset, the last one, and while busy at one that is not OUTLEN. -/
theorem witness_CtrlReadsReturnTheRegisters :
    (HostTurn (.ctrlRead 32 0x00) { base with agenda := [.host (.ctrlRead 32 0x00)] } base ∧
      0x00 % 4 = 0 ∧ 0x00 ≤ 0x3C ∧ base.isBusy = false) ∧
    (HostTurn (.ctrlRead 32 0x3C) { base with agenda := [.host (.ctrlRead 32 0x3C)] } base ∧
      0x3C % 4 = 0 ∧ 0x3C ≤ 0x3C) ∧
    (HostTurn (.ctrlRead 32 0x04) { running 0 with agenda := [.host (.ctrlRead 32 0x04)] } (running 0) ∧
      (0x04 ≠ 0x20 ∧ 0x04 ≠ 0x24)) :=
  ⟨⟨.listed { base with agenda := [.host (.ctrlRead 32 0x00)] } [] rfl, by decide⟩,
    ⟨.listed { base with agenda := [.host (.ctrlRead 32 0x3C)] } [] rfl, by decide⟩,
    ⟨.listed { running 0 with agenda := [.host (.ctrlRead 32 0x04)] } [] rfl, by decide⟩⟩

/-- A write of each CTRL offset but CMD is next, while idle. -/
theorem witness_CtrlWritesStoreTheWritableBits :
    ∀ off ∈ [0x04, 0x08, 0x0C, 0x10, 0x14, 0x18, 0x1C, 0x20, 0x24, 0x28, 0x2C, 0x30, 0x34, 0x38, 0x3C],
      HostTurn (.ctrlWrite 32 off 0xFFFFFFFF)
        { base with agenda := [.host (.ctrlWrite 32 off 0xFFFFFFFF)] } base ∧
      off % 4 = 0 ∧ off ≤ 0x3C ∧ base.isBusy = false := fun off h =>
  ⟨.listed { base with agenda := [.host (.ctrlWrite 32 off 0xFFFFFFFF)] } [] rfl,
    (by decide : ∀ off ∈ [0x04, 0x08, 0x0C, 0x10, 0x14, 0x18, 0x1C, 0x20, 0x24, 0x28, 0x2C, 0x30, 0x34, 0x38,
      0x3C], off % 4 = 0 ∧ off ≤ 0x3C ∧ base.isBusy = false) off h⟩

/-- A write of the last byte of IN. -/
theorem witness_BufferWriteStoresOneByte :
    HostTurn (.bufWrite .inp 4095 7) { base with agenda := [.host (.bufWrite .inp 4095 7)] } base ∧
    (Space.inp ≠ .out ∧ 4095 < Space.inp.size base.platform ∧ base.isBusy = false ∧
      (base.buffer .inp).wf = true) :=
  ⟨.listed { base with agenda := [.host (.bufWrite .inp 4095 7)] } [] rfl, by decide +kernel⟩

/-- A read of the last byte of KEY that is written, of one that is not, and of IN while busy. -/
theorem witness_BufferReadReturnsTheByte :
    (HostTurn (.bufRead .key 15) { base with agenda := [.host (.bufRead .key 15)] } base ∧
      (15 < Space.key.size base.platform ∧ base.isBusy = false ∧ (base.buffer .key).read 15 = some 0x66#8)) ∧
    (HostTurn (.bufRead .key 31) { base with agenda := [.host (.bufRead .key 31)] } base ∧
      (31 < Space.key.size base.platform ∧ (base.buffer .key).read 31 = none)) ∧
    (HostTurn (.bufRead .inp 0) { running 0 with agenda := [.host (.bufRead .inp 0)] } (running 0) ∧
      Space.inp ≠ .out) :=
  ⟨⟨.listed { base with agenda := [.host (.bufRead .key 15)] } [] rfl, by decide +kernel⟩,
    ⟨.listed { base with agenda := [.host (.bufRead .key 31)] } [] rfl, by decide +kernel⟩,
    ⟨.listed { running 0 with agenda := [.host (.bufRead .inp 0)] } [] rfl, by decide⟩⟩

theorem witness_MalformedAccessOnlyRecordsAFault :
    (HostTurn (.ctrlRead 32 0x40) { base with agenda := [.host (.ctrlRead 32 0x40)] } base ∧
      (Access.ctrlRead 32 0x40).wf base.platform = false) ∧
    (HostTurn (.bufWrite .out 0 0) { base with agenda := [.host (.bufWrite .out 0 0)] } base ∧
      (Access.bufWrite .out 0 0).wf base.platform = false) :=
  ⟨⟨.listed { base with agenda := [.host (.ctrlRead 32 0x40)] } [] rfl, by decide⟩,
    ⟨.listed { base with agenda := [.host (.bufWrite .out 0 0)] } [] rfl, by decide⟩⟩

theorem witness_AccessWhileBusyOnlyRecordsAFault :
    (HostTurn (.bufWrite .inp 4095 0) { running 0 with agenda := [.host (.bufWrite .inp 4095 0)] } (running 0) ∧
      (Access.bufWrite .inp 4095 0).wf (running 0).platform = true ∧ (running 0).isBusy = true) ∧
    (HostTurn (.ctrlWrite 32 0 0) { running 0 with agenda := [.host (.ctrlWrite 32 0 0)] } (running 0) ∧
      (Access.ctrlWrite 32 0 0).wf (running 0).platform = true) ∧
    (HostTurn (.bufRead .out 0) { running 0 with agenda := [.host (.bufRead .out 0)] } (running 0) ∧
      (Access.bufRead .out 0).wf (running 0).platform = true ∧ (running 0).out.read 0 = none) ∧
    (let s : State := { running 0 with out := [(0, 7)] }
     HostTurn (.bufRead .out 0) { s with agenda := [.host (.bufRead .out 0)] } s ∧ s.isBusy = true ∧
      s.out.read 0 = some 7#8) ∧
    (HostTurn (.ctrlRead 32 0x24) { running 0 with agenda := [.host (.ctrlRead 32 0x24)] } (running 0) ∧
      (Access.ctrlRead 32 0x24).wf (running 0).platform = true) ∧
    (HostTurn (.ctrlRead 32 0x1C) { running 0 with agenda := [.host (.ctrlRead 32 0x1C)] } (running 0) ∧
      (Access.ctrlRead 32 0x1C).wf (running 0).platform = true) ∧
    (HostTurn (.bufRead .inp 10) { running 0 with agenda := [.host (.bufRead .inp 10)] } (running 0) ∧
      (Access.bufRead .inp 10).wf (running 0).platform = true ∧
      ((running 0).buffer .inp).read 10 = some 0x64#8) :=
  ⟨⟨.listed { running 0 with agenda := [.host (.bufWrite .inp 4095 0)] } [] rfl, by decide⟩,
    ⟨.listed { running 0 with agenda := [.host (.ctrlWrite 32 0 0)] } [] rfl, by decide⟩,
    ⟨.listed { running 0 with agenda := [.host (.bufRead .out 0)] } [] rfl, by decide⟩,
    ⟨.listed { running 0 with out := [(0, 7)], agenda := [.host (.bufRead .out 0)] } [] rfl, by decide⟩,
    ⟨.listed { running 0 with agenda := [.host (.ctrlRead 32 0x24)] } [] rfl, by decide⟩,
    ⟨.listed { running 0 with agenda := [.host (.ctrlRead 32 0x1C)] } [] rfl, by decide⟩,
    ⟨.listed { running 0 with agenda := [.host (.bufRead .inp 10)] } [] rfl, by decide +kernel⟩⟩

theorem witness_FaultRecordOnlyGrows :
    let s := base.addFault .ctrlAccessForm
    (∃ t, step s = .next t) ∧ (∀ rest, s.agenda ≠ .reset :: rest) ∧
      s.faults.has .ctrlAccessForm = true :=
  ⟨⟨_, rfl⟩, fun rest h => (nomatch (show ([] : List Event) = .reset :: rest from h)), rfl⟩

theorem witness_ResetGivesTheResetState :
    ({ running 0 with agenda := [.reset, .engine] } : State).agenda = .reset :: [.engine] := rfl

theorem witness_ResetMeetsTheInvariant : (⟨1, 1⟩ : Platform).legal ∧
    (⟨2 ^ 64 - 1, 2 ^ 64 - 1⟩ : Platform).legal := by decide

/-- A salted success with a one-byte result, on the smallest platform, with an issue as the next step. -/
def finished : State :=
  { State.resetOn ⟨1, 1⟩ [] [.host (.ctrlWrite 32 0x00 0x0A)] with
    done := true
    hdr := true
    outlenLo := 1
    out := [(0, 7)] }

theorem witness_EveryStepKeepsTheInvariant :
    Inv finished ∧ ∃ t, step finished = .next t ∧ t.isBusy = true :=
  ⟨{ platform_legal := by decide
     buffers_ok := fun sp => by cases sp <;> decide
     latched := fun op h => (nomatch (show Phase.idle = .busy op from h))
     busy_clear := by decide
     errcode_defined := by decide
     hdr_success := by decide
     error_outlen := by decide
     outlen_fits := by decide
     result_written := fun a h => by
       have h1 : a = 0 := Nat.lt_one_iff.mp h
       subst h1
       decide }, _, rfl, rfl⟩

theorem witness_InputCapacityIsCheckedFirst :
    (readsIn .aesEnc = true ∧
      ({ base with inlenLo := 4097 } : State).platform.inCap < ({ base with inlenLo := 4097 } : State).inBytes) ∧
    (running 0x06).phase = .busy (issue 0x06 base).snapshot := ⟨by decide, rfl⟩

theorem witness_KeyLengthIsCheckedNext :
    usesKey .aesEnc = true ∧ base.inBytes ≤ base.platform.inCap ∧
    ({ base with keylen := 63 } : State).keyBytes ≠ 16 ∧ ({ base with keylen := 63 } : State).keyBytes ≠ 24 ∧
    ({ base with keylen := 63 } : State).keyBytes ≠ 32 := by decide +kernel

/-- The block sizes 0, 256 and 257 are outside the ranges of all, of most and of ISO10126; no 9-bit value is
above NoPadding's. -/
theorem witness_BlockSizeIsCheckedNext :
    base.inBytes ≤ base.platform.inCap ∧ ({ base with blksz := 0 } : State).blockSize = 0 ∧
    ({ base with blksz := 256 } : State).blockSize > 255 ∧
    ({ base with blksz := 257 } : State).blockSize > 256 := by decide +kernel

theorem witness_IvLengthIsChecked :
    base.keyIs key16 ∧ base.inIs hello ∧ hello.take 8 ≠ magic ∧ base.ivBytes ≠ ivSize .gcm ∧
    (base.padsOn .gcm .noPad hello ∧ base.padsOn .cbc .iso10126 hello ∧ base.padsOn .cbc .pkcs7 hello) ∧
    ({ base with ivlen := 31 } : State).ivBytes ≠ ivSize .cbc := by decide +kernel

/-- One clause each: 11 and 17 bytes, 15 bytes, a header cut short, a body of 11 bytes, and a plaintext of 11. -/
theorem witness_MisalignedLengthsFail :
    (base.inBytes ≤ base.platform.inCap ∧ keySizeLegal base.keyBytes = true) ∧
    (base.inBytes % 16 ≠ 0 ∧ (withIn (rep 0 17)).inBytes ≠ 16 ∧ (withIn (rep 0 15)).inBytes < 16) ∧
    ((withIn (magic ++ rep 0 7)).keyIs key16 ∧ (withIn (magic ++ rep 0 7)).inIs (magic ++ rep 0 7) ∧
      (magic ++ rep 0 7).take 8 = magic ∧ (magic ++ rep 0 7).length < 16) ∧
    ((withIn (envelope.take 27)).keyIs key16 ∧ (withIn (envelope.take 27)).inIs (envelope.take 27) ∧
      (envelope.take 27).length % 16 ≠ 0 ∧ (envelope.take 27).take 8 = magic) ∧
    (base.inIs hello ∧ hello.length % 16 ≠ 0 ∧ base.ivIs .cbc (rep 0 16)) := by decide +kernel

theorem witness_RoomyPlatformNeverOverflows :
    base.platform.roomy ∧ base.errcode ≠ 9#4 ∧ base.inBytes ≤ base.platform.inCap ∧
    (⟨16, 272⟩ : Platform).roomy ∧ ∃ t, exec .padPkcs7 base = .next t :=
  ⟨by decide, by decide, by decide +kernel, by decide, _, rfl⟩

theorem witness_DrawsNeverDecideFailure :
    (rep 9 12).length = base.entropy.length ∧ (∃ t, exec (.buildHdr .cbc) base = .next t) ∧
    ∃ t, exec (.buildHdr .cbc) { base with entropy := rep 9 12 } = .next t :=
  ⟨by decide, ⟨_, rfl⟩, _, rfl⟩

/-- Each scheme's own largest block size, and NoPadding on whole blocks and on others. -/
theorem witness_PadCommandsPad :
    let s : State := { base with blksz := 255 }
    let n : State := { base with blksz := 11 }
    s.inIs hello ∧ blockSizeOk .pkcs7 s.blockSize = true ∧ blockSizeOk .zero s.blockSize = true ∧
    blockSizeOk .iso9797m2 s.blockSize = true ∧ blockSizeOk .ansix923 s.blockSize = true ∧
    s.fits (hello ++ rep (byteOf (padLen hello.length s.blockSize)) (padLen hello.length s.blockSize)) ∧
    s.fits (hello ++ rep 0#8 (padLen hello.length s.blockSize)) ∧
    s.fits (hello ++ [0x80#8] ++ rep 0#8 (padLen (hello.length + 1) s.blockSize)) ∧
    s.fits (hello ++ rep 0#8 (padLen hello.length s.blockSize - 1) ++
      [byteOf (padLen hello.length s.blockSize)]) ∧
    (blockSizeOk .noPad n.blockSize = true ∧ hello.length % n.blockSize = 0 ∧ n.fits hello) ∧
    (blockSizeOk .noPad s.blockSize = true ∧ hello.length % s.blockSize ≠ 0) := by decide +kernel

/-- The smallest and the largest block size. -/
theorem witness_PadIso10126DrawsItsFiller :
    (let s : State := { base with blksz := 256, entropy := rep 1 244 }
     s.inIs hello ∧ 1 ≤ s.blockSize ∧ s.blockSize ≤ 256 ∧
      s.drawIs (s.blockSize - hello.length % s.blockSize - 1) (rep 1 244) [] ∧
      s.fits (hello ++ rep 1 244 ++ [byteOf (s.blockSize - hello.length % s.blockSize)])) ∧
    (let s : State := { base with blksz := 1 }
     s.inIs hello ∧ 1 ≤ s.blockSize ∧ s.blockSize ≤ 256 ∧
      s.drawIs (s.blockSize - hello.length % s.blockSize - 1) [] s.entropy ∧
      s.fits (hello ++ [] ++ [byteOf (s.blockSize - hello.length % s.blockSize)])) := by decide +kernel

/-- One clause each, with one byte of padding and with as many as the block size. -/
theorem witness_UnpadCommandsStrip :
    (base.fits hello ∧ 1 ≤ 1 ∧ 16 ≤ base.blockSize) ∧
    (withIn (hello ++ rep (byteOf 16) 16)).inIs (hello ++ rep (byteOf 16) 16) ∧
    (withIn (hello ++ rep 0#8 (1 - 1) ++ [byteOf 1])).inIs (hello ++ rep 0#8 (1 - 1) ++ [byteOf 1]) ∧
    ((rep 7 4).length = 5 - 1 ∧
      (withIn (hello ++ rep 7 4 ++ [byteOf 5])).inIs (hello ++ rep 7 4 ++ [byteOf 5])) ∧
    (hello.getLast? ≠ some 0#8 ∧ (withIn (hello ++ rep 0#8 0)).inIs (hello ++ rep 0#8 0)) ∧
    ((0x80#8 : Byte) ≠ 0#8 ∧ (withIn (hello ++ [0x80#8] ++ rep 0#8 4)).inIs (hello ++ [0x80#8] ++ rep 0#8 4)) ∧
    (blockSizeOk .pkcs7 base.blockSize = true ∧ blockSizeOk .ansix923 base.blockSize = true ∧
      blockSizeOk .iso10126 base.blockSize = true ∧ blockSizeOk .zero base.blockSize = true ∧
      blockSizeOk .iso9797m2 base.blockSize = true ∧ blockSizeOk .noPad base.blockSize = true) ∧
    (key16.length % base.blockSize = 0 ∧ (withIn key16).inIs key16 ∧ (withIn key16).fits key16) := by
  decide +kernel

/-- One clause each: no data, a count of 0, one above the block size, one above the length, a wrong filler, only
zeros, and a length that is not whole blocks. -/
theorem witness_UnpadCommandsReject :
    ((withIn []).inIs [] ∧ (withIn [1, 0]).inIs [1, 0] ∧ ([1, 0] : Bytes).getLast? = some 0#8) ∧
    ((withIn [17]).inIs [17] ∧ ([17] : Bytes).getLast? = some 17#8 ∧ base.blockSize < (17#8 : Byte).toNat) ∧
    ((withIn [2]).inIs [2] ∧ ([2] : Bytes).getLast? = some 2#8 ∧ ([2] : Bytes).length < (2#8 : Byte).toNat) ∧
    ((withIn [1, 2]).inIs [1, 2] ∧ ([1, 2] : Bytes).getLast? = some 2#8 ∧
      (2#8 : Byte).toNat ≤ ([1, 2] : Bytes).length ∧ (1#8 ∈ ([1, 2] : Bytes).drop (2 - (2#8 : Byte).toNat)) ∧
      (1#8 ∈ (([1, 2] : Bytes).drop (2 - (2#8 : Byte).toNat)).dropLast) ∧ (1#8 : Byte) ≠ 2#8 ∧
      (1#8 : Byte) ≠ 0#8) ∧
    ((withIn [0, 0]).inIs [0, 0] ∧ (∀ x ∈ ([0, 0] : Bytes), x = 0#8)) ∧
    (base.inIs hello ∧ hello.length % base.blockSize ≠ 0) := by decide +kernel

/-- Each right-hand side of the round trip, met and not met. -/
theorem witness_PaddingRoundTrips :
    (blockSizeOk .pkcs7 16 = true ∧ ([] : Bytes).length = fillerLen .pkcs7 hello.length 16) ∧
    (blockSizeOk .iso10126 256 = true ∧ (rep 1 255).length = fillerLen .iso10126 ([] : Bytes).length 256 ∧
      ¬ (256 ≤ 255 ∨ ([] : Bytes).length % 256 ≠ 0)) ∧
    (blockSizeOk .noPad 11 = true ∧ hello.length % 11 = 0 ∧ blockSizeOk .noPad 511 = true ∧
      hello.length % 511 ≠ 0) ∧
    (blockSizeOk .zero 255 = true ∧ ([1, 0] : Bytes).getLast? = some 0#8) := by decide +kernel

/-- A failure by each check, and a success at the largest block size. -/
theorem witness_PadFailsOnlyByItsChecks :
    pad .pkcs7 hello 256 [] = .error .paddingValidation ∧ pad .noPad hello 16 [] = .error .blockAlignment ∧
    (Scheme.iso10126 ≠ .noPad ∧ blockSizeOk .iso10126 256 = true ∧
      (rep 1 244).length = fillerLen .iso10126 hello.length 256) := by decide +kernel

theorem witness_DeriveReturnsKeyMaterial : 32 ≤ 48 ∧
    keySizeLegal base.keyBytes = true ∧ base.saltIs salt8 ∧ base.inIs hello ∧
    base.keyBytes + ivSize .cbc ≤ base.platform.outCap := by decide +kernel

theorem witness_BuildHdrReturnsHeaderAndMaterial :
    let s : State := { base with entropy := salt8 ++ [1] }
    s.keyIs key16 ∧ s.drawIs 8 salt8 [1] ∧ 16 + s.keyBytes + ivSize .gcm ≤ s.platform.outCap := by
  decide +kernel

theorem witness_ParseHdrReturnsKeyMaterial :
    let s := withIn (envelope.take 16)
    s.keyIs key16 ∧ 16 ≤ s.inBytes ∧ s.inBytes ≤ s.platform.inCap ∧ s.inp.readRange 8 8 = some salt8 ∧
    s.keyBytes + ivSize .ecb ≤ s.platform.outCap := by decide +kernel

theorem witness_ParseHdrRecoversWhatBuildHdrAppended :
    let s : State := { base with entropy := salt8 }
    let t := withIn (envelope.take 16)
    (s.keyIs key16 ∧ s.drawIs 8 salt8 [] ∧ s.platform.legal ∧ 16 + s.keyBytes + ivSize .cbc ≤ s.platform.outCap ∧
      t.keyIs key16 ∧ t.keyBytes = s.keyBytes ∧ t.inIs (envelope.take 16) ∧
      s.keyBytes + ivSize .cbc ≤ t.platform.outCap ∧ s.out.wf = true) ∧
    (match exec (.buildHdr .cbc) s with
      | .next s' => s'.out.readRange 0 16 == some (envelope.take 16)
      | .fault _ => false
      | .refused _ => false) = true := by decide +kernel

theorem witness_AesCommandsReturnTheCipher :
    (withIn key16).keyIs key16 ∧ (withIn key16).inIs key16 ∧ key16.length = 16 ∧
    16 ≤ (withIn key16).platform.outCap := by decide +kernel

theorem witness_EcbCommandsTransformEachBlock :
    (withIn envelope).keyIs key16 ∧ (withIn envelope).inIs envelope ∧ envelope.length % 16 = 0 ∧
    envelope.length ≤ (withIn envelope).platform.outCap ∧ 16 * 1 < envelope.length := by decide +kernel

theorem witness_CipherInverts :
    (keySizeLegal (rep 0 16).length = true ∧ keySizeLegal (rep 0 24).length = true ∧
      keySizeLegal (rep 0 32).length = true) ∧ key16.length = 16 := by decide

theorem witness_ModeRecurrences : key16.length = 16 ∧ (rep 0 16).length ≤ 16 ∧ ([] : Bytes).length ≤ 16 ∧
    (rep 0 32).length % 16 = 0 := by
  decide

/-- Clauses with data at the bound and over it: strings of any length exist, and a tag has 2^128 − 1 rivals. -/
theorem witness_GcmOpensOnlyWhatItsTagCovers :
    (∃ p : Bytes, p.length ≤ (2 ^ 32 - 2) * 16) ∧ (∃ p : Bytes, (2 ^ 32 - 2) * 16 < p.length) ∧
    ((rep 0 16).length = 16 ∧ rep 0 16 ≠ gcmTagOf key16 (rep 0 12) hello) ∧ hello.length < 16 ∧
    (rep 0 12).length = 12 :=
  ⟨⟨[], by simp⟩, ⟨List.replicate ((2 ^ 32 - 2) * 16 + 1) 0, by rw [List.length_replicate]; omega⟩,
    by decide +kernel, by decide, by decide⟩

/-- A state whose IN holds a plaintext of any length there can be. -/
theorem witness_long_plaintext (n : Nat) (h : n < 2 ^ 64) :
    ∃ (s : State) (p : Bytes), s.keyIs key16 ∧ s.inIs p ∧ s.ivIs .gcm (rep 0 12) ∧ p.length = n ∧
      p.length + 16 ≤ s.platform.outCap := by
  have hw := Memory.readRange_writeRange (m := []) rfl 0 (List.replicate n (0 : Byte))
  rw [List.length_replicate] at hw
  have hin : (BitVec.ofNat 32 (n / 2 ^ 32) ++ BitVec.ofNat 32 n : BitVec 64).toNat = n := by
    rw [BitVec.toNat_append, BitVec.toNat_ofNat, BitVec.toNat_ofNat, Nat.shiftLeft_eq,
      Nat.mod_eq_of_lt (show n / 2 ^ 32 < 2 ^ 32 by omega),
      Nat.mul_comm, ← Nat.two_pow_add_eq_or_of_lt (Nat.mod_lt n (by decide : 2 ^ 32 > 0))]
    omega
  let s : State := { ready key16 (rep 0 12) [] [] 0 [] with
    platform := ⟨2 ^ 64, 2 ^ 65⟩
    inlenLo := BitVec.ofNat 32 n
    inlenHi := BitVec.ofNat 32 (n / 2 ^ 32)
    inp := Memory.writeRange [] 0 (List.replicate n 0) }
  have hb : s.inBytes = n := hin
  refine ⟨s, List.replicate n 0, ?_, ⟨?_, ?_⟩, ?_, by simp, ?_⟩
  · show (ready key16 (rep 0 12) [] [] 0 []).keyIs key16
    decide +kernel
  · rw [hb]
    exact Nat.le_of_lt h
  · rw [hb]
    exact hw
  · show (ready key16 (rep 0 12) [] [] 0 []).ivIs .gcm (rep 0 12)
    decide +kernel
  · rw [List.length_replicate]
    show n + 16 ≤ 2 ^ 65
    omega

/-- The clauses of the modes with a 16-byte IV, GCM's, and the plaintext that is too large. -/
theorem witness_EncryptWithIvInStreamModes :
    (base.keyIs key16 ∧ base.inIs hello ∧ base.ivIs .cfb (rep 0 16) ∧ base.ivIs .ctr (rep 0 16) ∧
      base.ivIs .ofb (rep 0 16) ∧ base.fits hello) ∧
    (let s : State := { base with ivlen := 12 }
     s.ivIs .gcm (rep 0 12) ∧ hello.length + 16 ≤ s.platform.outCap) ∧
    ∃ (s : State) (p : Bytes), s.keyIs key16 ∧ s.inIs p ∧ s.ivIs .gcm (rep 0 12) ∧ gcmMax < p.length ∧
      p.length + 16 ≤ s.platform.outCap := by
  refine ⟨by decide +kernel, by decide +kernel, ?_⟩
  obtain ⟨s, p, hk, hi, hv, hl, ho⟩ := witness_long_plaintext (gcmMax + 1) (by decide)
  exact ⟨s, p, hk, hi, hv, by omega, ho⟩

theorem witness_EncryptPadsInCbcAndEcb :
    base.keyIs key16 ∧ base.inIs hello ∧
    base.drawIs (fillerLen .iso10126 hello.length 16) (be 0xb0b1b2b3 4) salt8 ∧
    pad .iso10126 hello 16 (be 0xb0b1b2b3 4) = .ok (hello ++ be 0xb0b1b2b305 5) ∧
    base.fits (hello ++ be 0xb0b1b2b305 5) ∧ base.ivIs .cbc (rep 0 16) := by decide +kernel

/-- CBC with a drawn filler, and CTR, whose expected envelope is that of 95_test_vectors.md L2.7 row 17. -/
theorem witness_EncryptWithoutIvIsSalted :
    (base.keyIs key16 ∧ base.inIs hello ∧ base.entropy = be 0xb0b1b2b3 4 ++ salt8 ++ [] ∧ salt8.length = 8 ∧
      (be 0xb0b1b2b3 4).length = fillerLen .iso10126 hello.length 16 ∧
      pad .iso10126 hello 16 (be 0xb0b1b2b3 4) = .ok (hello ++ be 0xb0b1b2b305 5)) ∧
    (let s : State := { base with entropy := salt8 }
     s.entropy = [] ++ salt8 ++ [] ∧
      (match modeEncrypt .ctr (deriveKeyMaterial salt8 key16 s.keyBytes (s.keyBytes + ivSize .ctr)).1
          (deriveKeyMaterial salt8 key16 s.keyBytes (s.keyBytes + ivSize .ctr)).2 hello with
        | .ok c => c == be 0xfa46b5a446ecdfa00adcd7 11
        | .error _ => false) = true ∧
      s.fits (magic ++ salt8 ++ be 0xfa46b5a446ecdfa00adcd7 11)) := by decide +kernel

/-- CBC and ECB on the ciphertext of 95_test_vectors.md L2.7 row 1, and a GCM body whose tag is wrong. -/
theorem witness_DecryptWithoutHeader :
    (let c := be 0x8169bed4ef49a8874559c5b200daade7 16
     let s := withIn c
     s.keyIs key16 ∧ s.inIs c ∧ c.take 8 ≠ magic ∧ s.ivIs .cbc (rep 0 16) ∧ c.length % 16 = 0 ∧
      (match modeDecrypt .cbc key16 (rep 0 16) c with
        | .ok p => decide (unpad .pkcs7 p 16 = .ok hello) && decide (unpad .zero p 16 = .ok p)
        | .error _ => false) = true ∧ s.fits hello) ∧
    (let s : State := { base with ivlen := 12 }
     s.ivIs .gcm (rep 0 12) ∧ modeDecrypt .gcm key16 (rep 0 12) hello = .error .authenticationFailure) ∧
    (modeDecrypt .ctr key16 (rep 0 16) (be 0x63fe79b62464d79a6771ab 11) = .ok hello) ∧
    unpad .ansix923 hello 16 = .error .paddingValidation := by decide +kernel

/-- The envelope of 95_test_vectors.md L2.7 row 13, with an IV set or not. -/
theorem witness_DecryptWithHeader :
    let c := envelope.drop 16
    let s := withIn envelope
    s.keyIs key16 ∧ s.inIs (magic ++ salt8 ++ c) ∧ salt8.length = 8 ∧ c.length % 16 = 0 ∧
    (match modeDecrypt .cbc (deriveKeyMaterial salt8 key16 s.keyBytes (s.keyBytes + ivSize .cbc)).1
        (deriveKeyMaterial salt8 key16 s.keyBytes (s.keyBytes + ivSize .cbc)).2 c with
      | .ok p => decide (unpad .pkcs7 p 16 = .ok hello)
      | .error _ => false) = true ∧ s.fits hello := by decide +kernel

theorem witness_ExplicitIvRoundTrip :
    let c := be 0x8169bed4ef49a8874559c5b200daade7 16
    let t := withIn c
    (base.platform.legal ∧ base.out.wf = true ∧ base.done = false ∧ base.keyIs key16 ∧ base.inIs hello ∧
      base.ivIs .cbc (rep 0 16) ∧ hello.getLast? ≠ some 0#8) ∧
    (match exec (encryptInstr .cbc .pkcs7 true) base with
      | .next s' => s'.done && s'.errcode == 0#4 && s'.out.readRange 0 s'.outlen.toNat == some c
      | .fault _ => false
      | .refused _ => false) = true ∧
    (c.take 8 ≠ magic ∧ t.keyIs key16 ∧ t.inIs c ∧ t.ivIs .cbc (rep 0 16) ∧ t.fits hello) := by decide +kernel

theorem witness_SaltedRoundTrip :
    let s : State := { base with entropy := salt8 }
    let t := withIn envelope
    (Mode.cbc ≠ .ecb ∧ s.platform.legal ∧ s.out.wf = true ∧ s.done = false ∧ s.keyIs key16 ∧ s.inIs hello ∧
      hello.getLast? ≠ some 0#8) ∧
    (match exec (encryptInstr .cbc .pkcs7 false) s with
      | .next s' => s'.done && s'.errcode == 0#4 && s'.out.readRange 0 s'.outlen.toNat == some envelope
      | .fault _ => false
      | .refused _ => false) = true ∧
    (t.keyIs key16 ∧ t.keyBytes = s.keyBytes ∧ t.inIs envelope ∧ t.fits hello) := by decide +kernel

theorem witness_DeriveAndPadIgnoreKeyAllIgnoreOutEcbIgnoresIv :
    (∃ m, Instr.derive .cbc = .derive m) ∧ (∃ sch, Instr.padZero = padInstr sch) ∧
    ∃ sch, Instr.unpadZero = unpadInstr sch :=
  ⟨⟨.cbc, rfl⟩, ⟨.zero, rfl⟩, .zero, rfl⟩

/-- Two engines, and the platform with one engine right after reset. -/
theorem witness_EnginesAreIndependent :
    (0 ≠ 1 ∧ (⟨[running 0x801, base]⟩ : Cluster).legal) ∧ (Platform.default.legal ∧ 1 ≤ 1) ∧
    ¬ (⟨[]⟩ : Cluster).legal := by decide

/-! ### The host's program -/

/-- What a program's name holds after a run of a session. -/
def bound (y : String) : Host.Outcome Session Fault Refusal → Option Value
  | .next c => some (lookupName y c.names)
  | .fault _ => none
  | .refused _ => none

/-- How many statements of the program are left. -/
def left : Host.Outcome Session Fault Refusal → Option Nat
  | .next c => some c.program.length
  | .fault _ => none
  | .refused _ => none

/-- 40_padding.md R147's example as a host's program from reset: SETIN "abc", SETBLK 8, CMD, WAIT, GETOUT; the
engine completes after the third poll. -/
theorem test_program_reads_the_padded_data :
    bound "y" (Session.run (List.replicate 11 .host ++ [.engine] ++ List.replicate 13 .host)
      ⟨State.reset, setIn [0x61, 0x62, 0x63] ++ setBlk 8 ++ cmd .padPkcs7 ++ wait "x" ++ getOut "y", []⟩) =
      some (.bytes [0x61, 0x62, 0x63, 5, 5, 5, 5, 5]) := by decide +kernel

/-- R117: WAIT does not end while the draw of BUILD_HDR is not answered, and ends once it is. -/
theorem test_wait_loops_until_done :
    let c : Session := ⟨{ running 0x06 with entropy := [] }, wait "x", []⟩
    left (Session.run [.host, .engine, .host, .engine, .host] c) = some 1 ∧
    left (Session.run [.host, .engine, .entropy salt8, .engine, .host] c) = some 0 := by decide +kernel

/-- UNPAD.NONE of 16 bytes is in flight and returns them. -/
theorem witness_WaitThenGetOutReadsTheResult :
    let s := issue 0x504 (withIn key16)
    s.platform.legal ∧ s.out.wf = true ∧ s.done = false ∧ s.phase = .busy (withIn key16 |> issue 0x504).operands ∧
    decode s.operands.cmd = .ok .unpadNone ∧ ruleOf .unpadNone s s.entropy = .done ⟨key16, false⟩ s.entropy ∧
    s.fits key16 := by decide +kernel

end Sys2Proof.Tests
end

section
/-! SUPPORT. The statements on the state (spec 10_state.md): what each operation keeps of the invariant and of
BUSY and FAULT, the frame of a completion, where HDR comes from, and the engines of a cluster. -/

namespace Sys2Proof.Machine

/-! ### The invariant, one lemma per operation -/

/-- The invariant reads neither FAULT, nor the answers, nor what the host was returned, nor the agenda. -/
theorem Inv.bookkeeping {s : State} (h : Inv s) (f : FaultSet) (e : Bytes) (v : Returned) (ev : List Event) :
    Inv { s with faults := f, entropy := e, returned := v, agenda := ev } where
  platform_legal := h.platform_legal
  buffers_ok := h.buffers_ok
  latched := h.latched
  busy_clear := h.busy_clear
  errcode_defined := h.errcode_defined
  hdr_success := h.hdr_success
  error_outlen := h.error_outlen
  outlen_fits := h.outlen_fits
  result_written := h.result_written

theorem Inv.agenda {s : State} (h : Inv s) (ev : List Event) : Inv { s with agenda := ev } :=
  h.bookkeeping s.faults s.entropy s.returned ev

theorem Inv.entropy {s : State} (h : Inv s) (e : Bytes) : Inv { s with entropy := e } :=
  h.bookkeeping s.faults e s.returned s.agenda

theorem Inv.returned {s : State} (h : Inv s) (v : Returned) : Inv { s with returned := v } :=
  h.bookkeeping s.faults s.entropy v s.agenda

theorem Inv.addFault {s : State} (h : Inv s) (f : Fault) : Inv (s.addFault f) :=
  h.bookkeeping (s.faults.add f) s.entropy s.returned s.agenda

theorem Inv.hostFault {s : State} (h : Inv s) (f : Fault) : Inv (hostFault f s) :=
  (h.addFault f).returned .nothing

/-- No error has code 0 or a code above 9 (R38, R400). -/
theorem errCode_range (e : Err) : errCode e ≠ 0#4 ∧ (errCode e).toNat ≤ 9 := by
  cases e <;> decide

@[simp] theorem outlen_resetOn (p : Platform) (answers : Bytes) (events : List Event) :
    (State.resetOn p answers events).outlen = 0#64 := by
  simp [State.outlen, State.resetOn]

theorem inv_resetOn {p : Platform} (hp : p.legal) (answers : Bytes) (events : List Event) :
    Inv (State.resetOn p answers events) where
  platform_legal := hp
  buffers_ok sp := by cases sp <;> exact ⟨rfl, rfl⟩
  latched _ h := nomatch h
  busy_clear h := nomatch h
  errcode_defined := Nat.zero_le 9
  hdr_success h := nomatch h
  error_outlen h := absurd rfl h
  outlen_fits := by simp
  result_written a h := by simp at h

/-- An issue latches what the registers hold and clears STATUS; the old result stays (R405). -/
theorem Inv.issue {s : State} (h : Inv s) (w : Word) : Inv (issue w s) where
  platform_legal := h.platform_legal
  buffers_ok := h.buffers_ok
  latched op hop := by injection hop with hop; exact hop.symm
  busy_clear _ := ⟨rfl, rfl, rfl⟩
  errcode_defined := Nat.zero_le 9
  hdr_success hh := nomatch hh
  error_outlen he := absurd rfl he
  outlen_fits := h.outlen_fits
  result_written := h.result_written

/-- While idle nothing is latched, so the length registers are free to change. -/
theorem Inv.lengths {s : State} (h : Inv s) (hidle : s.isBusy = false) (k : BitVec 6) (n : BitVec 5)
    (b : BitVec 9) (lo hi : Word) :
    Inv { s with keylen := k, ivlen := n, blksz := b, inlenLo := lo, inlenHi := hi } where
  platform_legal := h.platform_legal
  buffers_ok := h.buffers_ok
  latched _ hop := nomatch ((not_isBusy_iff s).1 hidle).symm.trans hop
  busy_clear := h.busy_clear
  errcode_defined := h.errcode_defined
  hdr_success := h.hdr_success
  error_outlen := h.error_outlen
  outlen_fits := h.outlen_fits
  result_written := h.result_written

theorem Inv.writeReg {s : State} (h : Inv s) (hidle : s.isBusy = false) (off : Nat) (v : Word) :
    Inv (writeReg s off v) := by
  obtain ⟨k, n, b, lo, hi, hw⟩ := writeReg_eq s off v
  rw [hw]
  exact h.lengths hidle k n b lo hi

/-- One buffer other than OUT may be replaced by another of the canonical form below the size. -/
theorem Inv.setBuffer {s : State} (h : Inv s) {sp : Space} {m : Memory} (hsp : sp ≠ .out) (hwf : m.wf = true)
    (hin : m.within (sp.size s.platform) = true) : Inv (s.setBuffer sp m) := by
  have hbuf : ∀ sp', (s.setBuffer sp m).bufferOk sp' := by
    intro sp'
    unfold State.bufferOk
    by_cases hs : sp' = sp
    · subst hs
      simpa using ⟨hwf, hin⟩
    · rw [setBuffer_buffer_other s m hs, setBuffer_platform]
      exact h.buffers_ok sp'
  cases sp with
  | out => exact absurd rfl hsp
  | key | iv | salt | inp => exact {
      platform_legal := h.platform_legal
      buffers_ok := hbuf
      latched := h.latched
      busy_clear := h.busy_clear
      errcode_defined := h.errcode_defined
      hdr_success := h.hdr_success
      error_outlen := h.error_outlen
      outlen_fits := h.outlen_fits
      result_written := h.result_written }

theorem Inv.writeByte {s : State} (h : Inv s) {sp : Space} {addr : Nat} (hsp : sp ≠ .out)
    (haddr : addr < sp.size s.platform) (b : Byte) :
    Inv (s.setBuffer sp ((s.buffer sp).write addr b)) := by
  obtain ⟨hwf, hin⟩ := h.buffers_ok sp
  exact h.setBuffer hsp (Memory.wf_write hwf addr b) (Memory.within_write b hin haddr)

/-- A result that fits a legal OUT has a 64-bit length (R9, R43). -/
theorem outlen_completeOk_toNat {s : State} (hp : s.platform.legal) {r : Bytes} (hr : s.fits r) (hdr : Bool) :
    (completeOk r hdr s).outlen.toNat = r.length := by
  obtain ⟨-, -, -, hout⟩ := hp
  rw [outlen_completeOk, BitVec.toNat_ofNat]
  exact Nat.mod_eq_of_lt (by omega)

/-- After a success exactly the bytes below OUTLEN are the result's, and the others are as they were (R410). -/
theorem read_out_completeOk {s : State} (hwf : s.out.wf = true) (r : Bytes) (hdr : Bool) (a : Nat) :
    (completeOk r hdr s).out.read a = if a < r.length then r[a]? else s.out.read a := by
  simp [Memory.read_writeRange hwf]

theorem Inv.completeOk {s : State} (h : Inv s) {r : Bytes} (hr : s.fits r) (hdr : Bool) :
    Inv (completeOk r hdr s) := by
  have hlen := outlen_completeOk_toNat h.platform_legal hr hdr
  obtain ⟨hwf, hin⟩ := h.buffers_ok .out
  exact {
    platform_legal := h.platform_legal
    buffers_ok := fun sp => by
      cases sp with
      | out => exact ⟨Memory.wf_writeRange hwf 0 r, Memory.within_writeRange hin (by rwa [Nat.zero_add])⟩
      | key => exact h.buffers_ok .key
      | iv => exact h.buffers_ok .iv
      | salt => exact h.buffers_ok .salt
      | inp => exact h.buffers_ok .inp
    latched := fun _ hop => nomatch hop
    busy_clear := fun hb => nomatch hb
    errcode_defined := Nat.zero_le 9
    hdr_success := fun _ => ⟨rfl, rfl⟩
    error_outlen := fun he => absurd rfl he
    outlen_fits := hlen.le.trans hr
    result_written := fun a ha => by
      rw [hlen] at ha
      rw [read_out_completeOk hwf, if_pos ha]
      simpa using ha }

theorem Inv.completeErr {s : State} (h : Inv s) (e : Err) : Inv (completeErr e s) where
  platform_legal := h.platform_legal
  buffers_ok := h.buffers_ok
  latched _ hop := nomatch hop
  busy_clear hb := nomatch hb
  errcode_defined := (errCode_range e).2
  hdr_success hh := nomatch hh
  error_outlen _ := ⟨rfl, outlen_completeErr s e⟩
  outlen_fits := by simp
  result_written a ha := by simp at ha

/-! ### The invariant, one lemma per agent -/

theorem Inv.exec {i : Instr} {s t : State} (h : Inv s) (ht : exec i s = .next t) : Inv t := by
  obtain ⟨r, e, -, hr, rfl⟩ | ⟨r, e, -, -, rfl⟩ | ⟨err, e, -, rfl⟩ | ⟨-, rfl⟩ | ⟨-, rfl⟩ := exec_cases ht
  · exact (h.entropy e).completeOk hr r.hdr
  · exact (h.entropy e).completeErr .capacity
  · exact (h.entropy e).completeErr err
  · exact h.addFault .unwrittenOperand
  · exact h

theorem Inv.engineStep {s t : State} (h : Inv s) (ht : engineStep s = .next t) : Inv t := by
  obtain ⟨-, rfl⟩ | ⟨op, i, -, -, hx⟩ | ⟨op, e, -, -, rfl⟩ := engineStep_cases ht
  · exact h
  · exact h.exec hx
  · exact h.completeErr e

theorem Inv.hostStep {s : State} (h : Inv s) (a : Access) : Inv (hostStep a s) := by
  obtain ⟨f, ht⟩ | ⟨f, g, ht⟩ | ⟨v, ht⟩ | ⟨w, -, -, ht⟩ | ⟨off, v, hidle, ht⟩ |
    ⟨sp, addr, b, hsp, haddr, -, ht⟩ := hostStep_cases a s <;> rw [ht]
  · exact h.hostFault f
  · exact (h.addFault g).hostFault f
  · exact h.returned v
  · exact (h.returned .nothing).issue w
  · exact (h.returned .nothing).writeReg hidle off v
  · exact (h.returned .nothing).writeByte hsp haddr b

theorem Inv.step {s t : State} (h : Inv s) (ht : step s = .next t) : Inv t := by
  obtain ⟨-, he⟩ | ⟨rest, -, he⟩ | ⟨a, rest, -, rfl⟩ | ⟨bs, rest, -, rfl⟩ | ⟨rest, -, rfl⟩ := step_cases ht
  · exact h.engineStep he
  · exact (h.agenda rest).engineStep he
  · exact (h.agenda rest).hostStep a
  · exact (h.agenda rest).entropy (s.entropy ++ bs)
  · exact inv_resetOn h.platform_legal s.entropy rest

/-- Settles O27: every operation of a step keeps the invariant, which starts afresh at reset. -/
theorem everyStepKeepsTheInvariant : Obligations.EveryStepKeepsTheInvariant :=
  fun _ _ h ht => h.step ht

/-! ### The frame of a completion, and FAULT -/

/-- Adding a reason keeps every reason already there. -/
theorem add_has_of_has (fs : FaultSet) (f : Fault) {g : Fault} (h : fs.has g = true) :
    (fs.add f).has g = true := by
  rw [add_has, h, Bool.or_true]

/-- A command records nothing, or the unwritten byte it read (R78). -/
theorem exec_faults {i : Instr} {s t : State} (ht : exec i s = .next t) :
    t.faults = s.faults ∨ t.faults = s.faults.add .unwrittenOperand := by
  obtain ⟨r, e, -, -, rfl⟩ | ⟨r, e, -, -, rfl⟩ | ⟨err, e, -, rfl⟩ | ⟨-, rfl⟩ | ⟨-, rfl⟩ := exec_cases ht
  · exact .inl rfl
  · exact .inl rfl
  · exact .inl rfl
  · exact .inr rfl
  · exact .inl rfl

/-- The fields a command may write; all others stay. -/
theorem exec_frame {i : Instr} {s t : State} (ht : exec i s = .next t) :
    t = { s with
      phase := t.phase, done := t.done, hdr := t.hdr, errcode := t.errcode, outlenLo := t.outlenLo
      outlenHi := t.outlenHi, out := t.out, faults := t.faults, entropy := t.entropy } := by
  obtain ⟨r, e, -, -, rfl⟩ | ⟨r, e, -, -, rfl⟩ | ⟨err, e, -, rfl⟩ | ⟨-, rfl⟩ | ⟨-, rfl⟩ := exec_cases ht <;> rfl

/-- A command uses up answers from the front only (R430). -/
theorem exec_entropy {i : Instr} {s t : State} (ht : exec i s = .next t) :
    ∃ n, t.entropy = s.entropy.drop n := by
  obtain ⟨hdone, hraised⟩ := drops_ruleOf i s s.entropy
  obtain ⟨r, e, hr, -, rfl⟩ | ⟨r, e, hr, -, rfl⟩ | ⟨err, e, hr, rfl⟩ | ⟨-, rfl⟩ | ⟨-, rfl⟩ := exec_cases ht
  · exact hdone r e hr
  · exact hdone r e hr
  · exact hraised err e hr
  · exact ⟨0, rfl⟩
  · exact ⟨0, rfl⟩

/-- A command writes OUT only by a success, and then only the bytes of its result (R410, R411). -/
theorem exec_out {i : Instr} {s t : State} (ht : exec i s = .next t) :
    (∃ (r : Result) (e : Bytes), s.fits r.bytes ∧ t = completeOk r.bytes r.hdr { s with entropy := e }) ∨
      t.out = s.out := by
  obtain ⟨r, e, -, hfit, rfl⟩ | ⟨r, e, -, -, rfl⟩ | ⟨err, e, -, rfl⟩ | ⟨-, rfl⟩ | ⟨-, rfl⟩ := exec_cases ht
  · exact .inl ⟨r, e, hfit, rfl⟩
  · exact .inr rfl
  · exact .inr rfl
  · exact .inr rfl
  · exact .inr rfl

/-- OUT keeps its bytes from the new OUTLEN up. -/
theorem exec_out_above {i : Instr} {s t : State} (hp : s.platform.legal) (hwf : s.out.wf = true)
    (ht : exec i s = .next t) {a : Nat} (ha : t.outlen.toNat ≤ a) : t.out.read a = s.out.read a := by
  obtain ⟨r, e, hfit, rfl⟩ | ho := exec_out ht
  · rw [outlen_completeOk_toNat (s := { s with entropy := e }) hp hfit] at ha
    rw [read_out_completeOk (s := { s with entropy := e }) hwf, if_neg (Nat.not_lt.2 ha)]
  · rw [ho]

theorem exec_out_of_error {i : Instr} {s t : State} (ht : exec i s = .next t) (he : t.errcode ≠ 0#4) :
    t.out = s.out := by
  obtain ⟨r, e, -, rfl⟩ | ho := exec_out ht
  · exact absurd rfl he
  · exact ho

/-- Settles O10: each clause is what the five ways a command can end have in common. -/
theorem commandFrame : Obligations.CommandFrame :=
  fun _ _ _ hp hwf ht => ⟨exec_frame ht, exec_entropy ht, exec_faults ht,
    fun _ ha => exec_out_above hp hwf ht ha, exec_out_of_error ht⟩

theorem engineStep_keeps_fault {s t : State} (ht : engineStep s = .next t) {f : Fault}
    (h : s.faults.has f = true) : t.faults.has f = true := by
  obtain ⟨-, rfl⟩ | ⟨op, i, -, -, hx⟩ | ⟨op, e, -, -, rfl⟩ := engineStep_cases ht
  · exact h
  · obtain hf | hf := exec_faults hx <;> rw [hf]
    · exact h
    · exact add_has_of_has _ _ h
  · exact h

theorem hostStep_keeps_fault (a : Access) {s : State} {f : Fault} (h : s.faults.has f = true) :
    (hostStep a s).faults.has f = true := by
  obtain ⟨g, ht⟩ | ⟨g, g', ht⟩ | ⟨v, ht⟩ | ⟨w, -, -, ht⟩ | ⟨off, v, -, ht⟩ | ⟨sp, addr, b, -, -, -, ht⟩ :=
    hostStep_cases a s <;> rw [ht]
  · exact add_has_of_has _ g h
  · exact add_has_of_has _ g (add_has_of_has _ g' h)
  · exact h
  · exact h
  · rwa [writeReg_faults]
  · rwa [setBuffer_faults]

/-- Settles O24: every agent's step keeps the reasons, and only reset's empties the record. -/
theorem faultRecordOnlyGrows : Obligations.FaultRecordOnlyGrows := by
  intro s t f ht hreset hf
  obtain ⟨-, he⟩ | ⟨rest, -, he⟩ | ⟨a, rest, -, rfl⟩ | ⟨bs, rest, -, rfl⟩ | ⟨rest, ha, -⟩ := step_cases ht
  · exact engineStep_keeps_fault he hf
  · exact engineStep_keeps_fault he hf
  · exact hostStep_keeps_fault a hf
  · exact hf
  · exact absurd ha (hreset rest)

/-! ### BUSY -/

theorem isBusy_eq_of_phase_eq {s t : State} (h : t.phase = s.phase) : t.isBusy = s.isBusy := by
  simp only [State.isBusy, h]

/-- The engine never sets BUSY: while idle it does nothing (R443). -/
theorem engineStep_idle {s t : State} (hidle : s.isBusy = false) (ht : engineStep s = .next t) : t = s := by
  have hp := (not_isBusy_iff s).1 hidle
  obtain ⟨-, h⟩ | ⟨op, i, hop, -⟩ | ⟨op, e, hop, -⟩ := engineStep_cases ht
  · exact h
  · exact nomatch hp.symm.trans hop
  · exact nomatch hp.symm.trans hop

/-- A host access leaves BUSY, or sets it by a write of CMD (R405). -/
theorem hostStep_isBusy (a : Access) (s : State) :
    (hostStep a s).isBusy = s.isBusy ∨
      (∃ w, a = .ctrlWrite 32 0x00 w) ∧ (hostStep a s).isBusy = true := by
  obtain ⟨f, ht⟩ | ⟨f, g, ht⟩ | ⟨v, ht⟩ | ⟨w, ha, -, ht⟩ | ⟨off, v, -, ht⟩ | ⟨sp, addr, b, -, -, -, ht⟩ :=
    hostStep_cases a s <;> rw [ht]
  · exact .inl rfl
  · exact .inl rfl
  · exact .inl rfl
  · exact .inr ⟨⟨w, ha⟩, rfl⟩
  · exact .inl (isBusy_eq_of_phase_eq (writeReg_phase _ off v))
  · exact .inl (isBusy_eq_of_phase_eq (setBuffer_phase _ sp _))

/-- Settles O15: the engine sets nothing while idle, the host clears nothing and sets only by CMD, an answer changes
neither. -/
theorem busyChangesOnlyByIssueAndCompletion : Obligations.BusyChangesOnlyByIssueAndCompletion := by
  intro s t ht
  obtain ⟨ha, he⟩ | ⟨rest, ha, he⟩ | ⟨a, rest, ha, rfl⟩ | ⟨bs, rest, ha, rfl⟩ | ⟨rest, ha, rfl⟩ := step_cases ht
  · refine ⟨fun hidle hbusy => ?_, fun _ _ => .inl ha⟩
    rw [engineStep_idle hidle he] at hbusy
    exact nomatch hidle.symm.trans hbusy
  · refine ⟨fun hidle hbusy => ?_, fun _ _ => .inr (.inl ⟨rest, ha⟩)⟩
    rw [engineStep_idle (s := { s with agenda := rest }) hidle he] at hbusy
    exact nomatch hidle.symm.trans hbusy
  · obtain hb | ⟨⟨w, rfl⟩, hb⟩ := hostStep_isBusy a { s with agenda := rest } <;> rw [hb]
    · exact ⟨fun hidle hbusy => (nomatch hidle.symm.trans hbusy),
        fun hbusy hidle => nomatch hidle.symm.trans hbusy⟩
    · exact ⟨fun _ _ => ⟨w, rest, ha⟩, fun _ hidle => nomatch hidle⟩
  · exact ⟨fun hidle hbusy => (nomatch hidle.symm.trans hbusy),
      fun hbusy hidle => nomatch hidle.symm.trans hbusy⟩
  · exact ⟨fun _ hbusy => (nomatch hbusy), fun _ _ => .inr (.inr ⟨rest, ha⟩)⟩

/-! ### HDR -/

/-- Whatever a rule's piece goes on with, it meets `P`. -/
def Returns {α : Type} (x : Run α) (P : α → Prop) : Prop := ∀ e a e', x e = .done a e' → P a

variable {α β : Type}

theorem returns_ret {P : α → Prop} {a : α} (h : P a) : Returns (Run.ret a) P := by
  intro e b e' hb
  injection hb with hb
  exact hb ▸ h

theorem returns_true (x : Run α) : Returns x fun _ => True := fun _ _ _ _ => trivial

/-- What the first piece goes on with may be used of the second. -/
theorem returns_bind {P : α → Prop} {Q : β → Prop} {x : Run α} {f : α → Run β} (hx : Returns x P)
    (hf : ∀ a, P a → Returns (f a) Q) : Returns (x.bind f) Q := by
  intro e b e' hb
  unfold Run.bind at hb
  split at hb
  · next a e₁ ha => exact hf a (hx e a e₁ ha) e₁ b e' hb
  · exact nomatch hb
  · exact nomatch hb
  · exact nomatch hb

/-- The second piece alone decides what is returned. -/
theorem returns_after {Q : β → Prop} (x : Run α) {f : α → Run β} (hf : ∀ a, Returns (f a) Q) :
    Returns (x.bind f) Q := returns_bind (returns_true x) fun a _ => hf a

/-- ENCRYPT puts a header in front exactly without an IV, and never in ECB (R366, R373). -/
theorem returns_encryptKeying (m : Mode) (ivp : Bool) (s : State) (k : Bytes) :
    Returns (encryptKeying m ivp s k) fun w => (!w.hdr.isEmpty) = (decide (m ≠ .ecb) && !ivp) := by
  unfold encryptKeying
  split
  · next hm => exact returns_ret (by simp [hm])
  · next hm =>
    split
    · next hv => exact returns_after _ fun _ => returns_ret (by simp [hv])
    · next hv => exact returns_after _ fun _ => returns_ret (by simp [hm, hv, saltedKeying, header, magic])

theorem returns_encryptRule (m : Mode) (sch : Scheme) (ivp : Bool) (s : State) :
    Returns (encryptRule m sch ivp s) fun r => r.hdr = (decide (m ≠ .ecb) && !ivp) :=
  returns_after _ fun _ => returns_after _ fun _ => returns_after _ fun k => returns_after _ fun _ =>
    returns_after _ fun _ => returns_bind (returns_encryptKeying m ivp s k) fun _ hw =>
    returns_after _ fun _ => returns_ret hw

/-- The input begins with MAGIC (R375). -/
abbrev State.saltedInput (s : State) : Prop := 8 ≤ s.inBytes ∧ s.inp.readRange 0 8 = some magic

theorem returns_recognise (s : State) : Returns (recognise s) fun b => b = true ↔ s.saltedInput := by
  unfold recognise
  split
  · next h8 =>
    refine returns_bind (P := fun x => s.inp.readRange 0 8 = some x) ?_ fun x hx => returns_ret ?_
    · intro e x e' h
      unfold readIn Run.read at h
      split at h
      · next b hb =>
        injection h with h
        exact h ▸ hb
      · exact nomatch h
    · simp [State.saltedInput, h8, hx]
  · next h8 => exact returns_ret (by simp [State.saltedInput, h8])

/-- DECRYPT's body is the salted one exactly when the header was recognised. -/
theorem returns_body (m : Mode) (ivp : Bool) (s : State) (k : Bytes) (salted : Bool) :
    Returns (if salted then saltedBody m s k else plainBody m ivp s k) fun b => b.hdr = salted := by
  cases salted with
  | true =>
    exact returns_after _ fun _ => returns_after _ fun _ => returns_after _ fun _ => returns_ret rfl
  | false =>
    refine returns_after _ fun _ => ?_
    split
    · exact returns_ret rfl
    · exact returns_after _ fun _ => returns_ret rfl

theorem returns_decryptRule (m : Mode) (sch : Scheme) (ivp : Bool) (s : State) :
    Returns (decryptRule m sch ivp s) fun r => r.hdr = true ↔ s.saltedInput :=
  returns_after _ fun _ => returns_after _ fun _ => returns_after _ fun k =>
    returns_bind (returns_recognise s) fun salted hs => returns_bind (returns_body m ivp s k salted) fun _ hb =>
    returns_after _ fun _ => returns_after _ fun _ => returns_after _ fun _ => returns_ret (hb ▸ hs)

theorem returns_padRule (sch : Scheme) (s : State) : Returns (padRule sch s) fun r => r.hdr = false :=
  returns_after _ fun _ => returns_after _ fun _ => returns_after _ fun _ => returns_after _ fun _ =>
    returns_ret rfl

theorem returns_unpadRule (sch : Scheme) (s : State) : Returns (unpadRule sch s) fun r => r.hdr = false :=
  returns_after _ fun _ => returns_after _ fun _ => returns_after _ fun _ => returns_after _ fun _ =>
    returns_ret rfl

theorem returns_blockRule (aligned : Nat → Bool) (f : Bytes → Bytes → Bytes) (s : State) :
    Returns (blockRule aligned f s) fun r => r.hdr = false :=
  returns_after _ fun _ => returns_after _ fun _ => returns_after _ fun _ => returns_after _ fun _ =>
    returns_after _ fun _ => returns_ret rfl

/-- Only ENCRYPT and DECRYPT produce or consume a salted header (R37). -/
theorem envelope_or_returns_no_hdr (i : Instr) (s : State) :
    (∃ m sch ivp, i = encryptInstr m sch ivp ∨ i = decryptInstr m sch ivp) ∨
      Returns (ruleOf i s) fun r => r.hdr = false := by
  cases i with
  | encryptCbc p v => exact .inl ⟨.cbc, p, v, .inl rfl⟩
  | encryptCfb p v => exact .inl ⟨.cfb, p, v, .inl rfl⟩
  | encryptCtr p v => exact .inl ⟨.ctr, p, v, .inl rfl⟩
  | encryptOfb p v => exact .inl ⟨.ofb, p, v, .inl rfl⟩
  | encryptGcm p v => exact .inl ⟨.gcm, p, v, .inl rfl⟩
  | encryptEcb p v => exact .inl ⟨.ecb, p, v, .inl rfl⟩
  | decryptCbc p v => exact .inl ⟨.cbc, p, v, .inr rfl⟩
  | decryptCfb p v => exact .inl ⟨.cfb, p, v, .inr rfl⟩
  | decryptCtr p v => exact .inl ⟨.ctr, p, v, .inr rfl⟩
  | decryptOfb p v => exact .inl ⟨.ofb, p, v, .inr rfl⟩
  | decryptGcm p v => exact .inl ⟨.gcm, p, v, .inr rfl⟩
  | decryptEcb p v => exact .inl ⟨.ecb, p, v, .inr rfl⟩
  | padPkcs7 | padIso9797m2 | padAnsix923 | padIso10126 | padZero | padNone =>
    exact .inr (returns_padRule _ s)
  | unpadPkcs7 | unpadIso9797m2 | unpadAnsix923 | unpadIso10126 | unpadZero | unpadNone =>
    exact .inr (returns_unpadRule _ s)
  | derive m =>
    exact .inr (returns_after _ fun _ => returns_after _ fun _ => returns_after _ fun _ =>
      returns_after _ fun _ => returns_ret rfl)
  | buildHdr m =>
    exact .inr (returns_after _ fun _ => returns_after _ fun _ => returns_after _ fun _ => returns_ret rfl)
  | parseHdr m =>
    exact .inr (returns_after _ fun _ => returns_after _ fun _ => returns_after _ fun _ =>
      returns_after _ fun _ => returns_after _ fun _ => returns_ret rfl)
  | ecbEnc | ecbDec | aesEnc | aesDec => exact .inr (returns_blockRule _ _ s)

/-- HDR is set only by a success, and is then the rule's. -/
theorem exec_sets_hdr {i : Instr} {s t : State} (hs : s.hdr = false) (ht : exec i s = .next t)
    (hh : t.hdr = true) :
    t.errcode = 0#4 ∧ t.done = true ∧ ∃ r e, ruleOf i s s.entropy = .done r e ∧ r.hdr = true := by
  obtain ⟨r, e, hr, -, rfl⟩ | ⟨r, e, -, -, rfl⟩ | ⟨err, e, -, rfl⟩ | ⟨-, rfl⟩ | ⟨-, rfl⟩ := exec_cases ht
  · exact ⟨rfl, rfl, r, e, hr, hh⟩
  · exact nomatch hh
  · exact nomatch hh
  · exact nomatch hs.symm.trans hh
  · exact nomatch hs.symm.trans hh

/-- A success shown by DONE and ERRCODE = 0 leaves the rule's HDR. -/
theorem exec_success_hdr {i : Instr} {s t : State} {P : Result → Prop} (hP : Returns (ruleOf i s) P)
    (hs : s.done = false) (ht : exec i s = .next t) (hd : t.done = true) (he : t.errcode = 0#4) :
    ∃ r, P r ∧ t.hdr = r.hdr := by
  obtain ⟨r, e, hr, -, rfl⟩ | ⟨r, e, -, -, rfl⟩ | ⟨err, e, -, rfl⟩ | ⟨-, rfl⟩ | ⟨-, rfl⟩ := exec_cases ht
  · exact ⟨r, hP _ r e hr, rfl⟩
  · exact absurd he (errCode_range .capacity).1
  · exact absurd he (errCode_range err).1
  · exact nomatch hs.symm.trans hd
  · exact nomatch hs.symm.trans hd

/-- Settles O11: no other rule returns HDR = 1, and the two envelope rules return it as R366 and R375 say. -/
theorem hdrMarksSaltedEnvelopes : Obligations.HdrMarksSaltedEnvelopes := by
  refine ⟨fun i s t hs ht hh => ?_, fun m sch ivp s t hs ht hd he => ?_, fun m sch ivp s t hs ht hd he => ?_⟩
  · obtain ⟨he, hd, r, e, hr, hrh⟩ := exec_sets_hdr hs ht hh
    obtain henv | hno := envelope_or_returns_no_hdr i s
    · exact ⟨he, hd, henv⟩
    · exact nomatch (hno _ r e hr).symm.trans hrh
  · obtain ⟨r, hP, h⟩ := exec_success_hdr
      (ruleOf_encryptInstr m sch ivp s ▸ returns_encryptRule m sch ivp s) hs ht hd he
    exact h.trans hP
  · obtain ⟨r, hP, h⟩ := exec_success_hdr
      (ruleOf_decryptInstr m sch ivp s ▸ returns_decryptRule m sch ivp s) hs ht hd he
    rw [h]
    exact hP

/-! ### Engines of a cluster -/

/-- The state after a step; every step answers one. -/
def stepped (s : State) : State :=
  match step s with
  | .next t => t
  | .fault _ => s
  | .refused _ => s

theorem step_eq_stepped (s : State) : step s = .next (stepped s) := by
  have hnext : ∃ t, step s = .next t := by
    unfold step
    split
    · exact engineStep_next s
    · exact engineStep_next _
    · exact ⟨_, rfl⟩
    · exact ⟨_, rfl⟩
    · exact ⟨_, rfl⟩
  obtain ⟨t, ht⟩ := hnext
  simp only [stepped, ht]

theorem engineStep_platform {s t : State} (ht : engineStep s = .next t) : t.platform = s.platform := by
  obtain ⟨-, rfl⟩ | ⟨op, i, -, -, hx⟩ | ⟨op, e, -, -, rfl⟩ := engineStep_cases ht
  · rfl
  · rw [exec_frame hx]
  · rfl

theorem hostStep_platform (a : Access) (s : State) : (hostStep a s).platform = s.platform := by
  obtain ⟨f, ht⟩ | ⟨f, g, ht⟩ | ⟨v, ht⟩ | ⟨w, -, -, ht⟩ | ⟨off, v, -, ht⟩ | ⟨sp, addr, b, -, -, -, ht⟩ :=
    hostStep_cases a s <;> simp [ht]

/-- No step changes the platform's sizes (R9). -/
theorem stepped_platform (s : State) : (stepped s).platform = s.platform := by
  obtain ⟨-, he⟩ | ⟨rest, -, he⟩ | ⟨a, rest, -, ht⟩ | ⟨bs, rest, -, ht⟩ | ⟨rest, -, ht⟩ :=
    step_cases (step_eq_stepped s)
  · exact engineStep_platform he
  · exact engineStep_platform (s := { s with agenda := rest }) he
  · rw [ht, hostStep_platform]
  · rw [ht, entropyStep_platform]
  · rw [ht, resetStep_platform]

/-- A step of engine k replaces that engine's state by its next one. -/
theorem Cluster.step_eq (k : Nat) (c : Cluster) : c.step k = .next ⟨c.engines.modify k stepped⟩ := by
  unfold Cluster.step
  split
  · next hk => rw [List.modify_eq_set_getElem?, hk]; rfl
  · next s hk => rw [step_eq_stepped, List.modify_eq_set_getElem?, hk]; rfl

theorem Cluster.legal_modify {c : Cluster} (hc : c.legal) (k : Nat) :
    (⟨c.engines.modify k stepped⟩ : Cluster).legal := by
  obtain ⟨hn, hp⟩ := hc
  refine ⟨by simpa [Cluster.nEngines] using hn, fun s hs => ?_⟩
  obtain ⟨n, hn, rfl⟩ := List.getElem_of_mem hs
  rw [List.getElem_modify]
  split
  · rw [stepped_platform]
    exact hp _ (List.getElem_mem _)
  · exact hp _ (List.getElem_mem _)

theorem Cluster.legal_resetOn {p : Platform} (hp : p.legal) {n : Nat} (hn : 1 ≤ n) :
    (Cluster.resetOn p n).legal := by
  refine ⟨by simpa [Cluster.resetOn, Cluster.nEngines] using hn, fun s hs => ?_⟩
  rw [List.eq_of_mem_replicate hs]
  exact hp

/-- Settles O59: changes at two places of the list of engines commute, and a step keeps the sizes. -/
theorem enginesAreIndependent : Obligations.EnginesAreIndependent := by
  refine ⟨fun j k c hjk => ?_, fun p n hp hn => ⟨List.length_replicate, Cluster.legal_resetOn hp hn⟩⟩
  refine ⟨_, _, _, Cluster.step_eq j c, Cluster.step_eq k c, Cluster.step_eq k _, ?_, ?_, ?_,
    fun hc => Cluster.legal_modify hc j⟩
  · rw [Cluster.step_eq, List.modify_modify_ne _ _ _ hjk]
  · exact by simp [hjk]
  · exact List.length_modify _ _ _

/-! ### The STATUS word -/

/-- Above HDR the STATUS word has ERRCODE at bits 8 to 11 and nothing else (R34). -/
theorem getLsbD_statusWord_of_ge (s : State) {n : Nat} (hn : 3 ≤ n) :
    (statusWord s).getLsbD n = (decide (8 ≤ n) && s.errcode.getLsbD (n - 8)) := by
  obtain ⟨k, rfl⟩ := Nat.exists_eq_add_of_le' hn
  obtain hlow | ⟨hge, hlt⟩ | hhigh : k < 5 ∨ (5 ≤ k ∧ k < 9) ∨ 9 ≤ k := by omega
  · simp [statusWord, Nat.not_le.2 hlow]
  · simp [statusWord, hge, show k + 3 < 32 by omega]
  · simp [statusWord, s.errcode.getLsbD_of_ge (k - 5) (by omega)]

/-- Settles O17: BUSY, DONE and HDR are bits of their own, and every other field lies above them. -/
theorem statusWordLayout : Obligations.StatusWordLayout := by
  intro s
  refine ⟨by simp [statusWord], by simp [statusWord], by simp [statusWord], ?_, ?_, ?_⟩
  · ext i hi
    rw [BitVec.getElem_extractLsb', getLsbD_statusWord_of_ge s (by omega)]
    simp [show ¬ 8 ≤ 3 + i by omega]
  · ext i hi
    rw [BitVec.getElem_extractLsb', getLsbD_statusWord_of_ge s (by omega)]
    simp [BitVec.getLsbD_eq_getElem hi]
  · ext i hi
    rw [BitVec.getElem_extractLsb', getLsbD_statusWord_of_ge s (by omega)]
    simp [s.errcode.getLsbD_of_ge (12 + i - 8) (by omega)]

end Sys2Proof.Machine
end

section
/-! SUPPORT. The statements on host accesses and memory (spec 20_memory.md): what each host access does, the results
an idle engine keeps, and the commands that read an unwritten byte. -/

namespace Sys2Proof.Machine

/-! ### A host access, one lemma per outcome -/

/-- The host's turn takes its access off the agenda and makes it. -/
theorem HostTurn.step_eq {a : Access} {s t : State} (h : HostTurn a s t) : step s = .next (hostStep a t) := by
  obtain ⟨rest, ha⟩ := h
  simp only [step, ha]

/-- The host's turn starts from the same state but for the agenda. -/
theorem HostTurn.eq_with_agenda {a : Access} {s t : State} (h : HostTurn a s t) :
    t = { s with agenda := t.agenda } := by
  obtain ⟨rest, -⟩ := h
  rfl

theorem HostTurn.isBusy_eq {a : Access} {s t : State} (h : HostTurn a s t) : t.isBusy = s.isBusy := by
  rw [h.eq_with_agenda]
  rfl

theorem HostTurn.buffer_eq {a : Access} {s t : State} (h : HostTurn a s t) (sp : Space) :
    t.buffer sp = s.buffer sp := by
  rw [h.eq_with_agenda]
  rfl

theorem HostTurn.size_eq {a : Access} {s t : State} (h : HostTurn a s t) (sp : Space) :
    sp.size t.platform = sp.size s.platform := by
  rw [h.eq_with_agenda]

theorem HostTurn.readReg_eq {a : Access} {s t : State} (h : HostTurn a s t) (off : Nat) :
    readReg t off = readReg s off := by
  rw [h.eq_with_agenda]
  rfl

theorem HostTurn.hostFault_eq {a : Access} {s t : State} (h : HostTurn a s t) (f : Fault) :
    hostFault f t = { t with returned := .nothing, faults := s.faults.add f } := by
  rw [h.eq_with_agenda]
  rfl

variable {s : State} {width off addr : Nat} {v : Word} {sp : Space} {b : Byte}

/-- The machine's test of a CTRL access is R72's form. -/
theorem ctrlForm_eq_decide (width off : Nat) : ctrlForm width off = decide (ctrlFormed width off) := by
  rw [Bool.eq_iff_iff]
  simp [ctrlForm, ctrlFormed, and_assoc]

theorem hostCtrlRead_of_not_form (hf : ctrlForm width off = false) :
    hostCtrlRead width off s = hostFault .ctrlAccessForm s := by
  simp [hostCtrlRead, hf]

theorem hostCtrlWrite_of_not_form (hf : ctrlForm width off = false) :
    hostCtrlWrite width off v s = hostFault .ctrlAccessForm s := by
  simp [hostCtrlWrite, hf]

/-- A read of CTRL that R461 does not forbid returns the register (R72). -/
theorem hostCtrlRead_of_form (hf : ctrlForm width off = true) (hb : s.isBusy = false ∨ outlenReg off = false) :
    hostCtrlRead width off s = { s with returned := .word (readReg s off) } := by
  obtain hb | hb := hb <;> simp [hostCtrlRead, hf, hb]

theorem hostCtrlWrite_of_idle (hf : ctrlForm width off = true) (hb : s.isBusy = false) (h0 : off ≠ 0x00) :
    hostCtrlWrite width off v s = writeReg { s with returned := .nothing } off v := by
  simp [hostCtrlWrite, hf, hb, h0]

theorem hostBufRead_of_size_le (ha : sp.size s.platform ≤ addr) :
    hostBufRead sp addr s = hostFault .bufferRange s := by
  simp [hostBufRead, ha]

theorem hostBufRead_of_written (ha : addr < sp.size s.platform) (hb : s.isBusy = false ∨ sp ≠ .out)
    (hr : (s.buffer sp).read addr = some b) : hostBufRead sp addr s = { s with returned := .byte b } := by
  obtain hb | hb := hb <;> simp [hostBufRead, Nat.not_le.2 ha, hb, hr]

theorem hostBufRead_of_unwritten (ha : addr < sp.size s.platform) (hb : s.isBusy = false ∨ sp ≠ .out)
    (hr : (s.buffer sp).read addr = none) : hostBufRead sp addr s = hostFault .hostReadUnwritten s := by
  obtain hb | hb := hb <;> simp [hostBufRead, Nat.not_le.2 ha, hb, hr]

theorem hostBufWrite_of_rejected (h : sp = .out ∨ sp.size s.platform ≤ addr) :
    hostBufWrite sp addr b s = hostFault .bufferRange s := by
  simp [hostBufWrite, h]

theorem hostBufWrite_of_idle (hsp : sp ≠ .out) (ha : addr < sp.size s.platform) (hb : s.isBusy = false) :
    hostBufWrite sp addr b s =
      State.setBuffer { s with returned := .nothing } sp ((s.buffer sp).write addr b) := by
  simp [hostBufWrite, hsp, Nat.not_le.2 ha, hb]

/-- The reserved offsets read 0 (R32). -/
theorem readReg_reserved (s : State) (h : off = 0x14 ∨ 0x28 ≤ off) : readReg s off = 0#32 := by
  unfold readReg
  split
  case h_10 => rfl
  all_goals omega

/-- STATUS, OUTLEN and the reserved offsets ignore a write (R34, R43, R44). -/
theorem writeReg_ignored (s : State) (v : Word) (h : off = 0x04 ∨ off = 0x14 ∨ 0x20 ≤ off) :
    writeReg s off v = s := by
  unfold writeReg
  split
  case h_6 => rfl
  all_goals omega

/-! ### The statements on one host access -/

/-- Settles O18: the access is of R72's form, and each offset has its register. -/
theorem ctrlReadsReturnTheRegisters : Obligations.CtrlReadsReturnTheRegisters := by
  intro s t off hturn h4 hle hbusy
  have hf : ctrlForm 32 off = true := by simp [ctrlForm, h4, hle]
  have hb : t.isBusy = false ∨ outlenReg off = false := by
    rw [hturn.isBusy_eq]
    simpa [outlenReg] using hbusy
  refine ⟨readReg s off, ?_, ?_⟩
  · rw [hturn.step_eq, hostStep, hostCtrlRead_of_form hf hb, hturn.readReg_eq]
  · refine ⟨?cmd, ?status, ?keylen, ?ivlen, ?blksz, ?inlenLo, ?inlenHi, ?outlenLo, ?outlenHi,
      readReg_reserved s⟩ <;> rintro rfl
    case cmd | status | keylen | ivlen | blksz => rfl
    case inlenLo | outlenLo => exact (extract_low _ _).symm
    case inlenHi | outlenHi => exact (extract_high _ _).symm

/-- Settles O19: an idle engine takes the write, and `writeReg` names each register's writable bits. -/
theorem ctrlWritesStoreTheWritableBits : Obligations.CtrlWritesStoreTheWritableBits := by
  intro s t off v hturn h4 hle hidle
  have hstep (h0 : off ≠ 0x00) : step s = .next (writeReg { t with returned := .nothing } off v) := by
    rw [hturn.step_eq, hostStep,
      hostCtrlWrite_of_idle (by simp [ctrlForm, h4, hle]) (hturn.isBusy_eq.trans hidle) h0]
  refine ⟨?_, ?_, ?_, ?_, ?_, fun hign => by rw [hstep (by omega), writeReg_ignored _ v hign]⟩ <;>
    (rintro rfl; exact hstep (by decide))

/-- Settles O20: the new buffer is `Memory.write`'s, which changes one byte. -/
theorem bufferWriteStoresOneByte : Obligations.BufferWriteStoresOneByte := by
  intro s t sp a b hturn hsp ha hidle hwf
  refine ⟨(s.buffer sp).write a b, ?_, Memory.read_write _ hwf a b⟩
  rw [hturn.step_eq, hostStep,
    hostBufWrite_of_idle hsp (hturn.size_eq sp ▸ ha) (hturn.isBusy_eq.trans hidle), hturn.buffer_eq]

/-- Settles O21: the byte is written or it is not. -/
theorem bufferReadReturnsTheByte : Obligations.BufferReadReturnsTheByte := by
  intro s t sp a hturn ha hbusy
  rw [← hturn.size_eq] at ha
  rw [← hturn.isBusy_eq] at hbusy
  rw [← hturn.buffer_eq, hturn.step_eq]
  refine ⟨fun b hr => ?_, fun hr => ?_⟩
  · rw [hostStep, hostBufRead_of_written ha hbusy hr]
  · rw [hostStep, hostBufRead_of_unwritten ha hbusy hr, hturn.hostFault_eq]

/-- Settles O22: each of the four accesses rejects, as its first check, exactly the forms that are not well formed. -/
theorem malformedAccessOnlyRecordsAFault : Obligations.MalformedAccessOnlyRecordsAFault := by
  intro s t a hturn hwf
  rw [hturn.step_eq, ← hturn.hostFault_eq .ctrlAccessForm, ← hturn.hostFault_eq .bufferRange]
  refine ⟨?_, ?_⟩
  · rintro ⟨width, off, rfl | ⟨v, rfl⟩⟩
    · rw [hostStep, hostCtrlRead_of_not_form ((ctrlForm_eq_decide width off).trans hwf)]
    · rw [hostStep, hostCtrlWrite_of_not_form ((ctrlForm_eq_decide width off).trans hwf)]
  · rintro ⟨sp, addr, rfl | ⟨b, rfl⟩⟩
    · simp only [Access.wf, decide_eq_false_iff_not, Nat.not_lt, ← hturn.size_eq] at hwf
      rw [hostStep, hostBufRead_of_size_le hwf]
    · simp only [Access.wf, decide_eq_false_iff_not, not_and_or, not_not, Nat.not_lt, ← hturn.size_eq] at hwf
      rw [hostStep, hostBufWrite_of_rejected hwf]

/-! ### What an idle engine keeps -/

/-- What a completion leaves for the host (R87): STATUS's fields, OUTLEN and OUT. -/
def State.results (s : State) : Phase × Bool × Bool × BitVec 4 × BitVec 64 × Memory :=
  (s.phase, s.done, s.hdr, s.errcode, s.outlen, s.out)

/-- Two states show the host the same results exactly when STATUS's fields, OUTLEN and OUT agree. -/
theorem results_eq_iff {s t : State} : t.results = s.results ↔
    t.phase = s.phase ∧ t.done = s.done ∧ t.hdr = s.hdr ∧ t.errcode = s.errcode ∧ t.outlen = s.outlen ∧
      t.out = s.out := by
  simp [State.results]

theorem isBusy_eq_of_results_eq {s t : State} (h : t.results = s.results) : t.isBusy = s.isBusy :=
  isBusy_eq_of_phase_eq (results_eq_iff.1 h).1

theorem statusWord_eq_of_results_eq {s t : State} (h : t.results = s.results) :
    statusWord t = statusWord s := by
  obtain ⟨-, hdone, hhdr, herr, -, -⟩ := results_eq_iff.1 h
  simp only [statusWord, isBusy_eq_of_results_eq h, hdone, hhdr, herr]

theorem results_writeReg (s : State) (off : Nat) (v : Word) : (writeReg s off v).results = s.results := by
  simp [State.results, State.outlen]

theorem results_setBuffer (s : State) (hsp : sp ≠ .out) (m : Memory) :
    (s.setBuffer sp m).results = s.results := by
  have hout : (s.setBuffer sp m).out = s.out := setBuffer_buffer_other s m hsp.symm
  simp [State.results, State.outlen, hout]

theorem hostStep_agenda (a : Access) (s : State) : (hostStep a s).agenda = s.agenda := by
  obtain ⟨f, ht⟩ | ⟨f, g, ht⟩ | ⟨v, ht⟩ | ⟨w, -, -, ht⟩ | ⟨off, v, -, ht⟩ | ⟨sp, addr, b, -, -, -, ht⟩ :=
    hostStep_cases a s <;> simp [ht]

/-- Only an issue changes the results: the host writes neither OUT, nor OUTLEN, nor STATUS (R34, R43, R74). -/
theorem hostStep_results {a : Access} (ha : restarts (.host a) = false) (s : State) :
    (hostStep a s).results = s.results := by
  obtain ⟨f, ht⟩ | ⟨f, g, ht⟩ | ⟨v, ht⟩ | ⟨w, rfl, -, -⟩ | ⟨off, v, -, ht⟩ | ⟨sp, addr, b, hsp, -, -, ht⟩ :=
    hostStep_cases a s
  · rw [ht]; rfl
  · rw [ht]; rfl
  · rw [ht]; rfl
  · exact nomatch ha
  · rw [ht, results_writeReg]; rfl
  · rw [ht, results_setBuffer _ hsp]; rfl

/-- A step of an idle machine short of an issue or reset takes its event and keeps the results (R87, R443). -/
theorem step_keeps_results {ev : Event} {rest : List Event} (hidle : s.isBusy = false)
    (ha : s.agenda = ev :: rest) (hev : restarts ev = false) :
    ∃ t, step s = .next t ∧ t.agenda = rest ∧ t.results = s.results := by
  cases ev with
  | host a =>
    exact ⟨hostStep a { s with agenda := rest }, by simp only [step, ha], hostStep_agenda a _,
      hostStep_results hev _⟩
  | engine =>
    exact ⟨{ s with agenda := rest }, by simp only [step, ha, engineStep, (not_isBusy_iff s).1 hidle], rfl, rfl⟩
  | entropy bs => exact ⟨entropyStep bs { s with agenda := rest }, by simp only [step, ha], rfl, rfl⟩
  | reset => exact nomatch hev

theorem core_run_succ {s t : State} (h : step s = .next t) (n : Nat) :
    Sys2Proof.core.run (n + 1) s = Sys2Proof.core.run n t := by
  have h' : Sys2Proof.core.step s = .next t := h
  simp only [Host.Core.run, h']

/-- Events short of an issue or reset keep the results, one step each. -/
theorem run_keeps_results (events : List Event) {s : State} {later : List Event} (hidle : s.isBusy = false)
    (ha : s.agenda = events ++ later) (hev : ∀ e ∈ events, restarts e = false) :
    ∃ t : State, Sys2Proof.core.run events.length s = .next t ∧ t.agenda = later ∧ t.results = s.results := by
  induction events generalizing s with
  | nil => exact ⟨s, rfl, ha, rfl⟩
  | cons ev events ih =>
    obtain ⟨hev, hevents⟩ := List.forall_mem_cons.1 hev
    obtain ⟨u, hu, hua, hur⟩ := step_keeps_results hidle ha hev
    obtain ⟨t, ht, hta, htr⟩ := ih ((isBusy_eq_of_results_eq hur).trans hidle) hua hevents
    exact ⟨t, (core_run_succ hu _).trans ht, hta, htr.trans hur⟩

/-- Settles O16: by induction on the events, each of which keeps phase, STATUS, OUTLEN and OUT. -/
theorem resultsHoldUntilTheNextIssue : Obligations.ResultsHoldUntilTheNextIssue := by
  intro events s later hidle ha hev
  obtain ⟨t, ht, hta, hr⟩ := run_keeps_results events hidle ha hev
  obtain ⟨-, -, -, -, houtlen, hout⟩ := results_eq_iff.1 hr
  exact ⟨t, ht, hta, hout, houtlen, statusWord_eq_of_results_eq hr⟩

/-! ### Operands that are not written -/

section

variable {i : Instr} {m : Mode} {sch : Scheme} {ivp : Bool} {k : Bytes} {s : State}

/-- A MemRead with no value whose first part has one has none in its second part (R78). -/
theorem Memory.readRange_right_eq_none {mem : Memory} {a n l : Nat} {x : Bytes}
    (h : mem.readRange a (n + l) = none) (hx : mem.readRange a n = some x) :
    mem.readRange (a + n) l = none := by
  rw [Memory.readRange_add, hx] at h
  cases hl : mem.readRange (a + n) l with
  | none => rfl
  | some y => simp [hl] at h

/-- The four block commands run one rule, and their alignment checks are R245's and R280's. -/
theorem ruleOf_blockCommand
    (h : (s.inBytes % 16 = 0 ∧ (i = .ecbEnc ∨ i = .ecbDec)) ∨ (s.inBytes = 16 ∧ (i = .aesEnc ∨ i = .aesDec))) :
    ∃ aligned f, ruleOf i s = blockRule aligned f s ∧ aligned s.inBytes = true := by
  obtain ⟨hn, rfl | rfl⟩ | ⟨hn, rfl | rfl⟩ := h
  · exact ⟨wholeBlocks, ecbEnc, rfl, decide_eq_true hn⟩
  · exact ⟨wholeBlocks, ecbDec, rfl, decide_eq_true hn⟩
  · exact ⟨oneBlock, aesEnc, rfl, decide_eq_true hn⟩
  · exact ⟨oneBlock, aesDec, rfl, decide_eq_true hn⟩

/-- Everything the recognition of a salted input can do: it sticks on an unwritten byte, or answers whether MAGIC
stands there (R375). -/
theorem recognise_cases (s : State) (e : Bytes) :
    recognise s e = .unwritten ∨ (s.saltedInput ∧ recognise s e = .done true e) ∨
      (¬ s.saltedInput ∧ recognise s e = .done false e) := by
  by_cases h8 : 8 ≤ s.inBytes
  · have hrec : recognise s = (Run.read s.inp 0 8).bind fun h => Run.ret (h == magic) := if_pos h8
    cases hr : s.inp.readRange 0 8 with
    | none => exact .inl (by rw [hrec, read_bind_unwritten hr])
    | some x =>
      rw [hrec, read_bind hr]
      by_cases hx : x = magic <;> simp [State.saltedInput, h8, hr, hx]
  · exact .inr (.inr ⟨fun h => h8 h.1, by simp [recognise, h8]⟩)

/-! #### KEY -/

section
variable (hkey : keySizeLegal s.keyBytes = true) (hr : s.key.readRange 0 s.keyBytes = none)
include hkey hr

theorem encryptRule_key_unwritten (hin : s.inBytes ≤ s.platform.inCap) (e : Bytes) :
    encryptRule m sch ivp s e = .unwritten := by
  simp only [encryptRule, checkIn_ok hin, checkKey_ok hkey, ret_bind]
  exact read_bind_unwritten hr _ e

theorem decryptRule_key_unwritten (hin : s.inBytes ≤ s.platform.inCap) (e : Bytes) :
    decryptRule m sch ivp s e = .unwritten := by
  simp only [decryptRule, checkIn_ok hin, checkKey_ok hkey, ret_bind]
  exact read_bind_unwritten hr _ e

theorem buildHdrRule_key_unwritten (e : Bytes) : buildHdrRule m s e = .unwritten := by
  simp only [buildHdrRule, checkKey_ok hkey, ret_bind]
  exact read_bind_unwritten hr _ e

theorem parseHdrRule_key_unwritten (hin : s.inBytes ≤ s.platform.inCap) (hn : 16 ≤ s.inBytes) {salt : Bytes}
    (hsalt : s.inp.readRange 8 8 = some salt) (e : Bytes) : parseHdrRule m s e = .unwritten := by
  simp only [parseHdrRule, checkIn_ok hin, checkKey_ok hkey, hdrLen, hn, decide_true, check_true, ret_bind]
  exact (congrFun (read_bind hsalt _) e).trans (read_bind_unwritten hr _ e)

theorem blockRule_key_unwritten (hin : s.inBytes ≤ s.platform.inCap) {aligned : Nat → Bool}
    (ha : aligned s.inBytes = true) (f : Bytes → Bytes → Bytes) (e : Bytes) :
    blockRule aligned f s e = .unwritten := by
  simp only [blockRule, checkIn_ok hin, checkKey_ok hkey, ha, check_true, ret_bind]
  exact read_bind_unwritten hr _ e

end

/-! #### IN and SALT -/

/-- After MAGIC the unwritten byte is in the header's salt or in the body (R375). -/
theorem saltedBody_in_unwritten (hr : s.inp.readRange 0 s.inBytes = none) (hn : 16 ≤ s.inBytes)
    (hmagic : s.inp.readRange 0 8 = some magic) (e : Bytes) : saltedBody m s k e = .unwritten := by
  have htail : s.inp.readRange 8 (8 + (s.inBytes - 16)) = none := by
    rw [show s.inBytes = 8 + (8 + (s.inBytes - 16)) by omega] at hr
    simpa using Memory.readRange_right_eq_none hr hmagic
  simp only [saltedBody, hdrLen, hn, decide_true, check_true, ret_bind]
  cases hsalt : s.inp.readRange 8 8 with
  | none => exact read_bind_unwritten hsalt _ e
  | some salt =>
    have hbody := Memory.readRange_right_eq_none htail hsalt
    exact (congrFun (read_bind hsalt _) e).trans (read_bind_unwritten hbody _ e)

section
variable (hin : s.inBytes ≤ s.platform.inCap)
include hin

/-- PARSE_HDR reads its salt before KEY (R202). -/
theorem parseHdrRule_salt_unwritten (hkey : keySizeLegal s.keyBytes = true) (hn : 16 ≤ s.inBytes)
    (hr : s.inp.readRange 8 8 = none) (e : Bytes) : parseHdrRule m s e = .unwritten := by
  simp only [parseHdrRule, checkIn_ok hin, checkKey_ok hkey, hdrLen, hn, decide_true, check_true, ret_bind]
  exact read_bind_unwritten hr _ e

theorem deriveRule_salt_unwritten (hkey : keySizeLegal s.keyBytes = true) (hr : s.salt.readRange 0 8 = none)
    (e : Bytes) : deriveRule m s e = .unwritten := by
  simp only [deriveRule, checkIn_ok hin, checkKey_ok hkey, ret_bind]
  exact read_bind_unwritten hr _ e

variable (hr : s.inp.readRange 0 s.inBytes = none)
include hr

theorem deriveRule_in_unwritten (hkey : keySizeLegal s.keyBytes = true) {x : Bytes} (hx : s.saltIs x)
    (e : Bytes) : deriveRule m s e = .unwritten := by
  simp only [deriveRule, checkIn_ok hin, checkKey_ok hkey, ret_bind]
  exact (congrFun (read_bind hx _) e).trans (read_bind_unwritten hr _ e)

theorem padRule_in_unwritten (hb : blockSizeOk sch s.blockSize = true) (e : Bytes) :
    padRule sch s e = .unwritten := by
  simp only [padRule, checkIn_ok hin, checkB, hb, if_true, lift_ok, ret_bind]
  exact read_bind_unwritten hr _ e

theorem unpadRule_in_unwritten (hb : blockSizeOk sch s.blockSize = true) (e : Bytes) :
    unpadRule sch s e = .unwritten := by
  simp only [unpadRule, checkIn_ok hin, checkB, hb, if_true, lift_ok, ret_bind]
  exact read_bind_unwritten hr _ e

theorem encryptRule_in_unwritten (hk : s.keyIs k) (e : Bytes) : encryptRule m sch ivp s e = .unwritten := by
  simp only [encryptRule, checkIn_ok hin, checkKey_ok hk.1, ret_bind, readKey, read_bind hk.2]
  exact read_bind_unwritten hr _ e

theorem blockRule_in_unwritten (hk : s.keyIs k) {aligned : Nat → Bool} (ha : aligned s.inBytes = true)
    (f : Bytes → Bytes → Bytes) (e : Bytes) : blockRule aligned f s e = .unwritten := by
  simp only [blockRule, checkIn_ok hin, checkKey_ok hk.1, ha, check_true, ret_bind, readKey, read_bind hk.2]
  exact read_bind_unwritten hr _ e

/-- DECRYPT sticks in its recognition, in the salted body or in the plain one; a header cut short is left out, as it
fails before its body is read (R375). -/
theorem decryptRule_in_unwritten (hk : s.keyIs k)
    (hcut : s.inp.readRange 0 8 = some magic → s.inBytes < 8 ∨ 16 ≤ s.inBytes) (e : Bytes) :
    decryptRule m sch ivp s e = .unwritten := by
  simp only [decryptRule, checkIn_ok hin, checkKey_ok hk.1, ret_bind, readKey, read_bind hk.2]
  obtain hrec | ⟨⟨h8, hmagic⟩, hrec⟩ | ⟨-, hrec⟩ := recognise_cases s e
  · exact bind_unwritten _ hrec
  · have hn : 16 ≤ s.inBytes := (hcut hmagic).resolve_left (Nat.not_lt.2 h8)
    rw [bind_done _ hrec]
    exact bind_unwritten _ (saltedBody_in_unwritten hr hn hmagic e)
  · rw [bind_done _ hrec]
    exact bind_unwritten _ (read_bind_unwritten hr _ e)

end

/-! #### IV -/

section
variable {p : Bytes} (hk : s.keyIs k) (hp : s.inIs p) (hm : m ≠ .ecb) (hl : s.ivBytes = ivSize m)
  (hr : s.iv.readRange 0 s.ivBytes = none)

include hl hr in
theorem explicitIv_unwritten (e : Bytes) : explicitIv m true s e = .unwritten := by
  simp only [explicitIv, hl, decide_true, Bool.and_true, check_true, ret_bind]
  rw [← hl, Run.read, hr]

include hk hp hm hl hr

/-- ENCRYPT reads IV after its padding step (R365, R366). -/
theorem encryptRule_iv_unwritten (hpad : s.padsOn m sch p) :
    encryptRule m sch true s s.entropy = .unwritten := by
  obtain ⟨padded, hpadded⟩ := padStep_of_padsOn hpad
  have hkeying (e : Bytes) : encryptKeying m true s k e = .unwritten := by
    rw [encryptKeying, if_neg hm, if_pos rfl]
    exact bind_unwritten _ (explicitIv_unwritten hl hr e)
  simp only [encryptRule, checkIn_ok hp.1, checkKey_ok hk.1, ret_bind, readKey, read_bind hk.2, readIn,
    Nat.sub_zero, read_bind hp.2]
  rw [bind_done _ hpadded]
  exact bind_unwritten _ (hkeying _)

/-- DECRYPT without a header reads IV after IN (R374, R380). -/
theorem decryptRule_iv_unwritten (hmagic : p.take 8 ≠ magic) (e : Bytes) :
    decryptRule m sch true s e = .unwritten := by
  have hbody : plainBody m true s k e = .unwritten := by
    simp only [plainBody, readIn, Nat.sub_zero, read_bind hp.2, if_neg hm]
    exact bind_unwritten _ (explicitIv_unwritten hl hr e)
  simp only [decryptRule, checkIn_ok hp.1, checkKey_ok hk.1, ret_bind, readKey, read_bind hk.2,
    recognise_bind hp.2, beq_false_of_ne hmagic]
  exact bind_unwritten _ hbody

end
end

/-- Settles O13: each clause is one read of one rule, with what comes before it in the rule passed. -/
theorem unwrittenOperandSticks : Obligations.UnwrittenOperandSticks := by
  intro s hin
  refine ⟨fun i hkey hr hi => exec_of_unwritten ?key, fun i sch hb hr hi => exec_of_unwritten ?padding,
    fun m hkey hr => exec_of_unwritten ?derive,
    fun m hkey hn hr => exec_of_unwritten (parseHdrRule_salt_unwritten hin hkey hn hr _),
    fun i k hk hr hi => exec_of_unwritten ?input,
    fun m sch k p hk hp hm hl hr =>
      ⟨fun hpad => exec_of_unwritten ?encryptIv, fun hmagic => exec_of_unwritten ?decryptIv⟩⟩
  case key =>
    obtain ⟨m, sch, ivp, rfl | rfl⟩ | ⟨m, rfl⟩ | ⟨m, salt, rfl, hn, hsalt⟩ | hblock := hi
    · rw [ruleOf_encryptInstr, encryptRule_key_unwritten hkey hr hin]
    · rw [ruleOf_decryptInstr, decryptRule_key_unwritten hkey hr hin]
    · exact buildHdrRule_key_unwritten hkey hr _
    · exact parseHdrRule_key_unwritten hkey hr hin hn hsalt _
    · obtain ⟨aligned, f, hrule, ha⟩ := ruleOf_blockCommand hblock
      rw [hrule, blockRule_key_unwritten hkey hr hin ha]
  case padding =>
    obtain rfl | rfl := hi
    · rw [ruleOf_padInstr, padRule_in_unwritten hin hr hb]
    · rw [ruleOf_unpadInstr, unpadRule_in_unwritten hin hr hb]
  case derive =>
    obtain hr | ⟨x, hx, hr⟩ := hr
    · exact deriveRule_salt_unwritten hin hkey hr _
    · exact deriveRule_in_unwritten hin hr hkey hx _
  case input =>
    obtain ⟨m, sch, ivp, rfl⟩ | ⟨m, sch, ivp, rfl, hcut⟩ | hblock := hi
    · rw [ruleOf_encryptInstr, encryptRule_in_unwritten hin hr hk]
    · rw [ruleOf_decryptInstr, decryptRule_in_unwritten hin hr hk hcut]
    · obtain ⟨aligned, f, hrule, ha⟩ := ruleOf_blockCommand hblock
      rw [hrule, blockRule_in_unwritten hin hr hk ha]
  case encryptIv => rw [ruleOf_encryptInstr, encryptRule_iv_unwritten hk hp hm hl hr hpad]
  case decryptIv => rw [ruleOf_decryptInstr, decryptRule_iv_unwritten hk hp hm hl hr hmagic]

end Sys2Proof.Machine
end

section
/-! SUPPORT. The statements on command words (spec 30_encoding.md): the fields of an encoded command, Decode's checks
in their order, the opcode map, what the engine does with a word in flight, what a rule does not read, and the host's
WAIT and GETOUT. -/

namespace Sys2Proof

/-! ### The fields of a word -/

theorem append_fieldsOf (w : Word) : (fieldsOf w).rsv ++ (fieldsOf w).ivp ++ (fieldsOf w).pad ++
    (fieldsOf w).mode ++ (fieldsOf w).op = w := by
  ext i hi
  simp only [fieldsOf, BitVec.getElem_append, BitVec.getElem_extractLsb']
  grind

/-- The five fields cover the whole word (R101). -/
theorem fieldsOf_injective : Function.Injective fieldsOf := by
  intro w w' h
  rw [← append_fieldsOf w, ← append_fieldsOf w', h]

/-- The field of a built word that each bit lies in (R115). -/
theorem getLsbD_commandWord (op : BitVec 5) (mode pad : BitVec 3) (ivp : Bool) (n : Nat) :
    (commandWord op mode pad ivp).getLsbD n =
      if n < 5 then op.getLsbD n
      else if n < 8 then mode.getLsbD (n - 5)
      else if n < 11 then pad.getLsbD (n - 8)
      else decide (n = 11) && ivp := by
  have hop := op.getLsbD_of_ge n
  have hmode := mode.getLsbD_of_ge (n - 5)
  have hpad := pad.getLsbD_of_ge (n - 8)
  simp only [commandWord, BitVec.getLsbD_or, BitVec.getLsbD_shiftLeft, BitVec.truncate_eq_setWidth,
    BitVec.getLsbD_setWidth, BitVec.getLsbD_ofBool]
  grind

/-- The fields of a built word are those it is built from (R115). -/
theorem fieldsOf_commandWord (op : BitVec 5) (mode pad : BitVec 3) (ivp : Bool) :
    fieldsOf (commandWord op mode pad ivp) = ⟨op, mode, pad, BitVec.ofBool ivp, 0#20⟩ := by
  simp only [fieldsOf, Fields.mk.injEq]
  refine ⟨?op, ?mode, ?pad, ?ivp, ?rsv⟩ <;> ext i hi <;>
    rw [BitVec.getElem_extractLsb', getLsbD_commandWord] <;> grind

/-! ### Selectors -/

theorem modeOf_reserved : ∀ b : BitVec 3, ¬ b.toNat ≤ 5 → modeOf b = none := by decide

theorem schemeOf_reserved : ∀ b : BitVec 3, ¬ b.toNat ≤ 5 → schemeOf b = none := by decide

/-- Every MODE value that is not reserved is the code of its mode (R103). -/
theorem modeOf_defined {b : BitVec 3} (h : b.toNat ≤ 5) : ∃ m, modeOf b = some m ∧ m.code = b :=
  Option.map_eq_some_iff.1 ((by decide : ∀ b : BitVec 3, b.toNat ≤ 5 → (modeOf b).map Mode.code = some b) b h)

/-- Every PAD value that is not reserved is the code of its scheme (R108). -/
theorem schemeOf_defined {b : BitVec 3} (h : b.toNat ≤ 5) : ∃ p, schemeOf b = some p ∧ p.code = b :=
  Option.map_eq_some_iff.1
    ((by decide : ∀ b : BitVec 3, b.toNat ≤ 5 → (schemeOf b).map Scheme.code = some b) b h)

theorem ofBool_beq_one (b : BitVec 1) : BitVec.ofBool (b == 1#1) = b := by
  revert b
  decide

theorem fields_eq_iff {f : Fields} {op : BitVec 5} {mode pad : BitVec 3} {ivp : BitVec 1} {rsv : BitVec 20} :
    ⟨op, mode, pad, ivp, rsv⟩ = f ↔ op = f.op ∧ mode = f.mode ∧ pad = f.pad ∧ ivp = f.ivp ∧ rsv = f.rsv :=
  Fields.mk.injEq .. ▸ Iff.rfl

theorem encode_encryptInstr (m : Mode) (p : Scheme) (v : Bool) :
    encode (encryptInstr m p v) = commandWord 0x01 m.code p.code v := by cases m <;> rfl

theorem encode_decryptInstr (m : Mode) (p : Scheme) (v : Bool) :
    encode (decryptInstr m p v) = commandWord 0x02 m.code p.code v := by cases m <;> rfl

theorem encode_padInstr (p : Scheme) : encode (padInstr p) = commandWord 0x03 0 p.code false := by
  cases p <;> rfl

theorem encode_unpadInstr (p : Scheme) : encode (unpadInstr p) = commandWord 0x04 0 p.code false := by
  cases p <;> rfl

/-! ### Decode's checks, in R113's order -/

/-- The answer `d` to fields with RSV = 0 and a defined OP follows the checks that are left, in their order; fields
that pass them all are those of the answered command's word (R106, R107, R109, R113). -/
structure FollowsChecks (f : Fields) (d : Except Err Instr) : Prop where
  unused : ¬ f.unusedZero → d = .error .illegalCommand
  mode : f.unusedZero → ¬ f.modeDefined → d = .error .unsupportedMode
  pad : f.unusedZero → f.modeDefined → ¬ f.padDefined → d = .error .unsupportedMode
  ok : f.unusedZero → f.modeDefined → f.padDefined → ∃ i, d = .ok i ∧ fieldsOf (encode i) = f

section
variable {f : Fields} (hrsv : f.rsvZero)
include hrsv

/-- ENCRYPT and DECRYPT use every field. -/
theorem followsChecks_decodeEnvelope (huses : f.usesMode ∧ f.usesPad ∧ f.usesIvp)
    {form : Mode → Scheme → Bool → Instr}
    (henc : ∀ m p v, encode (form m p v) = commandWord f.op m.code p.code v) :
    FollowsChecks f (decodeEnvelope f form) := by
  obtain ⟨hm, hp, hv⟩ := huses
  refine ⟨fun hu => absurd ⟨absurd hm, absurd hp, absurd hv⟩ hu, fun _ hmode => ?_, fun _ hmode hpad => ?_,
    fun _ hmode hpad => ?_⟩
  · have hnone := modeOf_reserved f.mode fun h => hmode fun _ => h
    simp only [decodeEnvelope, hnone]
  · have hnone := schemeOf_reserved f.pad fun h => hpad fun _ => h
    obtain ⟨m, hm, -⟩ := modeOf_defined (hmode hm)
    simp only [decodeEnvelope, hm, hnone]
  · obtain ⟨m, hm, hmc⟩ := modeOf_defined (hmode hm)
    obtain ⟨p, hp, hpc⟩ := schemeOf_defined (hpad hp)
    refine ⟨form m p (f.ivp == 1#1), by simp only [decodeEnvelope, hm, hp], ?_⟩
    rw [henc, fieldsOf_commandWord, hmc, hpc, ofBool_beq_one, ← hrsv]

/-- PAD and UNPAD use PAD only. -/
theorem followsChecks_decodePadding (huses : ¬ f.usesMode ∧ f.usesPad ∧ ¬ f.usesIvp) {form : Scheme → Instr}
    (henc : ∀ p, encode (form p) = commandWord f.op 0 p.code false) :
    FollowsChecks f (decodePadding f form) := by
  obtain ⟨hm, hp, hv⟩ := huses
  have hunused : f.unusedZero ↔ ¬ (f.mode ≠ 0#3 ∨ f.ivp ≠ 0#1) := by simp [Fields.unusedZero, hm, hp, hv]
  refine ⟨fun hu => if_pos (not_not.1 (hunused.not.1 hu)), fun _ hmode => absurd (absurd · hm) hmode,
    fun hu _ hpad => ?_, fun hu _ hpad => ?_⟩
  · have hnone := schemeOf_reserved f.pad fun h => hpad fun _ => h
    simp only [decodePadding, if_neg (hunused.1 hu), hnone]
  · obtain ⟨p, hp, hpc⟩ := schemeOf_defined (hpad hp)
    refine ⟨form p, by simp only [decodePadding, if_neg (hunused.1 hu), hp], ?_⟩
    rw [henc, fieldsOf_commandWord, hpc, fields_eq_iff]
    exact ⟨rfl, (hu.1 hm).symm, rfl, (hu.2.2 hv).symm, hrsv.symm⟩

/-- DERIVE, BUILD_HDR and PARSE_HDR use MODE only. -/
theorem followsChecks_decodeDerivation (huses : f.usesMode ∧ ¬ f.usesPad ∧ ¬ f.usesIvp) {form : Mode → Instr}
    (henc : ∀ m, encode (form m) = commandWord f.op m.code 0 false) :
    FollowsChecks f (decodeDerivation f form) := by
  obtain ⟨hm, hp, hv⟩ := huses
  have hunused : f.unusedZero ↔ ¬ (f.pad ≠ 0#3 ∨ f.ivp ≠ 0#1) := by simp [Fields.unusedZero, hm, hp, hv]
  refine ⟨fun hu => if_pos (not_not.1 (hunused.not.1 hu)), fun hu hmode => ?_,
    fun _ _ hpad => absurd (absurd · hp) hpad, fun hu hmode _ => ?_⟩
  · have hnone := modeOf_reserved f.mode fun h => hmode fun _ => h
    simp only [decodeDerivation, if_neg (hunused.1 hu), hnone]
  · obtain ⟨m, hm, hmc⟩ := modeOf_defined (hmode hm)
    refine ⟨form m, by simp only [decodeDerivation, if_neg (hunused.1 hu), hm], ?_⟩
    rw [henc, fieldsOf_commandWord, hmc, fields_eq_iff]
    exact ⟨rfl, rfl, (hu.2.1 hp).symm, (hu.2.2 hv).symm, hrsv.symm⟩

/-- The block commands use no selector. -/
theorem followsChecks_decodePlain (huses : ¬ f.usesMode ∧ ¬ f.usesPad ∧ ¬ f.usesIvp) {form : Instr}
    (henc : encode form = commandWord f.op 0 0 false) : FollowsChecks f (decodePlain f form) := by
  obtain ⟨hm, hp, hv⟩ := huses
  have hunused : f.unusedZero ↔ ¬ (f.mode ≠ 0#3 ∨ f.pad ≠ 0#3 ∨ f.ivp ≠ 0#1) := by
    simp [Fields.unusedZero, hm, hp, hv]
  refine ⟨fun hu => if_pos (not_not.1 (hunused.not.1 hu)), fun _ hmode => absurd (absurd · hm) hmode,
    fun _ _ hpad => absurd (absurd · hp) hpad, fun hu _ _ => ⟨form, if_neg (hunused.1 hu), ?_⟩⟩
  rw [henc, fieldsOf_commandWord, fields_eq_iff]
  exact ⟨rfl, (hu.1 hm).symm, (hu.2.1 hp).symm, (hu.2.2 hv).symm, hrsv.symm⟩

/-- With RSV = 0 and a defined OP, each operation's arm of Decode makes the checks of its row of R102. -/
theorem followsChecks_decodeFields (hop : f.opDefined) : FollowsChecks f (decodeFields f) := by
  have heq {n : Nat} (h : f.op.toNat = n) : f.op = BitVec.ofNat 5 n := by
    rw [← h, BitVec.ofNat_toNat, BitVec.setWidth_eq]
  obtain ⟨hlo, hhi⟩ := hop
  unfold decodeFields
  rw [if_neg (not_not.2 hrsv)]
  split
  case h_1 h => exact followsChecks_decodeEnvelope hrsv (by simp [h]) (heq h ▸ encode_encryptInstr)
  case h_2 h => exact followsChecks_decodeEnvelope hrsv (by simp [h]) (heq h ▸ encode_decryptInstr)
  case h_3 h => exact followsChecks_decodePadding hrsv (by simp [h]) (heq h ▸ encode_padInstr)
  case h_4 h => exact followsChecks_decodePadding hrsv (by simp [h]) (heq h ▸ encode_unpadInstr)
  case h_5 h => exact followsChecks_decodeDerivation hrsv (by simp [h]) (heq h ▸ fun _ => rfl)
  case h_6 h => exact followsChecks_decodeDerivation hrsv (by simp [h]) (heq h ▸ fun _ => rfl)
  case h_7 h => exact followsChecks_decodeDerivation hrsv (by simp [h]) (heq h ▸ fun _ => rfl)
  case h_8 h => exact followsChecks_decodePlain hrsv (by simp [h]) (heq h ▸ rfl)
  case h_9 h => exact followsChecks_decodePlain hrsv (by simp [h]) (heq h ▸ rfl)
  case h_10 h => exact followsChecks_decodePlain hrsv (by simp [h]) (heq h ▸ rfl)
  case h_11 h => exact followsChecks_decodePlain hrsv (by simp [h]) (heq h ▸ rfl)
  case h_12 => grind

end

/-! ### Decode and encode -/

/-- Decode answers every command with the word of that command. -/
theorem decode_encode (i : Instr) : decode (encode i) = .ok i := by
  cases i with
  | encryptCbc p v | encryptCfb p v | encryptCtr p v | encryptOfb p v | encryptGcm p v | encryptEcb p v
  | decryptCbc p v | decryptCfb p v | decryptCtr p v | decryptOfb p v | decryptGcm p v | decryptEcb p v =>
    cases p <;> cases v <;> rfl
  | derive m | buildHdr m | parseHdr m => cases m <;> rfl
  | padPkcs7 | padIso9797m2 | padAnsix923 | padIso10126 | padZero | padNone | unpadPkcs7 | unpadIso9797m2
  | unpadAnsix923 | unpadIso10126 | unpadZero | unpadNone | ecbEnc | ecbDec | aesEnc | aesDec => rfl

theorem decodeFields_of_rsv {f : Fields} (h : ¬ f.rsvZero) : decodeFields f = .error .illegalCommand := if_pos h

theorem decodeFields_of_op {f : Fields} (hrsv : f.rsvZero) (hop : ¬ f.opDefined) :
    decodeFields f = .error .illegalCommand := by
  unfold decodeFields
  rw [if_neg (not_not.2 hrsv)]
  split
  case h_12 => rfl
  all_goals omega

/-- Settles O2: RSV and OP are checked by Decode itself, the rest by the operation's arm, and the fields determine the
word. -/
theorem decodeFollowsItsChecks : Obligations.DecodeFollowsItsChecks := by
  intro w
  refine ⟨decodeFields_of_rsv, decodeFields_of_op, fun hrsv hop => (followsChecks_decodeFields hrsv hop).unused,
    fun hrsv hop => (followsChecks_decodeFields hrsv hop).mode,
    fun hrsv hop => (followsChecks_decodeFields hrsv hop).pad, ?_⟩
  rintro ⟨hrsv, hop, hunused, hmode, hpad⟩
  obtain ⟨i, hi, hfields⟩ := (followsChecks_decodeFields hrsv hop).ok hunused hmode hpad
  exact ⟨i, hi, fieldsOf_injective hfields⟩

/-- A word that decodes has passed every check. -/
theorem wf_of_decode_ok {w : Word} {i : Instr} (h : decode w = .ok i) : (fieldsOf w).wf := by
  obtain ⟨hrsv, hop, hunused, hmode, hpad, -⟩ := decodeFollowsItsChecks w
  have hne {e : Err} (he : decode w = .error e) : False := nomatch h.symm.trans he
  have h₁ := by_contra fun hn => hne (hrsv hn)
  have h₂ := by_contra fun hn => hne (hop h₁ hn)
  have h₃ := by_contra fun hn => hne (hunused h₁ h₂ hn)
  have h₄ := by_contra fun hn => hne (hmode h₁ h₂ h₃ hn)
  exact ⟨h₁, h₂, h₃, h₄, by_contra fun hn => hne (hpad h₁ h₂ h₃ h₄ hn)⟩

/-- Settles O1: a word that decodes passes every check, so it is the word of the one command it decodes to. -/
theorem decodeEncodeAgree : Obligations.DecodeEncodeAgree := by
  refine fun w i => ⟨fun h => ?_, fun h => h ▸ decode_encode i⟩
  obtain ⟨-, -, -, -, -, hok⟩ := decodeFollowsItsChecks w
  obtain ⟨j, hj, hw⟩ := hok (wf_of_decode_ok h)
  obtain rfl : i = j := Except.ok.inj (h.symm.trans hj)
  exact hw.symm

/-- Settles O5: each word is the command's encoding. -/
theorem writtenOutWordsDecode : Obligations.WrittenOutWordsDecode := by
  unfold Obligations.WrittenOutWordsDecode
  simp only [decodeEncodeAgree _ _]
  decide

/-! ### The opcode map -/

/-- Every command's word is well formed and matches the row of its form (Laws/PerInstr). -/
theorem encode_statement : ∀ i, Laws.Encoding.Statement i := by
  intro i
  cases i with
  | encryptCbc p v => exact Laws.Encoding.encryptCbc p v
  | encryptCfb p v => exact Laws.Encoding.encryptCfb p v
  | encryptCtr p v => exact Laws.Encoding.encryptCtr p v
  | encryptOfb p v => exact Laws.Encoding.encryptOfb p v
  | encryptGcm p v => exact Laws.Encoding.encryptGcm p v
  | encryptEcb p v => exact Laws.Encoding.encryptEcb p v
  | decryptCbc p v => exact Laws.Encoding.decryptCbc p v
  | decryptCfb p v => exact Laws.Encoding.decryptCfb p v
  | decryptCtr p v => exact Laws.Encoding.decryptCtr p v
  | decryptOfb p v => exact Laws.Encoding.decryptOfb p v
  | decryptGcm p v => exact Laws.Encoding.decryptGcm p v
  | decryptEcb p v => exact Laws.Encoding.decryptEcb p v
  | padPkcs7 => exact Laws.Encoding.padPkcs7
  | padIso9797m2 => exact Laws.Encoding.padIso9797m2
  | padAnsix923 => exact Laws.Encoding.padAnsix923
  | padIso10126 => exact Laws.Encoding.padIso10126
  | padZero => exact Laws.Encoding.padZero
  | padNone => exact Laws.Encoding.padNone
  | unpadPkcs7 => exact Laws.Encoding.unpadPkcs7
  | unpadIso9797m2 => exact Laws.Encoding.unpadIso9797m2
  | unpadAnsix923 => exact Laws.Encoding.unpadAnsix923
  | unpadIso10126 => exact Laws.Encoding.unpadIso10126
  | unpadZero => exact Laws.Encoding.unpadZero
  | unpadNone => exact Laws.Encoding.unpadNone
  | derive m => exact Laws.Encoding.derive m
  | buildHdr m => exact Laws.Encoding.buildHdr m
  | parseHdr m => exact Laws.Encoding.parseHdr m
  | ecbEnc => exact Laws.Encoding.ecbEnc
  | ecbDec => exact Laws.Encoding.ecbDec
  | aesEnc => exact Laws.Encoding.aesEnc
  | aesDec => exact Laws.Encoding.aesDec

/-- Two different rows differ in a bit that both masks keep (R114). -/
theorem opcodeRows_disjoint : ∀ row ∈ opcodeRows, ∀ row' ∈ opcodeRows,
    row.pat &&& row'.mask = row'.pat &&& row.mask → row = row' := by decide +kernel

theorem row_unique {w : Word} {row row' : OpcodeRow} (hrow : row ∈ opcodeRows) (hrow' : row' ∈ opcodeRows)
    (h : w &&& row.mask = row.pat) (h' : w &&& row'.mask = row'.pat) : row = row' := by
  refine opcodeRows_disjoint row hrow row' hrow' ?_
  rw [← h, ← h', BitVec.and_assoc, BitVec.and_assoc, BitVec.and_comm row.mask]

/-- Settles O4: a word that decodes is a command's, which matches the row of its form and no other. -/
theorem opcodeMapNamesTheForm : Obligations.OpcodeMapNamesTheForm := by
  refine ⟨fun w i row hrow hw hd => ?_, fun w hnone => ?_⟩
  · obtain rfl := (decodeEncodeAgree w i).1 hd
    obtain ⟨-, row', hrow', hform, hw'⟩ := encode_statement i
    rw [← hform, row_unique hrow hrow' hw hw']
  · cases hd : decode w with
    | error e => exact ⟨e, rfl⟩
    | ok i =>
      obtain rfl := (decodeEncodeAgree w i).1 hd
      obtain ⟨-, row, hrow, -, hw⟩ := encode_statement i
      exact absurd hw (hnone row hrow)

end Sys2Proof

namespace Sys2Proof.Machine

/-! ### The engine's turn -/

/-- The engine's turn is the engine's step from the state past the agenda's entry. -/
theorem EngineTurn.step_eq {s t : State} (h : EngineTurn s t) : step s = engineStep t := by
  obtain ⟨rest, ha⟩ | ha := h <;> simp only [step, ha]

theorem EngineTurn.phase_eq {s t : State} (h : EngineTurn s t) : t.phase = s.phase := by
  obtain ⟨rest, -⟩ | - := h <;> rfl

theorem engineStep_of_ok {s : State} {op : Latch} {i : Instr} (hp : s.phase = .busy op)
    (hd : decode op.cmd = .ok i) : engineStep s = exec i s := by
  simp only [engineStep, hp, hd]

theorem engineStep_of_error {s : State} {op : Latch} {e : Err} (hp : s.phase = .busy op)
    (hd : decode op.cmd = .error e) : engineStep s = .next (completeErr e s) := by
  simp only [engineStep, hp, hd]

/-- Settles O6: the turn steps the engine, and the word in flight decodes. -/
theorem engineStepRunsTheDecodedCommand : Obligations.EngineStepRunsTheDecodedCommand :=
  fun _ _ _ _ hturn hp hd => hturn.step_eq.trans (engineStep_of_ok (hturn.phase_eq.trans hp) hd)

/-- Settles O3: Decode's first failing check gives the error, and the engine completes with it. -/
theorem reservedWordsCompleteWithTheirError : Obligations.ReservedWordsCompleteWithTheirError := by
  intro s t op hturn hp
  obtain ⟨hrsv, hop, hunused, hmode, hpad, -⟩ := decodeFollowsItsChecks op.cmd
  have hstep {e : Err} (hd : decode op.cmd = .error e) : step s = .next { t with
      phase := .idle, done := true, hdr := false, errcode := errCode e, outlenLo := 0#32, outlenHi := 0#32 } := by
    rw [hturn.step_eq, engineStep_of_error (hturn.phase_eq.trans hp) hd, completeErr_eq]
  refine ⟨fun h => hstep (e := .illegalCommand) ?_, fun h₁ h₂ h₃ h => hstep (e := .unsupportedMode) ?_⟩
  · by_cases h₁ : (fieldsOf op.cmd).rsvZero
    · by_cases h₂ : (fieldsOf op.cmd).opDefined
      · exact hunused h₁ h₂ ((h.resolve_left (not_not.2 h₁)).resolve_left (not_not.2 h₂))
      · exact hop h₁ h₂
    · exact hrsv h₁
  · by_cases h₄ : (fieldsOf op.cmd).modeDefined
    · exact hpad h₁ h₂ h₃ h₄ (h.resolve_left (not_not.2 h₄))
    · exact hmode h₁ h₂ h₃ h₄

/-! ### What a rule does not read -/

/-- No rule reads OUT or OUTLEN. -/
theorem ruleOf_out (i : Instr) (s : State) (out : Memory) (lo hi : Word) :
    ruleOf i { s with out := out, outlenLo := lo, outlenHi := hi } = ruleOf i s := by
  cases i <;> rfl

/-- No rule reads what the host was returned (log entry 10). -/
theorem ruleOf_returned (i : Instr) (s : State) (v : Returned) :
    ruleOf i { s with returned := v } = ruleOf i s := by
  cases i <;> rfl

/-- In ECB the key is the caller's and there is no IV, whatever IVP is (R373). -/
theorem encryptKeying_ecb (ivp : Bool) (s : State) (k : Bytes) :
    encryptKeying .ecb ivp s k = Run.ret ⟨[], k, []⟩ := if_pos rfl

/-- In ECB the body of an input with no header needs no IV, whatever IVP is (R380). -/
theorem plainBody_ecb (ivp : Bool) (s : State) (k : Bytes) :
    plainBody .ecb ivp s k = (readIn s 0 s.inBytes).bind fun c => Run.ret ⟨k, [], c, false⟩ := rfl

/-- Settles O58: DERIVE, PAD and UNPAD read other buffers than KEY, no rule reads OUT, and ECB's keying never reads IVP
or IV. -/
theorem deriveAndPadIgnoreKeyAllIgnoreOutEcbIgnoresIv :
    Obligations.DeriveAndPadIgnoreKeyAllIgnoreOutEcbIgnoresIv := by
  refine ⟨fun i s key hi => ?_, ruleOf_out, fun sch s iv => ⟨?_, ?_⟩⟩
  · obtain ⟨m, rfl⟩ | ⟨sch, rfl⟩ | ⟨sch, rfl⟩ := hi
    · rfl
    · rw [ruleOf_padInstr, ruleOf_padInstr]
      rfl
    · rw [ruleOf_unpadInstr, ruleOf_unpadInstr]
      rfl
  · simp only [ruleOf, encryptRule, encryptKeying_ecb]
    rfl
  · simp only [ruleOf, decryptRule, plainBody_ecb]
    rfl

/-! ### WAIT and GETOUT -/

section
variable {s : State} {x y : String} {names : List (String × Value)} {later : List Stmt}

/-- The engine's turn leaves the program and the names. -/
theorem step_engine {t : State} (h : engineStep s = .next t) :
    Session.step .engine ⟨s, later, names⟩ = .next ⟨t, later, names⟩ := Session.on_engine _ h

/-- The host's read of a CTRL register that R461 does not forbid changes only what it was returned. -/
theorem hostStep_ctrlRead {off : Nat} (hf : ctrlForm 32 off = true) (hb : s.isBusy = false ∨ outlenReg off = false) :
    hostStep (.ctrlRead 32 off) s = { s with returned := .word (readReg s off) } := hostCtrlRead_of_form hf hb

/-- A poll binds its name to STATUS, and stays for as long as DONE = 0 (R117). -/
theorem step_poll : Session.step .host ⟨s, .poll x :: later, names⟩ =
    .next ⟨{ s with returned := .word (statusWord s) }, if s.done = true then later else .poll x :: later,
      (x, .word (statusWord s)) :: names⟩ := by
  simp only [Session.step, Session.hostTurn, Session.on_host, hostStep_ctrlRead (s := s) (off := 0x04) rfl (.inr rfl),
    readReg, pollDone_word, statusWord_done]
  rfl

theorem step_poll_waiting (hd : s.done = false) : Session.step .host ⟨s, .poll x :: later, names⟩ =
    .next ⟨{ s with returned := .word (statusWord s) }, .poll x :: later, (x, .word (statusWord s)) :: names⟩ := by
  rw [step_poll, if_neg (Bool.not_eq_true _ ▸ hd)]

theorem step_poll_done (hd : s.done = true) : Session.step .host ⟨s, .poll x :: later, names⟩ =
    .next ⟨{ s with returned := .word (statusWord s) }, later, (x, .word (statusWord s)) :: names⟩ := by
  rw [step_poll, if_pos hd]

theorem step_rd32 {off : Nat} {w : Word} (hf : ctrlForm 32 off = true) (hb : s.isBusy = false)
    (hw : readReg s off = w) :
    Session.step .host ⟨s, .rd32 off x :: later, names⟩ =
      .next ⟨{ s with returned := .word w }, later, (x, .word w) :: names⟩ := by
  simp only [Session.step, Session.hostTurn, Session.on_host, hostStep_ctrlRead hf (.inl hb), hw]
  rfl

theorem step_rdb {a n : Nat} {got : Bytes} {b : Byte} (hb : s.isBusy = false) (ha : a < s.platform.outCap)
    (hr : s.out.read a = some b) :
    Session.step .host ⟨s, .rdb .out a (n + 1) y (.bytes got) :: later, names⟩ =
      .next ⟨{ s with returned := .byte b }, .rdb .out (a + 1) n y (.bytes (got ++ [b])) :: later, names⟩ := by
  simp only [Session.step, Session.hostTurn, Session.on_host, hostStep,
    hostBufRead_of_written (sp := .out) ha (.inl hb) hr]
  rfl

/-- The count of GETOUT's RDB is the two names joined (R117). -/
theorem step_rdbLen {hi lo : String} {h l : Word} {n : Nat} (hhi : lookupName hi names = .word h)
    (hlo : lookupName lo names = .word l) (hn : (h ++ l).toNat = n) :
    Session.step .host ⟨s, .rdbLen .out 0 hi lo y :: later, names⟩ =
      .next ⟨s, .rdb .out 0 n y (.bytes []) :: later, names⟩ := by
  simp only [Session.step, Session.hostTurn, hhi, hlo, hn]

/-- WAIT stays at its statement for as long as DONE = 0 (R117). -/
theorem run_wait (hd : s.done = false) (n : Nat) : ∃ names',
    Session.run (List.replicate n .host) ⟨s, wait x ++ later, names⟩ =
      .next ⟨if n = 0 then s else { s with returned := .word (statusWord s) }, wait x ++ later, names'⟩ := by
  induction n generalizing s names with
  | zero => exact ⟨names, rfl⟩
  | succ n ih =>
    obtain ⟨names', h⟩ := ih (s := { s with returned := .word (statusWord s) })
      (names := (x, .word (statusWord s)) :: names) hd
    refine ⟨names', (Session.run_cons (step_poll_waiting hd) _).trans (h.trans ?_)⟩
    rw [if_neg (Nat.succ_ne_zero n)]
    split <;> rfl

/-- RDB reads its bytes in turn and binds its name to them (R116). -/
theorem run_rdb {a n : Nat} {got b : Bytes} (hb : s.isBusy = false) (hn : a + n ≤ s.platform.outCap)
    (hr : s.out.readRange a n = some b) : ∃ v,
    Session.run (List.replicate (n + 1) .host) ⟨s, .rdb .out a n y (.bytes got) :: later, names⟩ =
      .next ⟨{ s with returned := v }, later, (y, .bytes (got ++ b)) :: names⟩ := by
  induction n generalizing s a got b with
  | zero =>
    injection hr with hr
    subst hr
    exact ⟨s.returned, by rw [List.append_nil]; rfl⟩
  | succ n ih =>
    simp only [Memory.readRange] at hr
    split at hr
    · next b₀ rest hb₀ hrest =>
      injection hr with hr
      obtain ⟨v, h⟩ := ih (s := { s with returned := .byte b₀ }) (got := got ++ [b₀]) hb
        (show a + 1 + n ≤ s.platform.outCap by omega) hrest
      refine ⟨v, ?_⟩
      rw [List.replicate_succ, Session.run_cons (step_rdb hb (by omega) hb₀), h, ← hr, List.append_assoc]
      rfl
    · exact nomatch hr

/-- GETOUT reads OUTLEN and then as many bytes of OUT (R117). -/
theorem run_getOut {r : Bytes} (hb : s.isBusy = false) (hl : s.outlen.toNat = r.length) (hfit : s.fits r)
    (hr : s.out.readRange 0 r.length = some r) : ∃ v names',
    Session.run (List.replicate (r.length + 4) .host) ⟨s, getOut y, names⟩ =
      .next ⟨{ s with returned := v }, [], (y, .bytes r) :: names'⟩ := by
  obtain ⟨v, hrdb⟩ := run_rdb (s := { s with returned := .word s.outlenHi }) (y := y) (later := []) (got := [])
    (names := ("hi", .word s.outlenHi) :: ("lo", .word s.outlenLo) :: names) hb (Nat.zero_add _ ▸ hfit) hr
  refine ⟨v, ("hi", .word s.outlenHi) :: ("lo", .word s.outlenLo) :: names, ?_⟩
  calc
    _ = Session.run (List.replicate (r.length + 3) .host) ⟨{ s with returned := .word s.outlenLo },
          [.rd32 0x24 "hi", .rdbLen .out 0 "hi" "lo" y], ("lo", .word s.outlenLo) :: names⟩ :=
      Session.run_cons (step_rd32 rfl hb rfl) _
    _ = Session.run (List.replicate (r.length + 2) .host) ⟨{ s with returned := .word s.outlenHi },
          [.rdbLen .out 0 "hi" "lo" y], ("hi", .word s.outlenHi) :: ("lo", .word s.outlenLo) :: names⟩ :=
      Session.run_cons (step_rd32 (s := { s with returned := .word s.outlenLo }) rfl hb rfl) _
    _ = _ := (Session.run_cons (step_rdbLen rfl rfl hl) _).trans hrdb

/-- After the completion WAIT ends at its next poll, and GETOUT follows. -/
theorem run_wait_getOut {r : Bytes} (hd : s.done = true) (hb : s.isBusy = false) (hl : s.outlen.toNat = r.length)
    (hfit : s.fits r) (hr : s.out.readRange 0 r.length = some r) : ∃ v names',
    Session.run (List.replicate (r.length + 5) .host) ⟨s, wait x ++ getOut y, names⟩ =
      .next ⟨{ s with returned := v }, [], (y, .bytes r) :: names'⟩ := by
  obtain ⟨v, names', h⟩ := run_getOut (s := { s with returned := .word (statusWord s) }) (y := y)
    (names := (x, .word (statusWord s)) :: names) hb hl hfit hr
  exact ⟨v, names', (Session.run_cons (step_poll_done hd) _).trans h⟩

/-- The engine's turn completes the command in flight with its rule's result (R410), whatever the host was returned
before. -/
theorem engineStep_completes {op : Latch} {i : Instr} {r : Result} {rest : Bytes} (hp : s.phase = .busy op)
    (hd : decode op.cmd = .ok i) (hr : ruleOf i s s.entropy = .done r rest) (hfit : s.fits r.bytes) (v : Returned) :
    engineStep { s with returned := v } =
      .next (completeOk r.bytes r.hdr { s with entropy := rest, returned := v }) := by
  rw [engineStep_of_ok (s := { s with returned := v }) hp hd]
  exact exec_of_done (s := { s with returned := v }) ((congrFun (ruleOf_returned i s v) _).trans hr) hfit

end

/-- Settles O60: the polls change only what was returned, the engine's turn completes with `r`, and the poll after it
lets GETOUT read `r` back. -/
theorem waitThenGetOutReadsTheResult : Obligations.WaitThenGetOutReadsTheResult := by
  refine ⟨fun s x later names n hd => run_wait hd n,
    fun i s op r rest x y names n hlegal hwf hd hp hdec hr hfit => ?_⟩
  obtain ⟨names₁, hwait⟩ := run_wait (x := x) (later := getOut y) (names := names) hd n
  obtain ⟨v, hv⟩ : ∃ v, (if n = 0 then s else { s with returned := .word (statusWord s) }) =
      { s with returned := v } := by
    split
    · exact ⟨s.returned, rfl⟩
    · exact ⟨_, rfl⟩
  have hengine := engineStep_completes hp hdec hr hfit v
  obtain ⟨v', names₂, hget⟩ := run_wait_getOut (x := x) (y := y) (names := names₁)
    (completeOk_done _ r.bytes r.hdr) (isBusy_completeOk _ r.bytes r.hdr)
    (outlen_completeOk_toNat (s := { s with entropy := rest, returned := v }) hlegal hfit r.hdr) hfit
    (Memory.readRange_writeRange hwf 0 r.bytes)
  rw [List.append_assoc, Session.run_append (hwait.trans (by rw [hv]))]
  exact ⟨_, (Session.run_cons (step_engine hengine) _).trans hget, rfl, if_pos rfl, rfl⟩

end Sys2Proof.Machine
end

section
/-! SUPPORT. The statements on padding (spec 40_padding.md): the block-size check, what PAD and UNPAD answer when their
input is given, and what Pad and Unpad compute, scheme by scheme. -/

namespace Sys2Proof.Machine

variable {sch : Scheme} {d fill rest r : Bytes} {b n k : Nat} {x : Byte} {s : State} {e : Err}

/-! ### The block-size check -/

theorem checkB_ok (h : blockSizeOk sch b = true) : checkB sch b = .ok () := if_pos h

theorem checkB_bad (h : blockSizeOk sch b = false) : checkB sch b = .error .paddingValidation :=
  if_neg (Bool.eq_false_iff.1 h)

theorem pad_of_blockSizeOk (h : blockSizeOk sch b = true) : pad sch d b fill = padWith sch d b fill := by
  simp only [pad, checkB_ok h]

theorem pad_of_blockSizeBad (h : blockSizeOk sch b = false) : pad sch d b fill = .error .paddingValidation := by
  simp only [pad, checkB_bad h]

theorem unpad_of_blockSizeOk (h : blockSizeOk sch b = true) : unpad sch d b = unpadBody sch d b := by
  simp only [unpad, checkB_ok h]

/-- Every scheme's range starts at 1 (R141). -/
theorem blockSizeOk_pos (h : blockSizeOk sch b = true) : 1 ≤ b := by
  cases sch <;> exact (of_decide_eq_true h).1

/-! ### What PAD and UNPAD answer -/

/-- PAD stops at a block size out of range, whatever IN holds (R141, R142). -/
theorem padRule_blockSizeBad (hin : s.inBytes ≤ s.platform.inCap) (hb : blockSizeOk sch s.blockSize = false) :
    padRule sch s = Run.raise .paddingValidation := by
  simp only [padRule, checkIn_ok hin, checkB_bad hb, ret_bind, lift_error, raise_bind]

/-- UNPAD stops at a block size out of range, whatever IN holds (R141, R150). -/
theorem unpadRule_blockSizeBad (hin : s.inBytes ≤ s.platform.inCap) (hb : blockSizeOk sch s.blockSize = false) :
    unpadRule sch s = Run.raise .paddingValidation := by
  simp only [unpadRule, checkIn_ok hin, checkB_bad hb, ret_bind, lift_error, raise_bind]

/-- Settles O31: a block size past either end of the range fails CheckB, which comes before the read of IN. -/
theorem blockSizeIsCheckedNext : Obligations.BlockSizeIsCheckedNext := by
  intro sch i s hi hin hsize
  have hb : blockSizeOk sch s.blockSize = false := by
    cases sch <;> simp only [blockSizeOk, decide_eq_false_iff_not] at hsize ⊢ <;> omega
  obtain rfl | rfl := hi
  · exact exec_of_raise ((ruleOf_padInstr sch s).trans (padRule_blockSizeBad hin hb))
  · exact exec_of_raise ((ruleOf_unpadInstr sch s).trans (unpadRule_blockSizeBad hin hb))

section
variable (hd : s.inIs d) (hb : blockSizeOk sch s.blockSize = true)
include hd hb

theorem padRule_of_inIs :
    padRule sch s = (padRun sch d s.blockSize).bind fun r => Run.ret ⟨r, false⟩ := by
  simp only [padRule, checkIn_ok hd.1, checkB_ok hb, lift_ok, ret_bind, readIn, Nat.sub_zero, read_bind hd.2]

theorem unpadRule_of_inIs :
    unpadRule sch s = (Run.lift (unpadBody sch d s.blockSize)).bind fun r => Run.ret ⟨r, false⟩ := by
  simp only [unpadRule, checkIn_ok hd.1, checkB_ok hb, lift_ok, ret_bind, readIn, Nat.sub_zero, read_bind hd.2,
    unpad_of_blockSizeOk hb]

/-- PAD completes with the padded data and has used up its filler (R142, R148). -/
theorem exec_padInstr_ok (hl : fill.length = fillerLen sch d.length s.blockSize) (he : s.entropy = fill ++ rest)
    (hr : padWith sch d s.blockSize fill = .ok r) (hfit : s.fits r) :
    exec (padInstr sch) s = .next (completeOk r false { s with entropy := rest }) := by
  have hrun := padRun_done (rest := rest) hl ((pad_of_blockSizeOk hb).trans hr)
  refine exec_of_done ?_ hfit
  rw [ruleOf_padInstr, padRule_of_inIs hd hb, he, bind_done _ hrun, ret_apply]

/-- A PAD command that takes no draw completes with the padded data (R142). -/
theorem exec_padInstr_noDraw (hl : fillerLen sch d.length s.blockSize = 0)
    (hr : padWith sch d s.blockSize [] = .ok r) (hfit : s.fits r) :
    exec (padInstr sch) s = .next (completeOk r false s) :=
  exec_padInstr_ok (fill := []) hd hb hl.symm rfl hr hfit

/-- A PAD command that takes no draw completes with its scheme's error (R142). -/
theorem exec_padInstr_error (hl : fillerLen sch d.length s.blockSize = 0)
    (hr : padWith sch d s.blockSize [] = .error e) : exec (padInstr sch) s = .next (completeErr e s) := by
  refine exec_of_raise ?_
  simp only [ruleOf_padInstr, padRule_of_inIs hd hb, padRun, checkB_ok hb, hl, draw_zero, lift_ok, ret_bind, hr,
    lift_error, raise_bind]

theorem exec_unpadInstr_ok (hr : unpadBody sch d s.blockSize = .ok r) (hfit : s.fits r) :
    exec (unpadInstr sch) s = .next (completeOk r false s) := by
  refine exec_of_ret ?_ hfit
  rw [ruleOf_unpadInstr, unpadRule_of_inIs hd hb, hr, lift_ok, ret_bind]

theorem exec_unpadInstr_error (hr : unpadBody sch d s.blockSize = .error e) :
    exec (unpadInstr sch) s = .next (completeErr e s) := by
  refine exec_of_raise ?_
  rw [ruleOf_unpadInstr, unpadRule_of_inIs hd hb, hr, lift_error, raise_bind]

end

/-! ### Pad -/

theorem padWith_noPad_ok (h : d.length % b = 0) : padWith .noPad d b fill = .ok d := if_neg (not_not.2 h)

theorem padWith_noPad_error (h : d.length % b ≠ 0) : padWith .noPad d b fill = .error .blockAlignment := if_pos h

/-- Settles O36: each clause is one scheme's Pad, under a command that draws nothing. -/
theorem padCommandsPad : Obligations.PadCommandsPad := by
  intro s d hd
  refine ⟨fun hb => exec_padInstr_noDraw (sch := .pkcs7) hd hb rfl rfl,
    fun hb => exec_padInstr_noDraw (sch := .zero) hd hb rfl rfl,
    fun hb => exec_padInstr_noDraw (sch := .iso9797m2) hd hb rfl ?iso9797m2,
    fun hb => exec_padInstr_noDraw (sch := .ansix923) hd hb rfl rfl,
    fun hb => ⟨fun h => exec_padInstr_noDraw (sch := .noPad) hd hb rfl (padWith_noPad_ok h),
      fun h => exec_padInstr_error (sch := .noPad) hd hb rfl (padWith_noPad_error h)⟩⟩
  case iso9797m2 => simp only [padWith, zeroPad, List.length_append, List.length_singleton]

/-- Settles O37: the drawn bytes are the filler of Pad. -/
theorem padIso10126DrawsItsFiller : Obligations.PadIso10126DrawsItsFiller :=
  fun _ _ _ _ hd hlo hhi ⟨he, hl⟩ =>
    exec_padInstr_ok (sch := .iso10126) hd (decide_eq_true ⟨hlo, hhi⟩) hl he rfl

/-- Every scheme but NoPadding adds PadLen bytes to the data, to which ISO/IEC 9797-1 Method 2 has added its marker
(R143 to R148). -/
theorem padWith_length (hs : sch ≠ .noPad) (hb : 1 ≤ b) (hl : fill.length = fillerLen sch d.length b) :
    ∃ p l, padWith sch d b fill = .ok p ∧ d.length ≤ l ∧ p.length = l + padLen l b := by
  obtain ⟨hpos, -⟩ := padLen_bounds d.length hb
  cases sch with
  | noPad => exact absurd rfl hs
  | pkcs7 => exact ⟨_, d.length, rfl, Nat.le_refl _, by simp⟩
  | zero => exact ⟨_, d.length, rfl, Nat.le_refl _, length_zeroPad d b⟩
  | iso9797m2 => exact ⟨_, (d ++ [0x80#8]).length, rfl, by simp, length_zeroPad _ b⟩
  | ansix923 =>
    refine ⟨_, d.length, rfl, Nat.le_refl _, ?_⟩
    simp only [List.length_append, length_rep, List.length_singleton]
    omega
  | iso10126 =>
    refine ⟨_, d.length, rfl, Nat.le_refl _, ?_⟩
    simp only [List.length_append, hl, fillerLen, List.length_singleton]
    omega

/-- Pad of a block size in range fails in NoPadding only, for data that is not whole blocks (R146, R149). -/
theorem padWith_error (h : padWith sch d b fill = .error e) :
    sch = .noPad ∧ d.length % b ≠ 0 ∧ e = .blockAlignment := by
  cases sch with
  | noPad =>
    by_cases hm : d.length % b = 0
    · rw [padWith_noPad_ok hm] at h
      exact nomatch h
    · rw [padWith_noPad_error hm] at h
      injection h with h
      exact ⟨rfl, hm, h.symm⟩
  | pkcs7 | iso9797m2 | ansix923 | iso10126 | zero => exact nomatch h

/-- Settles O41: CheckB fails or the scheme does, and PadLen fills the last block. -/
theorem padFailsOnlyByItsChecks : Obligations.PadFailsOnlyByItsChecks := by
  refine fun sch d fill b hl => ⟨fun e he => ?_, fun hs hb => ?_⟩
  · cases hb : blockSizeOk sch b with
    | false =>
      rw [pad_of_blockSizeBad hb] at he
      injection he with he
      exact .inl ⟨rfl, he.symm⟩
    | true => exact .inr (padWith_error ((pad_of_blockSizeOk hb).symm.trans he))
  · have hpos := blockSizeOk_pos hb
    obtain ⟨p, l, hp, hdl, hlen⟩ := padWith_length hs hpos hl
    refine ⟨p, (pad_of_blockSizeOk hb).trans hp, hlen ▸ padLen_fills l hpos, ?_⟩
    have := padLen_bounds l hpos
    omega

/-! ### The count byte -/

theorem byteOf_toNat (h : n ≤ 255) : (byteOf n).toNat = n := by
  rw [byteOf, BitVec.toNat_ofNat, Nat.mod_eq_of_lt (by omega)]

@[simp] theorem byteOf_toNat_self (x : Byte) : byteOf x.toNat = x := by
  rw [byteOf, BitVec.ofNat_toNat, BitVec.setWidth_eq]

/-- A count byte of 0, above B or above the length is rejected, and so is an empty input (R151, R155, R157). -/
theorem padCount_error
    (h : d = [] ∨ ∃ x, d.getLast? = some x ∧ (x = 0#8 ∨ b < x.toNat ∨ d.length < x.toNat)) :
    padCount d b = .error .paddingValidation := by
  obtain rfl | ⟨x, hx, h⟩ := h
  · rfl
  · simp only [padCount, hx]
    refine if_pos (h.imp_left fun h0 => ?_)
    rw [h0, BitVec.toNat_zero]

/-- A count byte in range is the count (R151, R155, R157). -/
theorem padCount_ok (hx : d.getLast? = some x) (h0 : 1 ≤ x.toNat) (hb : x.toNat ≤ b) (hl : x.toNat ≤ d.length) :
    padCount d b = .ok x.toNat := by
  simp only [padCount, hx]
  exact if_neg (by omega)

/-- A last byte no greater than the length is the count or is rejected. -/
theorem padCount_cases (hx : d.getLast? = some x) (hl : x.toNat ≤ d.length) :
    padCount d b = .error .paddingValidation ∨ (1 ≤ x.toNat ∧ padCount d b = .ok x.toNat) := by
  by_cases h : 1 ≤ x.toNat ∧ x.toNat ≤ b
  · exact .inr ⟨h.1, padCount_ok hx h.1 h.2 hl⟩
  · refine .inl (padCount_error (.inr ⟨x, hx, ?_⟩))
    obtain h0 | hpos := Nat.eq_zero_or_pos x.toNat
    · exact .inl (BitVec.eq_of_toNat_eq h0)
    · exact .inr (.inl (Nat.lt_of_not_le fun hb => h ⟨hpos, hb⟩))

/-! ### Unpad, given the count -/

theorem unpadBody_of_padCount_error (hs : sch = .pkcs7 ∨ sch = .ansix923 ∨ sch = .iso10126)
    (h : padCount d b = .error e) : unpadBody sch d b = .error e := by
  obtain rfl | rfl | rfl := hs <;> simp only [unpadBody, h]

/-- PKCS7 compares the last N bytes (R151). -/
theorem unpadBody_pkcs7_of_count (h : padCount d b = .ok n) :
    unpadBody .pkcs7 d b = if slice d (d.length - n) d.length ≠ rep (byteOf n) n then .error .paddingValidation
      else .ok (d.take (d.length - n)) := by
  simp only [unpadBody, h]

/-- ANSI X.923 compares the N − 1 bytes before the count byte (R155). -/
theorem unpadBody_ansix923_of_count (h : padCount d b = .ok n) :
    unpadBody .ansix923 d b = if slice d (d.length - n) (d.length - 1) ≠ rep 0#8 (n - 1) then
      .error .paddingValidation else .ok (d.take (d.length - n)) := by
  simp only [unpadBody, h]

/-- ISO10126 compares nothing (R157). -/
theorem unpadBody_iso10126_of_count (h : padCount d b = .ok n) :
    unpadBody .iso10126 d b = .ok (d.take (d.length - n)) := by
  simp only [unpadBody, h]

/-! ### Unpad of counted padding -/

theorem rep_eq_append (x : Byte) (h : 1 ≤ n) : rep x n = rep x (n - 1) ++ [x] := by
  obtain ⟨m, rfl⟩ := Nat.exists_eq_add_of_le' h
  exact List.replicate_succ'

section
variable (hfill : fill.length = n - 1) (h1 : 1 ≤ n)
include hfill h1

theorem length_padded : (d ++ fill ++ [x]).length = d.length + n := by
  simp only [List.length_append, List.length_singleton]
  omega

theorem padCount_padded (hnb : n ≤ b) (h255 : n ≤ 255) : padCount (d ++ fill ++ [byteOf n]) b = .ok n := by
  have hx := byteOf_toNat h255
  have hlen := length_padded (d := d) (x := byteOf n) hfill h1
  have hc := padCount_ok (b := b) (List.getLast?_concat (l := d ++ fill) (a := byteOf n)) (by omega) (by omega)
    (by omega)
  rwa [hx] at hc

/-- ISO10126 gives the data back exactly when its count fits a byte (R157, R158). -/
theorem unpadBody_iso10126_padded (hnb : n ≤ b) (h256 : n ≤ 256) :
    unpadBody .iso10126 (d ++ fill ++ [byteOf n]) b = .ok d ↔ n ≤ 255 := by
  refine ⟨fun h => ?_, fun h255 => ?_⟩
  · by_contra h255
    have hzero : byteOf n = 0#8 := by rw [show n = 256 by omega]; rfl
    have hcount := padCount_error (b := b) (.inr ⟨_, List.getLast?_concat (l := d ++ fill), .inl hzero⟩)
    rw [unpadBody_of_padCount_error (.inr (.inr rfl)) hcount] at h
    exact nomatch h
  · rw [unpadBody_iso10126_of_count (padCount_padded hfill h1 hnb h255), length_padded hfill h1,
      Nat.add_sub_cancel, List.append_assoc, List.take_left]

end

section
variable (h1 : 1 ≤ n) (hnb : n ≤ b) (h255 : n ≤ 255)
include h1 hnb h255

theorem unpadBody_pkcs7_padded : unpadBody .pkcs7 (d ++ rep (byteOf n) n) b = .ok d := by
  have hcount : padCount (d ++ rep (byteOf n) n) b = .ok n := by
    rw [rep_eq_append _ h1, ← List.append_assoc]
    exact padCount_padded (length_rep _ _) h1 hnb h255
  have hlen : (d ++ rep (byteOf n) n).length = d.length + n := by simp
  have hslice : slice (d ++ rep (byteOf n) n) d.length (d.length + n) = rep (byteOf n) n := by
    simp [slice, rep]
  rw [unpadBody_pkcs7_of_count hcount, hlen, Nat.add_sub_cancel, hslice, if_neg (not_not.2 rfl), List.take_left]

theorem unpadBody_ansix923_padded : unpadBody .ansix923 (d ++ rep 0#8 (n - 1) ++ [byteOf n]) b = .ok d := by
  have hcount := padCount_padded (d := d) (length_rep 0#8 (n - 1)) h1 hnb h255
  have hlen := length_padded (d := d) (x := byteOf n) (length_rep 0#8 (n - 1)) h1
  have hslice : slice (d ++ rep 0#8 (n - 1) ++ [byteOf n]) d.length (d.length + n - 1) = rep 0#8 (n - 1) := by
    rw [slice, List.append_assoc, List.drop_left, show d.length + n - 1 - d.length = n - 1 by omega]
    exact List.take_left' (length_rep 0#8 (n - 1))
  rw [unpadBody_ansix923_of_count hcount, hlen, Nat.add_sub_cancel, hslice, if_neg (not_not.2 rfl),
    List.append_assoc, List.take_left]

end

/-! ### Unpad of zero bytes and of no padding -/

theorem stripZeros_append_rep (d : Bytes) (k : Nat) : stripZeros (d ++ rep 0#8 k) = stripZeros d := by
  induction k with
  | zero => rw [rep, List.replicate_zero, List.append_nil]
  | succ k ih =>
    rw [rep_eq_append _ (Nat.succ_pos k), ← List.append_assoc]
    exact (List.rdropWhile_concat_pos _ _ _ rfl).trans ih

theorem stripZeros_concat (hx : x ≠ 0#8) : stripZeros (d ++ [x]) = d ++ [x] :=
  List.rdropWhile_concat_neg _ _ _ (by simpa using hx)

/-- ZeroPadding gives the data back exactly when they do not end in a zero byte (R152). -/
theorem unpadBody_zero_padded : unpadBody .zero (d ++ rep 0#8 k) b = .ok d ↔ d.getLast? ≠ some 0#8 := by
  rw [unpadBody, stripZeros_append_rep, Except.ok.injEq, stripZeros, List.rdropWhile_eq_self_iff]
  cases d using List.reverseRecOn <;> simp

/-- The last non-zero byte is dropped, whatever it is (R153, R154). -/
theorem unpadBody_iso9797m2_padded (hx : x ≠ 0#8) : unpadBody .iso9797m2 (d ++ [x] ++ rep 0#8 k) b = .ok d := by
  simp only [unpadBody, stripZeros_append_rep, stripZeros_concat hx, List.dropLast_concat]
  exact if_neg (by simp)

/-- Nothing is left of zeros (R153). -/
theorem unpadBody_iso9797m2_zeros (h : ∀ x ∈ d, x = 0#8) :
    unpadBody .iso9797m2 d b = .error .paddingValidation := by
  have hnil : stripZeros d = [] := List.rdropWhile_eq_nil_iff.2 fun x hx => beq_iff_eq.2 (h x hx)
  simp only [unpadBody, hnil]
  rfl

theorem unpadBody_noPad_ok (h : d.length % b = 0) : unpadBody .noPad d b = .ok d := if_neg (not_not.2 h)

theorem unpadBody_noPad_error (h : d.length % b ≠ 0) : unpadBody .noPad d b = .error .blockAlignment := if_pos h

/-- Settles O38: each clause is its scheme's Unpad of padded data. -/
theorem unpadCommandsStrip : Obligations.UnpadCommandsStrip := by
  refine fun s d fill n hfit h1 hn => ⟨fun hb hin => ?pkcs7, fun hb hin => ?ansix923,
    fun hb h255 hl hin => ?iso10126, fun k hb hlast hin => ?zero, fun k x hb hx hin => ?iso9797m2,
    fun hb hm hin => ?noPad⟩
  case pkcs7 =>
    have h255 := (of_decide_eq_true hb).2
    exact exec_unpadInstr_ok (sch := .pkcs7) hin hb (unpadBody_pkcs7_padded h1 hn (hn.trans h255)) hfit
  case ansix923 =>
    have h255 := (of_decide_eq_true hb).2
    exact exec_unpadInstr_ok (sch := .ansix923) hin hb (unpadBody_ansix923_padded h1 hn (hn.trans h255)) hfit
  case iso10126 =>
    exact exec_unpadInstr_ok (sch := .iso10126) hin hb
      ((unpadBody_iso10126_padded hl h1 hn (Nat.le_succ_of_le h255)).2 h255) hfit
  case zero => exact exec_unpadInstr_ok (sch := .zero) hin hb (unpadBody_zero_padded.2 hlast) hfit
  case iso9797m2 => exact exec_unpadInstr_ok (sch := .iso9797m2) hin hb (unpadBody_iso9797m2_padded hx) hfit
  case noPad => exact exec_unpadInstr_ok (sch := .noPad) hin hb (unpadBody_noPad_ok hm) hfit

/-! ### Unpad of a mismatched filler -/

section
variable (hx : d.getLast? = some x) (hl : x.toNat ≤ d.length)
include hx hl

/-- PKCS7 rejects a byte of its padding that is not the count (R151). -/
theorem unpadBody_pkcs7_mismatch (h : ∃ y ∈ d.drop (d.length - x.toNat), y ≠ x) :
    unpadBody .pkcs7 d b = .error .paddingValidation := by
  obtain ⟨y, hy, hne⟩ := h
  obtain hcount | ⟨-, hcount⟩ := padCount_cases (b := b) hx hl
  · exact unpadBody_of_padCount_error (.inl rfl) hcount
  · rw [unpadBody_pkcs7_of_count hcount, byteOf_toNat_self]
    refine if_pos fun heq => ?_
    have hslice : slice d (d.length - x.toNat) d.length = d.drop (d.length - x.toNat) :=
      List.take_of_length_le (by rw [List.length_drop])
    rw [← hslice, heq] at hy
    exact hne (List.eq_of_mem_replicate hy)

/-- ANSI X.923 rejects a byte of its filler that is not 0 (R155, R156). -/
theorem unpadBody_ansix923_mismatch (h : ∃ y ∈ (d.drop (d.length - x.toNat)).dropLast, y ≠ 0#8) :
    unpadBody .ansix923 d b = .error .paddingValidation := by
  obtain ⟨y, hy, hne⟩ := h
  obtain hcount | ⟨hpos, hcount⟩ := padCount_cases (b := b) hx hl
  · exact unpadBody_of_padCount_error (.inr (.inl rfl)) hcount
  · rw [unpadBody_ansix923_of_count hcount]
    refine if_pos fun heq => ?_
    have hslice : slice d (d.length - x.toNat) (d.length - 1) = (d.drop (d.length - x.toNat)).dropLast := by
      rw [slice, List.dropLast_eq_take, List.length_drop]
      congr 1
      omega
    rw [← hslice, heq] at hy
    exact hne (List.eq_of_mem_replicate hy)

end

/-- Settles O39: each clause is a rejection of its scheme's Unpad. -/
theorem unpadCommandsReject : Obligations.UnpadCommandsReject := by
  refine fun s d hd => ⟨fun i sch hi hb h => ?count,
    fun x hb hx hl h => exec_unpadInstr_error (sch := .pkcs7) hd hb (unpadBody_pkcs7_mismatch hx hl h),
    fun x hb hx hl h => exec_unpadInstr_error (sch := .ansix923) hd hb (unpadBody_ansix923_mismatch hx hl h),
    fun hb h => exec_unpadInstr_error (sch := .iso9797m2) hd hb (unpadBody_iso9797m2_zeros h),
    fun hb h => exec_unpadInstr_error (sch := .noPad) hd hb (unpadBody_noPad_error h)⟩
  case count =>
    obtain ⟨rfl, hs⟩ : i = unpadInstr sch ∧ (sch = .pkcs7 ∨ sch = .ansix923 ∨ sch = .iso10126) := by
      simp only [List.mem_cons, Prod.mk.injEq, List.not_mem_nil, or_false] at hi
      obtain ⟨rfl, rfl⟩ | ⟨rfl, rfl⟩ | ⟨rfl, rfl⟩ := hi <;> decide
    exact exec_unpadInstr_error hd hb (unpadBody_of_padCount_error hs (padCount_error h))

/-! ### The round trip -/

/-- Past CheckB the round trip is Unpad of what Pad computes. -/
theorem roundTrip_iff (hb : blockSizeOk sch b = true) (hp : padWith sch d b fill = .ok r) :
    (∃ p, pad sch d b fill = .ok p ∧ unpad sch p b = .ok d) ↔ unpadBody sch r b = .ok d := by
  simp only [pad_of_blockSizeOk hb, unpad_of_blockSizeOk hb, hp, Except.ok.injEq, exists_eq_left']

/-- PadLen is 256 for B = 256 and data that is a multiple of 256 only (R140, R158). -/
theorem padLen_le_255_iff (l : Nat) (h1 : 1 ≤ b) (h256 : b ≤ 256) :
    padLen l b ≤ 255 ↔ b ≤ 255 ∨ l % 256 ≠ 0 := by
  by_cases h255 : b ≤ 255
  · exact iff_of_true ((padLen_bounds l h1).2.trans h255) (.inl h255)
  · obtain rfl : b = 256 := by omega
    unfold padLen
    omega

theorem noPad_roundTrip_iff (hb : blockSizeOk .noPad b = true) :
    (∃ p, pad .noPad d b fill = .ok p ∧ unpad .noPad p b = .ok d) ↔ d.length % b = 0 := by
  by_cases hm : d.length % b = 0
  · exact (roundTrip_iff hb (padWith_noPad_ok hm)).trans (iff_of_true (unpadBody_noPad_ok hm) hm)
  · refine iff_of_false (fun ⟨p, hp, _⟩ => ?_) hm
    rw [pad_of_blockSizeOk hb, padWith_noPad_error hm] at hp
    exact nomatch hp

/-- Settles O40: scheme by scheme, Unpad of padded data with PadLen as the count. -/
theorem paddingRoundTrips : Obligations.PaddingRoundTrips := by
  refine fun sch d fill b hb hl => ⟨?_, ?misaligned⟩
  case misaligned =>
    rintro rfl hm
    exact ⟨(pad_of_blockSizeOk hb).trans (padWith_noPad_error hm),
      (unpad_of_blockSizeOk hb).trans (unpadBody_noPad_error hm)⟩
  obtain ⟨h1, hn⟩ := padLen_bounds d.length (blockSizeOk_pos hb)
  cases sch with
  | pkcs7 =>
    have h255 := hn.trans (of_decide_eq_true hb).2
    exact (roundTrip_iff hb rfl).trans (iff_true_intro (unpadBody_pkcs7_padded h1 hn h255))
  | iso9797m2 =>
    exact (roundTrip_iff hb rfl).trans (iff_true_intro (unpadBody_iso9797m2_padded (by decide)))
  | ansix923 =>
    have h255 := hn.trans (of_decide_eq_true hb).2
    exact (roundTrip_iff hb rfl).trans (iff_true_intro (unpadBody_ansix923_padded h1 hn h255))
  | iso10126 =>
    obtain ⟨hlo, h256⟩ := of_decide_eq_true hb
    exact ((roundTrip_iff hb rfl).trans (unpadBody_iso10126_padded hl h1 hn (hn.trans h256))).trans
      (padLen_le_255_iff d.length hlo h256)
  | noPad => exact noPad_roundTrip_iff hb
  | zero =>
    refine ((roundTrip_iff hb rfl).trans unpadBody_zero_padded).trans ?_
    cases d using List.reverseRecOn <;> simp

end Sys2Proof.Machine
end

section
/-! SUPPORT. The statements on key derivation (spec 41_derivation.md): the digests behind the key material, what DERIVE,
BUILD_HDR and PARSE_HDR answer when their operands are given, and that PARSE_HDR undoes BUILD_HDR. -/

namespace Sys2Proof.Machine

variable {m : Mode} {s : State} {k salt pw rest : Bytes}

/-! ### The digests of the derivation (R197) -/

/-- The digests that `kdfDigests` concatenates, one by one. -/
def kdfDigestList (salt pw : Bytes) : Nat → Bytes → List Bytes
  | 0, _ => []
  | n + 1, prev => md5 (prev ++ pw ++ salt) :: kdfDigestList salt pw n (md5 (prev ++ pw ++ salt))

@[simp] theorem length_kdfDigestList (salt pw : Bytes) (n : Nat) (prev : Bytes) :
    (kdfDigestList salt pw n prev).length = n := by
  induction n generalizing prev with
  | zero => rfl
  | succ n ih => simp only [kdfDigestList, List.length_cons, ih]

theorem flatten_kdfDigestList (salt pw : Bytes) (n : Nat) (prev : Bytes) :
    (kdfDigestList salt pw n prev).flatten = kdfDigests salt pw n prev := by
  induction n generalizing prev with
  | zero => rfl
  | succ n ih => simp only [kdfDigestList, kdfDigests, List.flatten_cons, ih]

/-- Each digest hashes the one before it, or what the derivation began with, then the password and the salt. -/
theorem kdfDigestList_recurrence {n j : Nat} {prev d : Bytes} (h : (kdfDigestList salt pw n prev)[j]? = some d) :
    d = md5 ((if j = 0 then prev else ((kdfDigestList salt pw n prev)[j - 1]?).getD []) ++ pw ++ salt) := by
  induction n generalizing prev j with
  | zero => simp [kdfDigestList] at h
  | succ n ih =>
    cases j with
    | zero => simpa [kdfDigestList] using h.symm
    | succ j =>
      have hd := ih (prev := md5 (prev ++ pw ++ salt)) (j := j) h
      cases j with
      | zero => exact hd
      | succ j => exact hd

theorem deriveKeyMaterial_eq (salt pw : Bytes) (ks ts : Nat) :
    deriveKeyMaterial salt pw ks ts =
      ((kdfDigestList salt pw ((ts + 15) / 16) []).flatten.take ks,
        ((kdfDigestList salt pw ((ts + 15) / 16) []).flatten.take ts).drop ks) := by
  simp only [flatten_kdfDigestList, deriveKeyMaterial, slice, List.drop_zero, Nat.sub_zero, List.drop_take]

/-! ### What DERIVE, BUILD_HDR and PARSE_HDR answer -/

/-- The derived key and then the derived IV, as the three commands return them (R200 to R202). -/
def keyMaterial (m : Mode) (salt pw : Bytes) (ks : Nat) : Bytes :=
  (deriveKeyMaterial salt pw ks (ks + ivSize m)).1 ++ (deriveKeyMaterial salt pw ks (ks + ivSize m)).2

@[simp] theorem length_keyMaterial (m : Mode) (salt pw : Bytes) (ks : Nat) :
    (keyMaterial m salt pw ks).length = ks + ivSize m := by
  rw [keyMaterial, List.length_append, length_derivedKey _ _ (Nat.le_add_right _ _), length_derivedIv,
    Nat.add_sub_cancel_left]

/-- DERIVE does not read KEY (R200). -/
theorem deriveRule_of_operands (hkey : keySizeLegal s.keyBytes = true) (hsalt : s.saltIs salt) (hpw : s.inIs pw) :
    deriveRule m s = Run.ret ⟨keyMaterial m salt pw s.keyBytes, false⟩ := by
  simp only [deriveRule, checkIn_ok hpw.1, checkKey_ok hkey, ret_bind, readSalt, read_bind hsalt, readIn, Nat.sub_zero,
    read_bind hpw.2, keyMaterial, totalSize]

/-- BUILD_HDR does not look at INLEN or IN (R201). -/
theorem buildHdrRule_of_operands (hk : s.keyIs k) (hdraw : s.drawIs 8 salt rest) :
    buildHdrRule m s s.entropy = .done ⟨header salt ++ keyMaterial m salt k s.keyBytes, false⟩ rest := by
  obtain ⟨hentropy, hsalt⟩ := hdraw
  simp only [hentropy, buildHdrRule, checkKey_ok hk.1, ret_bind, readKey, read_bind hk.2, saltLen, draw_bind hsalt,
    ret_apply, keyMaterial, totalSize, List.append_assoc]

/-- PARSE_HDR reads no other byte of IN than the salt (R202). -/
theorem parseHdrRule_of_operands (hk : s.keyIs k) (hn : 16 ≤ s.inBytes) (hin : s.inBytes ≤ s.platform.inCap)
    (hsalt : s.inp.readRange 8 8 = some salt) :
    parseHdrRule m s = Run.ret ⟨keyMaterial m salt k s.keyBytes, false⟩ := by
  simp only [parseHdrRule, checkIn_ok hin, checkKey_ok hk.1, hdrLen, hn, decide_true, check_true, ret_bind, readIn,
    Nat.reduceSub, read_bind hsalt, readKey, read_bind hk.2, keyMaterial, totalSize]

theorem exec_buildHdr_ok (hk : s.keyIs k) (hdraw : s.drawIs 8 salt rest)
    (hfit : 16 + s.keyBytes + ivSize m ≤ s.platform.outCap) :
    exec (.buildHdr m) s = .next
      (completeOk (header salt ++ keyMaterial m salt k s.keyBytes) false { s with entropy := rest }) := by
  refine exec_of_done (buildHdrRule_of_operands hk hdraw) ?_
  simp only [List.length_append, length_header, length_keyMaterial, hdraw.2]
  omega

theorem exec_parseHdr_ok (hk : s.keyIs k) (hn : 16 ≤ s.inBytes) (hin : s.inBytes ≤ s.platform.inCap)
    (hsalt : s.inp.readRange 8 8 = some salt) (hfit : s.keyBytes + ivSize m ≤ s.platform.outCap) :
    exec (.parseHdr m) s = .next (completeOk (keyMaterial m salt k s.keyBytes) false s) :=
  exec_of_ret (parseHdrRule_of_operands hk hn hin hsalt) ((length_keyMaterial ..).trans_le hfit)

/-- Settles O42: the digests are `kdfDigestList`, and DERIVE's rule returns the material without reading KEY. -/
theorem deriveReturnsKeyMaterial : Obligations.DeriveReturnsKeyMaterial := by
  refine ⟨fun salt pw ks ts hle => ?material, fun m s salt pw hkey hsalt hpw hfit => ?command⟩
  case material =>
    exact ⟨kdfDigestList salt pw ((ts + 15) / 16) [], length_kdfDigestList .., fun j d => kdfDigestList_recurrence,
      deriveKeyMaterial_eq .., length_derivedKey salt pw hle, length_derivedIv ..⟩
  case command =>
    exact exec_of_ret (deriveRule_of_operands hkey hsalt hpw) ((length_keyMaterial ..).trans_le hfit)

/-- Settles O43: BUILD_HDR's rule takes its salt from the answers and checks nothing of IN. -/
theorem buildHdrReturnsHeaderAndMaterial : Obligations.BuildHdrReturnsHeaderAndMaterial := by
  intro m s k salt rest hk hdraw hfit
  rw [exec_buildHdr_ok hk hdraw hfit, keyMaterial, header, ← List.append_assoc]

/-- Settles O44: of IN, PARSE_HDR's rule reads the eight salt bytes. -/
theorem parseHdrReturnsKeyMaterial : Obligations.ParseHdrReturnsKeyMaterial :=
  fun _ _ _ _ hk hn hin hsalt hfit => exec_parseHdr_ok hk hn hin hsalt hfit

/-! ### PARSE_HDR after BUILD_HDR -/

/-- The two parts of a result, read back from OUT after the completion (R76, R410). -/
theorem readRange_out_completeOk (hwf : s.out.wf = true) (x y : Bytes) (hdr : Bool) :
    (completeOk (x ++ y) hdr s).out.readRange 0 x.length = some x ∧
      (completeOk (x ++ y) hdr s).out.readRange x.length y.length = some y := by
  have hall := Memory.readRange_writeRange hwf 0 (x ++ y)
  rw [List.length_append] at hall
  simpa using Memory.readRange_split hall

/-- Settles O45: OUT[0..16) is the header, so IN[8..16) is the salt drawn, and both commands derive from it alike. -/
theorem parseHdrRecoversWhatBuildHdrAppended : Obligations.ParseHdrRecoversWhatBuildHdrAppended := by
  intro m s t k salt rest h hk hdraw _ hfit hkt hks ht hfitt hwf s' hexec hread
  have hsalt : salt.length = 8 := hdraw.2
  rw [exec_buildHdr_ok hk hdraw hfit] at hexec
  injection hexec with hexec
  subst hexec
  obtain ⟨hhdr, hmaterial⟩ := readRange_out_completeOk (s := { s with entropy := rest }) hwf (header salt)
    (keyMaterial m salt k s.keyBytes) false
  rw [length_header, hsalt] at hhdr hmaterial
  rw [length_keyMaterial] at hmaterial
  have hh : h = header salt := Option.some.inj (hread.symm.trans hhdr)
  have hn : t.inBytes = 16 := by rw [← Memory.readRange_length ht.2, hh, length_header, hsalt]
  have hsaltIn : t.inp.readRange 8 8 = some salt := by
    rw [Memory.readRange_part ht.2 (by omega), hh, header, ← length_magic, List.drop_left, length_magic, ← hsalt,
      List.take_length]
  refine ⟨keyMaterial m salt k s.keyBytes, hmaterial, ?_⟩
  rw [← hks] at hfitt ⊢
  exact exec_parseHdr_ok hkt hn.ge ht.1 hsaltIn hfitt

end Sys2Proof.Machine
end

section
/-! SUPPORT. The statements on the AES primitive (spec 42_aes_primitive.md): the key length check, what AES_ENC and
AES_DEC answer when their operands are given, and that the cipher and the inverse cipher undo each other. -/

namespace Sys2Proof.Machine

/-! ### The key length check (R244) -/

/-- Every rule that uses the key starts with CheckKey, once INLEN is within IN where the rule reads IN (R362, R401). -/
theorem ruleOf_of_usesKey {i : Instr} {s : State} (hi : usesKey i = true)
    (hin : readsIn i = true → s.inBytes ≤ s.platform.inCap) : ∃ f, ruleOf i s = (checkKey s).bind f := by
  cases i with
  | buildHdr => exact ⟨_, rfl⟩
  | padPkcs7 | padIso9797m2 | padAnsix923 | padIso10126 | padZero | padNone => exact nomatch hi
  | unpadPkcs7 | unpadIso9797m2 | unpadAnsix923 | unpadIso10126 | unpadZero | unpadNone => exact nomatch hi
  | encryptCbc | encryptCfb | encryptCtr | encryptOfb | encryptGcm | encryptEcb =>
    exact ⟨_, by rw [ruleOf, encryptRule, checkIn_ok (hin rfl), ret_bind]⟩
  | decryptCbc | decryptCfb | decryptCtr | decryptOfb | decryptGcm | decryptEcb =>
    exact ⟨_, by rw [ruleOf, decryptRule, checkIn_ok (hin rfl), ret_bind]⟩
  | derive => exact ⟨_, by rw [ruleOf, deriveRule, checkIn_ok (hin rfl), ret_bind]⟩
  | parseHdr => exact ⟨_, by rw [ruleOf, parseHdrRule, checkIn_ok (hin rfl), ret_bind]⟩
  | ecbEnc | ecbDec | aesEnc | aesDec => exact ⟨_, by rw [ruleOf, blockRule, checkIn_ok (hin rfl), ret_bind]⟩

/-- Settles O30: CheckKey comes before every read and draw of the command's rule. -/
theorem keyLengthIsCheckedNext : Obligations.KeyLengthIsCheckedNext := by
  intro i s hi hin h16 h24 h32
  have hkey : keySizeLegal s.keyBytes = false := by simp [keySizeLegal, h16, h24, h32]
  obtain ⟨f, hf⟩ := ruleOf_of_usesKey hi hin
  exact exec_of_raise (by rw [hf, checkKey_bad hkey, raise_bind])

/-! ### What the block commands answer -/

/-- A block command whose operands are given and aligned returns its transform of them. -/
theorem blockRule_of_operands {s : State} {k x : Bytes} {aligned : Nat → Bool} (hk : s.keyIs k) (hx : s.inIs x)
    (ha : aligned x.length = true) (f : Bytes → Bytes → Bytes) :
    blockRule aligned f s = Run.ret ⟨f k x, false⟩ := by
  rw [Memory.readRange_length hx.2] at ha
  simp only [blockRule, checkIn_ok hx.1, checkKey_ok hk.1, ha, check_true, ret_bind, readKey, read_bind hk.2, readIn,
    Nat.sub_zero, read_bind hx.2]

/-- Settles O46: one block is what both commands ask of INLEN, and their results are 16 bytes. -/
theorem aesCommandsReturnTheCipher : Obligations.AesCommandsReturnTheCipher := by
  intro s k x hk hx hlen hfit
  have ha : oneBlock x.length = true := decide_eq_true hlen
  exact ⟨exec_of_ret (blockRule_of_operands hk hx ha aesEnc) hfit,
    exec_of_ret (blockRule_of_operands hk hx ha aesDec) hfit⟩

/-! ### SubBytes, ShiftRows and AddRoundKey -/

/-- The two tables of R234 and R236 are inverse permutations. -/
theorem sbox_inverse : ∀ x : Byte, invSbox (sbox x) = x ∧ sbox (invSbox x) = x := by decide +kernel

@[simp] theorem invSbox_sbox (x : Byte) : invSbox (sbox x) = x := (sbox_inverse x).1

@[simp] theorem sbox_invSbox (x : Byte) : sbox (invSbox x) = x := (sbox_inverse x).2

@[simp] theorem invSubBytes_subBytes (s : AesState) : invSubBytes (subBytes s) = s := by
  simp [invSubBytes, subBytes, AesState.mapCols, Col.map]

@[simp] theorem subBytes_invSubBytes (s : AesState) : subBytes (invSubBytes s) = s := by
  simp [invSubBytes, subBytes, AesState.mapCols, Col.map]

@[simp] theorem invShiftRows_shiftRows (s : AesState) : invShiftRows (shiftRows s) = s := rfl

@[simp] theorem shiftRows_invShiftRows (s : AesState) : shiftRows (invShiftRows s) = s := rfl

@[simp] theorem Col.add_add_cancel (x y : Col) : (x.add y).add y = x := by
  simp [Col.add]

@[simp] theorem addRoundKey_addRoundKey (w : List Col) (r : Nat) (s : AesState) :
    addRoundKey w r (addRoundKey w r s) = s := by
  simp [addRoundKey]

/-! ### MixColumns -/

/-- Multiplication by x adds over exclusive-or: the shift does, and so does the reduction by the top bit. -/
theorem xtime_xor (a b : Byte) : xtime (a ^^^ b) = xtime a ^^^ xtime b := by
  have hreduce (p q : Bool) : (if (p ^^ q) then 0x1B#8 else 0x00#8) =
      (if p then 0x1B#8 else 0x00#8) ^^^ (if q then 0x1B#8 else 0x00#8) := by
    cases p <;> cases q <;> rfl
  rw [xtime, BitVec.shiftLeft_xor_distrib, BitVec.getLsbD_xor, hreduce, xtime, xtime]
  ac_rfl

/-! The six multipliers of R239, as the sums of powers of x that their bits say (R231). -/

theorem gmul_02 (a : Byte) : gmul 0x02 a = xtime a := by
  simp [gmul, gmulFuel]

theorem gmul_03 (a : Byte) : gmul 0x03 a = a ^^^ xtime a := by
  simp [gmul, gmulFuel]

theorem gmul_09 (a : Byte) : gmul 0x09 a = a ^^^ xtime (xtime (xtime a)) := by
  simp [gmul, gmulFuel]

theorem gmul_0b (a : Byte) : gmul 0x0b a = a ^^^ xtime a ^^^ xtime (xtime (xtime a)) := by
  simp [gmul, gmulFuel, BitVec.xor_assoc]

theorem gmul_0d (a : Byte) : gmul 0x0d a = a ^^^ xtime (xtime a) ^^^ xtime (xtime (xtime a)) := by
  simp [gmul, gmulFuel, BitVec.xor_assoc]

theorem gmul_0e (a : Byte) : gmul 0x0e a = xtime a ^^^ xtime (xtime a) ^^^ xtime (xtime (xtime a)) := by
  simp [gmul, gmulFuel, BitVec.xor_assoc]

/-- In a sum put in order, two equal terms stand side by side and go. -/
theorem xor_cancel_left (a b : Byte) : a ^^^ (a ^^^ b) = b := by
  rw [← BitVec.xor_assoc, BitVec.xor_self, BitVec.zero_xor]

/-- As sums of the column's bytes times powers of x, every term but the byte itself occurs an even number of times. -/
@[simp] theorem invMixCol_mixCol (a : Col) : invMixCol (mixCol a) = a := by
  simp only [invMixCol, mixCol, gmul_02, gmul_03, gmul_09, gmul_0b, gmul_0d, gmul_0e, xtime_xor]
  ac_nf
  simp only [xor_cancel_left, BitVec.xor_self, BitVec.xor_zero]

@[simp] theorem mixCol_invMixCol (a : Col) : mixCol (invMixCol a) = a := by
  simp only [invMixCol, mixCol, gmul_02, gmul_03, gmul_09, gmul_0b, gmul_0d, gmul_0e, xtime_xor]
  ac_nf
  simp only [xor_cancel_left, BitVec.xor_self, BitVec.xor_zero]

@[simp] theorem invMixColumns_mixColumns (s : AesState) : invMixColumns (mixColumns s) = s := by
  simp [invMixColumns, mixColumns, AesState.mapCols]

@[simp] theorem mixColumns_invMixColumns (s : AesState) : mixColumns (invMixColumns s) = s := by
  simp [invMixColumns, mixColumns, AesState.mapCols]

/-! ### The rounds -/

/-- Where each `g` undoes the `f` of its index behind `p`, a run of `g` in reverse order undoes a run of `f`. -/
theorem foldl_reverse_undoes {σ ι : Type} {f g : σ → ι → σ} {p : σ → σ} (h : ∀ s r, g (p (f s r)) r = p s)
    (l : List ι) (s : σ) : l.reverse.foldl g (p (l.foldl f s)) = p s := by
  induction l generalizing s with
  | nil => rfl
  | cons r l ih => rw [List.foldl_cons, List.reverse_cons, List.foldl_append, ih, List.foldl_cons, List.foldl_nil, h]

/-- The rounds of the two ciphers are cut at different places: an inner round of the inverse cipher undoes SubBytes and
ShiftRows of the round after it, and puts them back for the round itself. -/
theorem decRound_encRound (w : List Col) (s : AesState) (r : Nat) :
    decRound w (shiftRows (subBytes (encRound w s r))) r = shiftRows (subBytes s) := by
  simp [decRound, encRound]

theorem encRound_decRound (w : List Col) (s : AesState) (r : Nat) :
    encRound w (invSubBytes (invShiftRows (decRound w s r))) r = invSubBytes (invShiftRows s) := by
  simp [decRound, encRound]

theorem decState_encState (w : List Col) (nr : Nat) (s : AesState) : decState w nr (encState w nr s) = s := by
  have hinner := foldl_reverse_undoes (p := fun s => shiftRows (subBytes s)) (decRound_encRound w)
    (List.range' 1 (nr - 1)) (addRoundKey w 0 s)
  simp only [decState, encState, addRoundKey_addRoundKey, hinner, invShiftRows_shiftRows, invSubBytes_subBytes]

theorem encState_decState (w : List Col) (nr : Nat) (s : AesState) : encState w nr (decState w nr s) = s := by
  have hinner := foldl_reverse_undoes (p := fun s => invSubBytes (invShiftRows s)) (encRound_decRound w)
    (List.range' 1 (nr - 1)).reverse (addRoundKey w nr s)
  rw [List.reverse_reverse] at hinner
  simp only [decState, encState, addRoundKey_addRoundKey, hinner, subBytes_invSubBytes, shiftRows_invShiftRows]

/-! ### The cipher -/

@[simp] theorem loadState_storeState (s : AesState) : loadState (storeState s) = s := rfl

theorem storeState_loadState {x : Bytes} (h : x.length = 16) : storeState (loadState x) = x := by
  match x, h with
  | [_, _, _, _, _, _, _, _, _, _, _, _, _, _, _, _], _ => rfl

theorem aesDec_aesEnc (k : Bytes) {x : Bytes} (h : x.length = 16) : aesDec k (aesEnc k x) = x := by
  rw [aesDec, aesEnc, loadState_storeState, decState_encState, storeState_loadState h]

theorem aesEnc_aesDec (k : Bytes) {x : Bytes} (h : x.length = 16) : aesEnc k (aesDec k x) = x := by
  rw [aesDec, aesEnc, loadState_storeState, encState_decState, storeState_loadState h]

/-- Settles O48: round by round, each step of one cipher is undone by its inverse in the other, whatever the round keys
are. -/
theorem cipherInverts : Obligations.CipherInverts :=
  fun k _ _ hx => ⟨aesDec_aesEnc k hx, aesEnc_aesDec k hx⟩

end Sys2Proof.Machine
end

section
/-! SUPPORT. The statements on the ECB adapter (spec 43_ecb_adapter.md): what ECB_ENC and ECB_DEC make of each block,
what DECRYPT makes of a given input, and the commands that fail because their input is not whole blocks. -/

namespace Sys2Proof.Machine

/-! ### The blocks of a result (R282, R283) -/

theorem slice_add (x : Bytes) (n i j : Nat) : slice x (n + i) (n + j) = slice (x.drop n) i j := by
  rw [slice, slice, List.drop_drop, Nat.add_sub_add_left]

/-- Where each segment gives 16 bytes, block i of the result is what segment i gives (R282, R283). -/
theorem slice_flatten_map_segs {f : Bytes → Bytes} (hf : ∀ b, (f b).length = 16) {x : Bytes} {i : Nat}
    (hi : 16 * i < x.length) :
    slice ((segs x).map f).flatten (16 * i) (16 * i + 16) = f (slice x (16 * i) (16 * i + 16)) := by
  have hx : x ≠ [] := List.ne_nil_of_length_pos (Nat.zero_lt_of_lt hi)
  induction i generalizing x with
  | zero =>
    rw [segs_of_ne_nil hx, List.map_cons, List.flatten_cons]
    exact List.take_left' (hf _)
  | succ i ih =>
    have hrest : 16 * i < (x.drop 16).length := by
      rw [List.length_drop]
      omega
    rw [segs_of_ne_nil hx, List.map_cons, List.flatten_cons, show 16 * (i + 1) = 16 + 16 * i by omega, Nat.add_assoc,
      slice_add, slice_add, List.drop_left' (hf _)]
    exact ih hrest (List.ne_nil_of_length_pos (Nat.zero_lt_of_lt hrest))

theorem slice_ecbEnc (k : Bytes) {x : Bytes} {i : Nat} (hi : 16 * i < x.length) :
    slice (ecbEnc k x) (16 * i) (16 * i + 16) = aesEnc k (slice x (16 * i) (16 * i + 16)) :=
  slice_flatten_map_segs (length_aesEnc k) hi

theorem slice_ecbDec (k : Bytes) {x : Bytes} {i : Nat} (hi : 16 * i < x.length) :
    slice (ecbDec k x) (16 * i) (16 * i + 16) = aesDec k (slice x (16 * i) (16 * i + 16)) :=
  slice_flatten_map_segs (length_aesDec k) hi

theorem length_ecbEnc_of_whole (k : Bytes) {x : Bytes} (h : x.length % 16 = 0) :
    (ecbEnc k x).length = x.length := by
  rw [length_ecbEnc]
  omega

theorem length_ecbDec_of_whole (k : Bytes) {x : Bytes} (h : x.length % 16 = 0) :
    (ecbDec k x).length = x.length := by
  rw [length_ecbDec]
  omega

/-- Settles O47: the results are `ecbEnc` and `ecbDec` of IN, which transform each block on its own. -/
theorem ecbCommandsTransformEachBlock : Obligations.EcbCommandsTransformEachBlock := by
  intro s k x hk hx hwhole hfit
  have ha : wholeBlocks x.length = true := decide_eq_true hwhole
  have henc := length_ecbEnc_of_whole k hwhole
  have hdec := length_ecbDec_of_whole k hwhole
  exact ⟨ecbEnc k x, ecbDec k x, exec_of_ret (blockRule_of_operands hk hx ha ecbEnc) (henc ▸ hfit),
    exec_of_ret (blockRule_of_operands hk hx ha ecbDec) (hdec ▸ hfit), henc, hdec,
    fun i hi => ⟨slice_ecbEnc k hi, slice_ecbDec k hi⟩⟩

/-! ### The block commands and PARSE_HDR of another length -/

section
variable {s : State} (hin : s.inBytes ≤ s.platform.inCap) (hkey : keySizeLegal s.keyBytes = true)
include hin hkey

theorem blockRule_misaligned {aligned : Nat → Bool} (ha : aligned s.inBytes = false) (f : Bytes → Bytes → Bytes) :
    blockRule aligned f s = Run.raise .blockAlignment := by
  simp only [blockRule, checkIn_ok hin, checkKey_ok hkey, ha, check_false, ret_bind, raise_bind]

theorem parseHdrRule_short (m : Mode) (hn : s.inBytes < 16) : parseHdrRule m s = Run.raise .blockAlignment := by
  have hcut : decide (hdrLen ≤ s.inBytes) = false := decide_eq_false (Nat.not_le.2 hn)
  simp only [parseHdrRule, checkIn_ok hin, checkKey_ok hkey, hcut, check_false, ret_bind, raise_bind]

end

/-! ### DECRYPT of a given input -/

section
variable {m : Mode} {sch : Scheme} {ivp : Bool} {s : State} {k x v : Bytes}

/-- Steps 3 and 4 of DECRYPT, on a body found in step 1 or 2 (R376 to R379). -/
def decryptBody (m : Mode) (sch : Scheme) (b : Body) : Run Result :=
  (Run.check (!(modePads m && decide (b.text.length % blk ≠ 0))) .blockAlignment).bind fun _ =>
  (Run.lift (modeDecrypt m b.key b.iv b.text)).bind fun p =>
  (Run.lift (unpadStep m sch p)).bind fun r =>
  Run.ret ⟨r, b.hdr⟩

/-- DECRYPT of an input with a header (R375). -/
theorem decryptRule_of_magic (hk : s.keyIs k) (hx : s.inIs x) (hmagic : x.take 8 = magic) :
    decryptRule m sch ivp s = (saltedBody m s k).bind (decryptBody m sch) := by
  simp only [decryptRule, checkIn_ok hx.1, checkKey_ok hk.1, ret_bind, readKey, read_bind hk.2,
    recognise_bind hx.2, beq_iff_eq.2 hmagic]
  rfl

/-- DECRYPT of an input with no header (R380). -/
theorem decryptRule_of_not_magic (hk : s.keyIs k) (hx : s.inIs x) (hmagic : x.take 8 ≠ magic) :
    decryptRule m sch ivp s = (plainBody m ivp s k).bind (decryptBody m sch) := by
  simp only [decryptRule, checkIn_ok hx.1, checkKey_ok hk.1, ret_bind, readKey, read_bind hk.2,
    recognise_bind hx.2, beq_false_of_ne hmagic]
  rfl

/-- A header cut short fails before its salt is read (R375). -/
theorem saltedBody_short (m : Mode) (k : Bytes) (hn : s.inBytes < 16) :
    saltedBody m s k = Run.raise .blockAlignment := by
  have hcut : decide (hdrLen ≤ s.inBytes) = false := decide_eq_false (Nat.not_le.2 hn)
  rw [saltedBody, hcut, check_false, raise_bind]

/-- The salted body is what follows the header, under the key and IV derived from the header's salt (R375). -/
theorem saltedBody_of_inIs (m : Mode) (k : Bytes) (hx : s.inIs x) (hn : 16 ≤ x.length) :
    saltedBody m s k = Run.ret ⟨(saltedKeying m k ((x.drop 8).take 8) s.keyBytes).key,
      (saltedKeying m k ((x.drop 8).take 8) s.keyBytes).iv, x.drop 16, true⟩ := by
  have hl : x.length = s.inBytes := Memory.readRange_length hx.2
  have hsalt : s.inp.readRange 8 (16 - 8) = some ((x.drop 8).take 8) := Memory.readRange_part hx.2 (by omega)
  have hbody : s.inp.readRange 16 (s.inBytes - 16) = some (x.drop 16) := by
    rw [Memory.readRange_part hx.2 (by omega), List.take_of_length_le (by simp [hl])]
  have hhdr : decide (hdrLen ≤ s.inBytes) = true := decide_eq_true (hl ▸ hn)
  simp only [saltedBody, hhdr, check_true, ret_bind, readIn, read_bind hsalt, read_bind hbody]

/-- In ECB the plain body is the input under the caller's key, with no IV (R380). -/
theorem plainBody_ecb_of_inIs (ivp : Bool) (k : Bytes) (hx : s.inIs x) :
    plainBody .ecb ivp s k = Run.ret ⟨k, [], x, false⟩ := by
  rw [plainBody_ecb, readIn, Nat.sub_zero, read_bind hx.2]

/-- In the other modes the plain body is the input under the caller's key and IV (R364, R380). -/
theorem plainBody_of_ivIs (k : Bytes) (hm : m ≠ .ecb) (hx : s.inIs x) (hv : s.ivIs m v) :
    plainBody m true s k = Run.ret ⟨k, v, x, false⟩ := by
  rw [plainBody, readIn, Nat.sub_zero, read_bind hx.2, if_neg hm, explicitIv_bind hv.1 hv.2]

/-! ### DECRYPT and ENCRYPT of a length that is not whole blocks -/

/-- CBC and ECB reject a body that is not whole blocks (R376). -/
theorem decryptBody_misaligned (sch : Scheme) (hm : modePads m = true) {b : Body} (hb : b.text.length % 16 ≠ 0) :
    decryptBody m sch b = Run.raise .blockAlignment := by
  have hbad : decide (b.text.length % blk ≠ 0) = true := decide_eq_true hb
  rw [decryptBody, hm, hbad]
  rfl

theorem decryptRule_header_short (hk : s.keyIs k) (hx : s.inIs x) (hmagic : x.take 8 = magic)
    (hn : x.length < 16) : decryptRule m sch ivp s = Run.raise .blockAlignment := by
  rw [decryptRule_of_magic hk hx hmagic, saltedBody_short m k (Memory.readRange_length hx.2 ▸ hn), raise_bind]

/-- The header is 16 bytes, so a salted input is whole blocks exactly when its body is. -/
theorem decryptRule_salted_misaligned (hk : s.keyIs k) (hx : s.inIs x) (hmagic : x.take 8 = magic)
    (hm : modePads m = true) (hl : x.length % 16 ≠ 0) :
    decryptRule m sch ivp s = Run.raise .blockAlignment := by
  by_cases hn : x.length < 16
  · exact decryptRule_header_short hk hx hmagic hn
  · have hbody : (x.drop 16).length % 16 ≠ 0 := by
      rw [List.length_drop]
      omega
    rw [decryptRule_of_magic hk hx hmagic, saltedBody_of_inIs m k hx (Nat.not_lt.1 hn), ret_bind,
      decryptBody_misaligned sch hm hbody]

theorem decryptRule_plain_misaligned (hk : s.keyIs k) (hx : s.inIs x) (hmagic : x.take 8 ≠ magic)
    (hm : modePads m = true) (hl : x.length % 16 ≠ 0) (hiv : m = .ecb ∨ (ivp = true ∧ s.ivIs m v)) :
    decryptRule m sch ivp s = Run.raise .blockAlignment := by
  obtain ⟨iv, hbody⟩ : ∃ iv, plainBody m ivp s k = Run.ret ⟨k, iv, x, false⟩ := by
    by_cases hecb : m = .ecb
    · subst hecb
      exact ⟨[], plainBody_ecb_of_inIs ivp k hx⟩
    · obtain ⟨rfl, hv⟩ := hiv.resolve_left hecb
      exact ⟨v, plainBody_of_ivIs k hecb hx hv⟩
  rw [decryptRule_of_not_magic hk hx hmagic, hbody, ret_bind, decryptBody_misaligned sch hm hl]

/-- NoPadding rejects a plaintext that is not whole blocks, and has drawn nothing (R146). -/
theorem padStep_noPad_misaligned (hm : modePads m = true) (hl : x.length % 16 ≠ 0) :
    padStep m .noPad x = Run.raise .blockAlignment := by
  have hdraw : fillerLen .noPad x.length blk = 0 := rfl
  have hpad : padWith .noPad x blk [] = .error .blockAlignment := padWith_noPad_error hl
  rw [padStep, if_pos hm, padRun, checkB_ok rfl, lift_ok, ret_bind, hdraw, draw_zero, ret_bind, hpad, lift_error]

theorem encryptRule_noPad_misaligned (hk : s.keyIs k) (hx : s.inIs x) (hm : modePads m = true)
    (hl : x.length % 16 ≠ 0) : encryptRule m .noPad ivp s = Run.raise .blockAlignment := by
  simp only [encryptRule, checkIn_ok hx.1, checkKey_ok hk.1, ret_bind, readKey, read_bind hk.2, readIn,
    Nat.sub_zero, read_bind hx.2, padStep_noPad_misaligned hm hl, raise_bind]

end

/-- Settles O33: each clause is one alignment check, with the checks and reads before it passed. -/
theorem misalignedLengthsFail : Obligations.MisalignedLengthsFail := by
  intro s hin hkey
  refine ⟨fun hn => ?ecb, fun hn => ?aes, fun m hn => exec_of_raise (parseHdrRule_short hin hkey m hn),
    fun m sch ivp k x hk hx hmagic hn => exec_of_raise ?header,
    fun m sch ivp k x v hk hx hm hl hbody => exec_of_raise ?body,
    fun m ivp k x hk hx hm hl => exec_of_raise ?noPadding⟩
  case ecb =>
    have ha : wholeBlocks s.inBytes = false := decide_eq_false hn
    exact ⟨exec_of_raise (blockRule_misaligned hin hkey ha ecbEnc),
      exec_of_raise (blockRule_misaligned hin hkey ha ecbDec)⟩
  case aes =>
    have ha : oneBlock s.inBytes = false := decide_eq_false hn
    exact ⟨exec_of_raise (blockRule_misaligned hin hkey ha aesEnc),
      exec_of_raise (blockRule_misaligned hin hkey ha aesDec)⟩
  case header => rw [ruleOf_decryptInstr, decryptRule_header_short hk hx hmagic hn]
  case body =>
    rw [ruleOf_decryptInstr]
    by_cases hmagic : x.take 8 = magic
    · exact decryptRule_salted_misaligned hk hx hmagic hm hl
    · exact decryptRule_plain_misaligned hk hx hmagic hm hl (hbody.resolve_left hmagic)
  case noPadding => rw [ruleOf_encryptInstr, encryptRule_noPad_misaligned hk hx hm hl]

end Sys2Proof.Machine
end

section
/-! SUPPORT. The statements on the mode engines (spec 44_modes.md): what each mode makes of a first whole block and of a
last segment, GCM's counter, and what sealing and opening answer. -/

namespace Sys2Proof.Machine

/-! ### Strings by their segments (R300) -/

/-- A non-empty string of at most a block is its one segment. -/
theorem segs_of_length_le {x : Bytes} (hx : x ≠ []) (h : x.length ≤ 16) : segs x = [x] := by
  rw [segs_of_ne_nil hx, List.take_of_length_le h, List.drop_of_length_le h, segs_nil]

/-- Whole blocks in front are segments of their own. -/
theorem segs_append {x : Bytes} (h : x.length % 16 = 0) (y : Bytes) : segs (x ++ y) = segs x ++ segs y := by
  induction x using segs_induction with
  | nil => rfl
  | cons x hx ih =>
    have hpos := List.length_pos_iff.2 hx
    have hblock : (x.take 16).length = 16 := by rw [List.length_take]; omega
    have hrest : (x.drop 16).length % 16 = 0 := by rw [List.length_drop]; omega
    calc segs (x ++ y) = segs (x.take 16 ++ (x.drop 16 ++ y)) := by rw [← List.append_assoc, List.take_append_drop]
      _ = x.take 16 :: (segs (x.drop 16) ++ segs y) := by rw [segs_append_block hblock, ih hrest]
      _ = segs x ++ segs y := by rw [segs_of_ne_nil hx, List.cons_append]

/-- Induction by blocks: a last segment, and a whole block before a rest. -/
theorem blocks_induction {P : Bytes → Prop} (last : ∀ x, x.length ≤ 16 → P x)
    (block : ∀ b rest, b.length = 16 → P rest → P (b ++ rest)) (x : Bytes) : P x := by
  induction x using segs_induction with
  | nil => exact last [] (Nat.zero_le 16)
  | cons x hx ih =>
    by_cases h : x.length ≤ 16
    · exact last x h
    · have hblock : (x.take 16).length = 16 := by rw [List.length_take]; omega
      exact List.take_append_drop 16 x ▸ block _ _ hblock ih

/-! ### A first whole block -/

section
variable {b : Bytes} (h : b.length = 16) (k iv rest : Bytes)
include h

theorem cbcEnc_append_block :
    cbcEnc k iv (b ++ rest) = aesEnc k (xorBytes b iv) ++ cbcEnc k (aesEnc k (xorBytes b iv)) rest :=
  congrArg (cbcEncSegs k iv) (segs_append_block h)

theorem cbcDec_append_block : cbcDec k iv (b ++ rest) = xorBytes (aesDec k b) iv ++ cbcDec k b rest :=
  congrArg (cbcDecSegs k iv) (segs_append_block h)

theorem cfbEnc_append_block :
    cfbEnc k iv (b ++ rest) = xorBytes b (aesEnc k iv) ++ cfbEnc k (xorBytes b (aesEnc k iv)) rest :=
  congrArg (cfbEncSegs k iv) (segs_append_block h)

theorem cfbDec_append_block : cfbDec k iv (b ++ rest) = xorBytes b (aesEnc k iv) ++ cfbDec k b rest :=
  congrArg (cfbDecSegs k iv) (segs_append_block h)

theorem ofbXcrypt_append_block :
    ofbXcrypt k iv (b ++ rest) = xorBytes b (aesEnc k iv) ++ ofbXcrypt k (aesEnc k iv) rest :=
  congrArg (ofbSegs k iv) (segs_append_block h)

/-- CTR's counter is the integer of the counter block, and wraps at 2^128 (R308). -/
theorem ctrXcrypt_append_block (n : Nat) :
    ctrXcrypt k (be n 16) (b ++ rest) =
      xorBytes b (aesEnc k (be n 16)) ++ ctrXcrypt k (be ((n + 1) % 2 ^ 128) 16) rest := by
  have hnext : BitVec.ofNat 128 n + 1#128 = BitVec.ofNat 128 ((n + 1) % 2 ^ 128) := by
    rw [BitVec.ofNat_add_ofNat]
    exact BitVec.eq_of_toNat_eq (by simp)
  rw [ctrXcrypt, ctrXcrypt, segs_append_block h, ctrSegs, toBlock_be, toBlock_be, ofBlock_ofNat, hnext]

theorem gctr_append_block (cb : Block) :
    gctr k cb (b ++ rest) = xorBytes b (aesEnc k (ofBlock cb)) ++ gctr k (inc32 cb) rest :=
  congrArg (gctrSegs k cb) (segs_append_block h)

end

/-! ### A last segment -/

/-- A walk over the segments that masks a single one masks a string of at most a block. -/
theorem masks_last_segment {f : List Bytes → Bytes} {mask x : Bytes} (hnil : f [] = [])
    (hone : ∀ y, f [y] = xorBytes y mask) (h : x.length ≤ 16) : f (segs x) = xorBytes x mask := by
  by_cases hx : x = []
  · rw [hx, segs_nil, hnil]
    rfl
  · rw [segs_of_length_le hx h, hone]

section
variable {x : Bytes} (h : x.length ≤ 16) (k iv : Bytes)
include h

theorem cfbEnc_last : cfbEnc k iv x = xorBytes x (aesEnc k iv) :=
  masks_last_segment (f := cfbEncSegs k iv) rfl (fun _ => List.append_nil _) h

theorem cfbDec_last : cfbDec k iv x = xorBytes x (aesEnc k iv) :=
  masks_last_segment (f := cfbDecSegs k iv) rfl (fun _ => List.append_nil _) h

theorem ofbXcrypt_last : ofbXcrypt k iv x = xorBytes x (aesEnc k iv) :=
  masks_last_segment (f := ofbSegs k iv) rfl (fun _ => List.append_nil _) h

theorem ctrXcrypt_last (n : Nat) : ctrXcrypt k (be n 16) x = xorBytes x (aesEnc k (be n 16)) := by
  rw [ctrXcrypt, toBlock_be, ← ofBlock_ofNat]
  exact masks_last_segment (f := ctrSegs k _) rfl (fun _ => List.append_nil _) h

theorem gctr_last (cb : Block) : gctr k cb x = xorBytes x (aesEnc k (ofBlock cb)) :=
  masks_last_segment (f := gctrSegs k cb) rfl (fun _ => List.append_nil _) h

end

/-! ### GCM's building blocks -/

/-- A counter block as its first 12 bytes and its last 4 (R312). -/
theorem toBlock_append {a b : Bytes} (hb : b.length = 4) :
    toBlock (a ++ b) = BitVec.ofNat 96 (intBe a) ++ BitVec.ofNat 32 (intBe b) := by
  have hlt : intBe b < 2 ^ 32 := by simpa [hb] using intBe_lt b
  apply BitVec.eq_of_toNat_eq
  rw [toBlock, intBe_append, hb, BitVec.toNat_append, BitVec.toNat_ofNat, BitVec.toNat_ofNat, BitVec.toNat_ofNat,
    Nat.mod_eq_of_lt hlt, ← Nat.shiftLeft_add_eq_or_of_lt hlt, Nat.shiftLeft_eq]
  omega

/-- inc32 leaves the first 96 bits and adds 1 to the last 32 (R312). -/
theorem inc32_append (x : BitVec 96) (y : BitVec 32) : inc32 (x ++ y) = x ++ (y + 1#32) := by
  rw [inc32, BitVec.extractLsb'_append_eq_left, BitVec.extractLsb'_append_eq_right]

/-- inc32 of a counter block given by its bytes: the last four step, modulo 2^32 (R312). -/
theorem inc32_toBlock_append (a : Bytes) {b : Bytes} (hb : b.length = 4) :
    inc32 (toBlock (a ++ b)) = toBlock (a ++ be ((intBe b + 1) % 2 ^ 32) 4) := by
  have hstep : BitVec.ofNat 32 (intBe b) + 1#32 = BitVec.ofNat 32 (intBe (be ((intBe b + 1) % 2 ^ 32) 4)) := by
    rw [BitVec.ofNat_add_ofNat, intBe_be]
    exact BitVec.eq_of_toNat_eq (by simp)
  rw [toBlock_append hb, inc32_append, hstep, ← toBlock_append (length_be _ 4)]

/-- inc32 changes the last four bytes only (R312). -/
theorem ofBlock_inc32 {cb : Bytes} (h : cb.length = 16) :
    ofBlock (inc32 (toBlock cb)) = cb.take 12 ++ be ((intBe (cb.drop 12) + 1) % 2 ^ 32) 4 := by
  have hlast : (cb.drop 12).length = 4 := by rw [List.length_drop, h]
  have hlen : (cb.take 12 ++ be ((intBe (cb.drop 12) + 1) % 2 ^ 32) 4).length = 16 := by simp [h]
  have hinc := inc32_toBlock_append (cb.take 12) hlast
  rw [List.take_append_drop] at hinc
  rw [hinc, ofBlock_toBlock hlen]

theorem ghashSegs_append (h y : Block) (l l' : List Bytes) :
    ghashSegs h y (l ++ l') = ghashSegs h (ghashSegs h y l) l' := by
  induction l generalizing y with
  | nil => rfl
  | cons b l ih => exact ih _

/-- GHASH of one block more (R314). -/
theorem ghash_append_block (h : Block) {x b : Bytes} (hx : x.length % 16 = 0) (hb : b.length = 16) :
    ghash h (x ++ b) = gf128Mul (ghash h x ^^^ toBlock b) h := by
  have hone : segs b = [b] := segs_of_length_le (List.ne_nil_of_length_pos (by omega)) hb.le
  rw [ghash, segs_append hx, hone, ghashSegs_append]
  rfl

/-- Settles O49: a lemma for each mode's first block, last segment and chaining value. -/
theorem modeRecurrences : Obligations.ModeRecurrences :=
  ⟨fun k iv _ rest n hb => ⟨cbcEnc_append_block hb k iv rest, cbcDec_append_block hb k iv rest,
      cfbEnc_append_block hb k iv rest, cfbDec_append_block hb k iv rest, ofbXcrypt_append_block hb k iv rest,
      ctrXcrypt_append_block hb k rest n,
      fun hl => ⟨cfbEnc_last hl k iv, cfbDec_last hl k iv, ofbXcrypt_last hl k iv, ctrXcrypt_last hl k n⟩⟩,
    fun _ hcb => ofBlock_inc32 hcb,
    fun k _ rest cb hb => ⟨gctr_append_block hb k rest cb, fun hl => gctr_last hl k cb⟩,
    fun h _ _ hx hb => ⟨rfl, ghash_append_block h hx hb⟩⟩

/-! ### Sealing and opening (R316, R317) -/

/-- GCTR undoes itself. -/
theorem gctr_gctr (k : Bytes) (cb : Block) (x : Bytes) : gctr k cb (gctr k cb x) = x := by
  induction x using blocks_induction generalizing cb with
  | last x hx =>
    have hlen : (gctr k cb x).length ≤ 16 := (length_gctr k cb x).trans_le hx
    rw [gctr_last hlen, gctr_last hx, xorBytes_cancel hx]
  | block b rest hb ih =>
    have hmask : b.length ≤ (aesEnc k (ofBlock cb)).length := hb.le
    have hlen : (xorBytes b (aesEnc k (ofBlock cb))).length = 16 := by
      rw [length_xorBytes, hb, length_aesEnc, Nat.min_self]
    rw [gctr_append_block hb, gctr_append_block hlen, ih, xorBytes_cancel hmask]

/-- The counter GCTR starts from is N ‖ 00000002 (R316). -/
theorem inc32_gcmJ0 (n : Bytes) : inc32 (gcmJ0 n) = toBlock (n ++ [0, 0, 0, 2]) := inc32_toBlock_append n rfl

theorem gcmSeal_ok (k n : Bytes) {p : Bytes} (h : p.length ≤ gcmMax) :
    gcmSeal k n p = .ok (gctr k (inc32 (gcmJ0 n)) p ++ gcmTagOf k n (gctr k (inc32 (gcmJ0 n)) p)) :=
  if_neg (Nat.not_lt.2 h)

/-- What opening makes of a ciphertext before a 16-byte tag (R317). -/
theorem gcmOpen_append (k n c : Bytes) {t : Bytes} (ht : t.length = 16) :
    gcmOpen k n (c ++ t) =
      if gcmMax < c.length then .error .plaintextTooLarge
      else if gcmTagOf k n c ≠ t then .error .authenticationFailure
      else .ok (gctr k (inc32 (gcmJ0 n)) c) := by
  have hroom : ¬ (c ++ t).length < gcmTag := by
    rw [List.length_append, ht]
    exact Nat.not_lt.2 (Nat.le_add_left _ _)
  have hcut : (c ++ t).length - gcmTag = c.length := by rw [List.length_append, ht, gcmTag, Nat.add_sub_cancel]
  have hc : slice (c ++ t) 0 c.length = c := List.take_left
  have htag : slice (c ++ t) c.length (c ++ t).length = t := by
    rw [slice, List.drop_left, List.length_append, Nat.add_sub_cancel_left, List.take_length]
  rw [gcmOpen, if_neg hroom, hcut, hc, htag]

/-- Opening gives back what was sealed. -/
theorem gcmOpen_sealed (k n : Bytes) {p : Bytes} (h : p.length ≤ gcmMax) :
    gcmOpen k n (gctr k (inc32 (gcmJ0 n)) p ++ gcmTagOf k n (gctr k (inc32 (gcmJ0 n)) p)) = .ok p := by
  have hfit : ¬ gcmMax < (gctr k (inc32 (gcmJ0 n)) p).length := by
    rw [length_gctr]
    exact Nat.not_lt.2 h
  rw [gcmOpen_append k n _ (length_gcmTagOf k n _), if_neg hfit, if_neg (not_not.2 rfl), gctr_gctr]

/-- The tag with a 12-byte nonce, over J0 = N ‖ 00000001 (R316). -/
theorem gcmTagOf_eq (k : Bytes) {n : Bytes} (hn : n.length = 12) (c : Bytes) :
    gcmTagOf k n c = xorBytes (aesEnc k (n ++ [0, 0, 0, 1]))
      (ofBlock (ghash (toBlock (aesEnc k (rep 0 16))) (gcmHashed c))) := by
  have hj0 : ofBlock (gcmJ0 n) = n ++ [0, 0, 0, 1] := ofBlock_toBlock (by rw [List.length_append, hn]; rfl)
  rw [gcmTagOf, hj0]
  rfl

/-- Settles O50: the two size checks, the tag check on C ‖ T, and GCTR undoing itself under the same counter. -/
theorem gcmOpensOnlyWhatItsTagCovers : Obligations.GcmOpensOnlyWhatItsTagCovers := by
  refine ⟨fun k n p hp => ?seals, fun _ _ _ hp => if_pos hp, fun k n c t ht => ?rejects, fun _ _ _ he => if_pos he,
    fun k n c hn => ?tag⟩
  case seals =>
    exact ⟨gctr k (inc32 (gcmJ0 n)) p, length_gctr k _ p, gcmSeal_ok k n hp, gcmOpen_sealed k n hp,
      fun _ => by rw [inc32_gcmJ0]⟩
  case rejects =>
    have hopen := gcmOpen_append k n c ht
    exact ⟨fun hc hne => hopen.trans ((if_neg (Nat.not_lt.2 hc)).trans (if_pos hne.symm)),
      fun hc => hopen.trans (if_pos hc)⟩
  case tag => exact ⟨(16 - c.length % 16) % 16, Nat.mod_lt _ (by decide), by omega, gcmTagOf_eq k hn c⟩

end Sys2Proof.Machine
end

section
/-! SUPPORT. Decryption undoes encryption (spec 44_modes.md): each mode's two transforms, and the padding around them,
as ENCRYPT and DECRYPT use both. -/

namespace Sys2Proof.Machine

variable {m : Mode} {sch : Scheme} {k iv p c fill padded : Bytes}

/-! ### The modes that mask each segment: CFB, CTR and OFB (R304 to R309) -/

/-- Two walks that mask each block alike undo each other, when the state of both moves on with the ciphertext block. -/
theorem masking_undone {σ : Type} {f g : σ → Bytes → Bytes} {mask : σ → Bytes} {next : σ → Bytes → σ}
    (hmask : ∀ st, (mask st).length = 16)
    (hflast : ∀ st x, x.length ≤ 16 → f st x = xorBytes x (mask st))
    (hglast : ∀ st x, x.length ≤ 16 → g st x = xorBytes x (mask st))
    (hf : ∀ st b rest, b.length = 16 →
      f st (b ++ rest) = xorBytes b (mask st) ++ f (next st (xorBytes b (mask st))) rest)
    (hg : ∀ st b rest, b.length = 16 → g st (b ++ rest) = xorBytes b (mask st) ++ g (next st b) rest)
    (st : σ) (x : Bytes) : g st (f st x) = x := by
  induction x using blocks_induction generalizing st with
  | last x hx =>
    have hle : x.length ≤ (mask st).length := (hmask st).symm ▸ hx
    have hlen : (xorBytes x (mask st)).length ≤ 16 := by
      rw [length_xorBytes]
      omega
    rw [hflast st x hx, hglast st _ hlen, xorBytes_cancel hle]
  | block b rest hb ih =>
    have hlen : (xorBytes b (mask st)).length = 16 := by rw [length_xorBytes, hb, hmask, Nat.min_self]
    rw [hf st b rest hb, hg st _ _ hlen, ih, xorBytes_cancel (hb.trans (hmask st).symm).le]

theorem cfbDec_cfbEnc (k iv p : Bytes) : cfbDec k iv (cfbEnc k iv p) = p :=
  masking_undone (f := cfbEnc k) (g := cfbDec k) (mask := aesEnc k) (next := fun _ c => c) (length_aesEnc k)
    (fun iv _ h => cfbEnc_last h k iv) (fun iv _ h => cfbDec_last h k iv)
    (fun iv _ rest h => cfbEnc_append_block h k iv rest) (fun iv _ rest h => cfbDec_append_block h k iv rest) iv p

theorem ofbXcrypt_ofbXcrypt (k iv p : Bytes) : ofbXcrypt k iv (ofbXcrypt k iv p) = p :=
  masking_undone (f := ofbXcrypt k) (g := ofbXcrypt k) (mask := aesEnc k) (next := fun o _ => aesEnc k o)
    (length_aesEnc k) (fun iv _ h => ofbXcrypt_last h k iv) (fun iv _ h => ofbXcrypt_last h k iv)
    (fun iv _ rest h => ofbXcrypt_append_block h k iv rest) (fun iv _ rest h => ofbXcrypt_append_block h k iv rest) iv p

/-- CTR's state is the integer of its counter block (R308). -/
theorem ctrXcrypt_ctrXcrypt (k : Bytes) {iv : Bytes} (hiv : iv.length = 16) (p : Bytes) :
    ctrXcrypt k iv (ctrXcrypt k iv p) = p := by
  have hcounter : be (intBe iv) 16 = iv := hiv ▸ be_intBe iv
  have h := masking_undone (f := fun n => ctrXcrypt k (be n 16)) (g := fun n => ctrXcrypt k (be n 16))
    (mask := fun n => aesEnc k (be n 16)) (next := fun n _ => (n + 1) % 2 ^ 128) (fun _ => length_aesEnc k _)
    (fun n _ h => ctrXcrypt_last h k n) (fun n _ h => ctrXcrypt_last h k n)
    (fun n _ rest h => ctrXcrypt_append_block h k rest n) (fun n _ rest h => ctrXcrypt_append_block h k rest n)
    (intBe iv) p
  simpa only [hcounter] using h

/-! ### The block modes: CBC and ECB (R282, R283, R301, R302) -/

/-- Induction over whole blocks. -/
theorem wholeBlocks_induction {P : Bytes → Prop} (nil : P [])
    (block : ∀ b rest, b.length = 16 → P rest → P (b ++ rest)) {x : Bytes} (hx : x.length % 16 = 0) : P x := by
  induction x using segs_induction with
  | nil => exact nil
  | cons x hne ih =>
    have hpos := List.length_pos_iff.2 hne
    have hblock : (x.take 16).length = 16 := by rw [List.length_take]; omega
    have hrest : (x.drop 16).length % 16 = 0 := by rw [List.length_drop]; omega
    exact List.take_append_drop 16 x ▸ block _ _ hblock (ih hrest)

theorem cbcDec_cbcEnc (k : Bytes) {p : Bytes} (hp : p.length % 16 = 0) :
    ∀ iv, iv.length = 16 → cbcDec k iv (cbcEnc k iv p) = p := by
  refine wholeBlocks_induction (P := fun p => ∀ iv, iv.length = 16 → cbcDec k iv (cbcEnc k iv p) = p)
    (fun _ _ => rfl) (fun b rest hb ih iv hiv => ?block) hp
  case block =>
    have hin : (xorBytes b iv).length = 16 := by rw [length_xorBytes, hb, hiv, Nat.min_self]
    rw [cbcEnc_append_block hb, cbcDec_append_block (length_aesEnc k _), aesDec_aesEnc k hin,
      xorBytes_cancel (hb.trans hiv.symm).le, ih _ (length_aesEnc k _)]

theorem ecbEnc_append_block (k : Bytes) {b : Bytes} (h : b.length = 16) (rest : Bytes) :
    ecbEnc k (b ++ rest) = aesEnc k b ++ ecbEnc k rest := by
  rw [ecbEnc, segs_append_block h, List.map_cons, List.flatten_cons, ecbEnc]

theorem ecbDec_append_block (k : Bytes) {b : Bytes} (h : b.length = 16) (rest : Bytes) :
    ecbDec k (b ++ rest) = aesDec k b ++ ecbDec k rest := by
  rw [ecbDec, segs_append_block h, List.map_cons, List.flatten_cons, ecbDec]

theorem ecbDec_ecbEnc (k : Bytes) {p : Bytes} (hp : p.length % 16 = 0) : ecbDec k (ecbEnc k p) = p := by
  refine wholeBlocks_induction (P := fun p => ecbDec k (ecbEnc k p) = p) rfl (fun b rest hb ih => ?block) hp
  case block =>
    rw [ecbEnc_append_block k hb, ecbDec_append_block k (length_aesEnc k b), aesDec_aesEnc k hb, ih]

theorem length_cbcEnc_of_whole (k iv : Bytes) {p : Bytes} (h : p.length % 16 = 0) :
    (cbcEnc k iv p).length = p.length := by
  rw [length_cbcEnc]
  omega

/-! ### Every mode -/

theorem length_gcmSeal (h : gcmSeal k iv p = .ok c) : c.length = p.length + 16 := by
  unfold gcmSeal at h
  split at h
  · exact nomatch h
  · injection h with h
    rw [← h, List.length_append, length_gctr, length_gcmTagOf]

theorem gcmOpen_of_gcmSeal (h : gcmSeal k iv p = .ok c) : gcmOpen k iv c = .ok p := by
  by_cases hp : p.length ≤ gcmMax
  · rw [gcmSeal_ok k iv hp] at h
    injection h with h
    exact h ▸ gcmOpen_sealed k iv hp
  · exact nomatch (if_pos (Nat.lt_of_not_le hp)).symm.trans h

/-- A mode's inverse transform undoes it, under an IV of the mode's size and for whole blocks where the mode pads. -/
theorem modeDecrypt_of_modeEncrypt (hiv : iv.length = ivSize m) (hp : modePads m = true → p.length % 16 = 0)
    (h : modeEncrypt m k iv p = .ok c) : modeDecrypt m k iv c = .ok p := by
  cases m with
  | gcm => exact gcmOpen_of_gcmSeal h
  | cbc =>
    injection h with h
    exact congrArg _ (h ▸ cbcDec_cbcEnc k (hp rfl) iv hiv)
  | ecb =>
    injection h with h
    exact congrArg _ (h ▸ ecbDec_ecbEnc k (hp rfl))
  | cfb =>
    injection h with h
    exact congrArg _ (h ▸ cfbDec_cfbEnc k iv p)
  | ctr =>
    injection h with h
    exact congrArg _ (h ▸ ctrXcrypt_ctrXcrypt k hiv p)
  | ofb =>
    injection h with h
    exact congrArg _ (h ▸ ofbXcrypt_ofbXcrypt k iv p)

/-- The modes that pad keep the length of whole blocks. -/
theorem length_modeEncrypt_of_whole (hm : modePads m = true) (hp : p.length % 16 = 0)
    (h : modeEncrypt m k iv p = .ok c) : c.length = p.length := by
  cases m with
  | cbc =>
    injection h with h
    exact h ▸ length_cbcEnc_of_whole k iv hp
  | ecb =>
    injection h with h
    exact h ▸ length_ecbEnc_of_whole k hp
  | cfb | ctr | ofb | gcm => exact nomatch hm

/-! ### The padding step of a mode (R367, R379) -/

/-- What ENCRYPT's padding step computes with its filler, as `unpadStep` is what DECRYPT's computes. -/
def padText (m : Mode) (sch : Scheme) (p fill : Bytes) : Except Err Bytes :=
  if modePads m then pad sch p 16 fill else .ok p

theorem blockSizeOk_blk (sch : Scheme) : blockSizeOk sch 16 = true := by cases sch <;> rfl

theorem whole_of_noPad (h : pad .noPad p 16 fill = .ok padded) : p.length % 16 = 0 := by
  by_contra hp
  rw [pad_of_blockSizeOk (blockSizeOk_blk _), padWith_noPad_error hp] at h
  exact nomatch h

/-- Every scheme pads to whole blocks (R149). -/
theorem length_pad_whole (hl : fill.length = fillerLen sch p.length 16) (h : pad sch p 16 fill = .ok padded) :
    padded.length % 16 = 0 := by
  by_cases hs : sch = .noPad
  · subst hs
    have hp := whole_of_noPad h
    rw [pad_of_blockSizeOk (blockSizeOk_blk _), padWith_noPad_ok hp] at h
    injection h with h
    exact h ▸ hp
  · obtain ⟨q, hq, hwhole, -⟩ := (padFailsOnlyByItsChecks sch p fill 16 hl).2 hs (blockSizeOk_blk sch)
    rw [hq] at h
    injection h with h
    exact h ▸ hwhole

/-- In blocks of 16 only ZeroPadding of data that end in a zero byte does not come back (R160). -/
theorem unpad_of_pad (hl : fill.length = fillerLen sch p.length 16) (h : pad sch p 16 fill = .ok padded)
    (hz : sch = .zero → p.getLast? ≠ some 0#8) : unpad sch padded 16 = .ok p := by
  obtain ⟨q, hq, hunpad⟩ : ∃ q, pad sch p 16 fill = .ok q ∧ unpad sch q 16 = .ok p := by
    refine (paddingRoundTrips sch p fill 16 (blockSizeOk_blk sch) hl).1.2 ?_
    cases sch with
    | pkcs7 | iso9797m2 | ansix923 => trivial
    | iso10126 => exact .inl (by decide)
    | noPad => exact whole_of_noPad h
    | zero =>
      have hlast := hz rfl
      cases p using List.reverseRecOn <;> simp_all
  rw [hq] at h
  injection h with h
  exact h ▸ hunpad

theorem padText_whole (hl : fill.length = encryptFiller m sch p.length) (h : padText m sch p fill = .ok padded)
    (hm : modePads m = true) : padded.length % 16 = 0 := by
  rw [encryptFiller, if_pos hm] at hl
  rw [padText, if_pos hm] at h
  exact length_pad_whole hl h

theorem unpadStep_of_padText (hl : fill.length = encryptFiller m sch p.length)
    (h : padText m sch p fill = .ok padded) (hz : modePads m = true → sch = .zero → p.getLast? ≠ some 0#8) :
    unpadStep m sch padded = .ok p := by
  unfold encryptFiller at hl
  unfold padText at h
  unfold unpadStep
  split
  · next hm =>
    rw [if_pos hm] at hl h
    exact unpad_of_pad hl h (hz hm)
  · next hm =>
    rw [if_neg hm] at h
    injection h with h
    rw [h]

end Sys2Proof.Machine
end

section
/-! SUPPORT. The statements on the orchestrator (spec 45_orchestrator.md): what ENCRYPT and DECRYPT answer when their
operands are given, and the two round trips. -/

namespace Sys2Proof.Machine

variable {m : Mode} {sch : Scheme} {ivp hdr : Bool} {s t : State} {i : Instr} {e : Err} {w : Keying} {b : Body}
  {k iv p c r x salt fill padded answers rest : Bytes}

/-! ### How a command fails after draws, and what a success shows -/

/-- An error raised after draws keeps what they used up (R411). -/
theorem exec_of_raised (h : ruleOf i s s.entropy = .raised e rest) :
    exec i s = .next (completeErr e { s with entropy := rest }) :=
  (exec_eq_runRule i s).trans (runRule_raised h)

/-- A success shown by DONE and ERRCODE = 0 holds the rule's result in OUT (R410). -/
theorem exec_success_out (hp : s.platform.legal) (hwf : s.out.wf = true) (hs : s.done = false)
    (ht : exec i s = .next t) (hd : t.done = true) (he : t.errcode = 0#4)
    (hx : t.out.readRange 0 t.outlen.toNat = some x) :
    ∃ hdr rest, ruleOf i s s.entropy = .done ⟨x, hdr⟩ rest := by
  obtain ⟨⟨r, hdr⟩, rest, hr, hfit, rfl⟩ | ⟨r, rest, -, -, rfl⟩ | ⟨err, rest, -, rfl⟩ | ⟨-, rfl⟩ | ⟨-, rfl⟩ :=
    exec_cases ht
  · rw [outlen_completeOk_toNat (s := { s with entropy := rest }) hp hfit, completeOk_out,
      Memory.readRange_writeRange hwf] at hx
    injection hx with hx
    exact ⟨hdr, rest, hx ▸ hr⟩
  · exact absurd he (errCode_range .capacity).1
  · exact absurd he (errCode_range err).1
  · exact nomatch hs.symm.trans hd
  · exact nomatch hs.symm.trans hd

/-! ### The caller's key and IV (R364, R373, R380) -/

/-- The IV a command works with under the caller's key: none in ECB. -/
def plainIv (m : Mode) (iv : Bytes) : Bytes := if m = .ecb then [] else iv

theorem modeEncrypt_plainIv (m : Mode) (k iv p : Bytes) : modeEncrypt m k (plainIv m iv) p = modeEncrypt m k iv p := by
  cases m <;> rfl

theorem modeDecrypt_plainIv (m : Mode) (k iv c : Bytes) : modeDecrypt m k (plainIv m iv) c = modeDecrypt m k iv c := by
  cases m <;> rfl

/-- The explicit IV is the mode's and is written, where the mode takes one. -/
abbrev State.explicitIvIs (s : State) (m : Mode) (ivp : Bool) (iv : Bytes) : Prop :=
  m ≠ .ecb → ivp = true ∧ s.ivIs m iv

theorem length_plainIv (hv : s.explicitIvIs m ivp iv) : (plainIv m iv).length = ivSize m := by
  unfold plainIv
  split
  · next hm => rw [hm, List.length_nil, ivSize]
  · next hm =>
    obtain ⟨-, hsize, hread⟩ := hv hm
    rw [Memory.readRange_length hread, hsize]

/-- ExplicitIV fails for an absent IV and for a length that is not the mode's (R364). -/
theorem explicitIv_bad (h : ivp = true → s.ivBytes ≠ ivSize m) :
    explicitIv m ivp s = Run.raise .invalidIvLength := by
  have hbad : (ivp && decide (s.ivBytes = ivSize m)) = false := by
    cases ivp with
    | false => rfl
    | true => exact decide_eq_false (h rfl)
  rw [explicitIv, hbad, check_false, raise_bind]

/-! ### ENCRYPT of a given input -/

/-- Step 4 of ENCRYPT, with the padded plaintext of step 2 and the keying of step 3 (R368 to R371). -/
def encryptText (m : Mode) (padded : Bytes) (w : Keying) : Run Result :=
  (Run.lift (modeEncrypt m w.key w.iv padded)).bind fun c => Run.ret ⟨w.hdr ++ c, !w.hdr.isEmpty⟩

theorem encryptText_ok (h : modeEncrypt m w.key w.iv padded = .ok c) :
    encryptText m padded w = Run.ret ⟨w.hdr ++ c, !w.hdr.isEmpty⟩ := by
  rw [encryptText, h, lift_ok, ret_bind]

theorem encryptText_error (h : modeEncrypt m w.key w.iv padded = .error e) : encryptText m padded w = Run.raise e := by
  rw [encryptText, h, lift_error, raise_bind]

/-- ENCRYPT past its checks and its reads of KEY and IN (R365). -/
theorem encryptRule_of_inIs (hk : s.keyIs k) (hp : s.inIs p) :
    encryptRule m sch ivp s =
      (padStep m sch p).bind fun padded => (encryptKeying m ivp s k).bind (encryptText m padded) := by
  simp only [encryptRule, checkIn_ok hp.1, checkKey_ok hk.1, ret_bind, readKey, read_bind hk.2, readIn, Nat.sub_zero,
    read_bind hp.2]
  rfl

/-- The padding step goes on with the padded plaintext and has used up its filler (R367, R372). -/
theorem padStep_done (hl : fill.length = encryptFiller m sch p.length) (h : padText m sch p fill = .ok padded) :
    padStep m sch p (fill ++ rest) = .done padded rest := by
  unfold encryptFiller at hl
  unfold padText at h
  unfold padStep
  split
  · next hm =>
    rw [if_pos hm] at hl h
    exact padRun_done hl h
  · next hm =>
    rw [if_neg hm] at hl h
    injection h with h
    rw [List.eq_nil_of_length_eq_zero hl, h]
    rfl

theorem encryptKeying_plain (k : Bytes) (hv : s.explicitIvIs m ivp iv) :
    encryptKeying m ivp s k = Run.ret ⟨[], k, plainIv m iv⟩ := by
  unfold encryptKeying plainIv
  split
  · rfl
  · next hm =>
    obtain ⟨rfl, hsize, hread⟩ := hv hm
    rw [if_pos rfl, explicitIv_bind hsize hread]

theorem encryptKeying_badIv (k : Bytes) (hm : m ≠ .ecb) (h : s.ivBytes ≠ ivSize m) :
    encryptKeying m true s k = Run.raise .invalidIvLength := by
  rw [encryptKeying, if_neg hm, if_pos rfl, explicitIv_bad fun _ => h, raise_bind]

/-- Without an IV, a salt is drawn and the key and IV are derived from it (R363, R366). -/
theorem encryptKeying_salted (s : State) (k : Bytes) (hm : m ≠ .ecb) :
    encryptKeying m false s k =
      (Run.draw saltLen).bind fun salt => Run.ret (saltedKeying m k salt s.keyBytes) := by
  rw [encryptKeying, if_neg hm]
  rfl

section
variable (hk : s.keyIs k) (hp : s.inIs p)
include hk hp

/-- ENCRYPT past its padding step. -/
theorem encryptRule_of_padStep (hpad : padStep m sch p s.entropy = .done padded answers) :
    encryptRule m sch ivp s s.entropy = (encryptKeying m ivp s k).bind (encryptText m padded) answers := by
  rw [encryptRule_of_inIs hk hp, bind_done _ hpad]

/-- ENCRYPT completes with the header of its keying and the mode's transform; HDR says whether there is a header. -/
theorem exec_encrypt_ok (hpad : padStep m sch p s.entropy = .done padded answers)
    (hw : encryptKeying m ivp s k answers = .done w rest) (hc : modeEncrypt m w.key w.iv padded = .ok c)
    (hr : w.hdr ++ c = r) (hhdr : (!w.hdr.isEmpty) = hdr) (hfit : s.fits r) :
    exec (encryptInstr m sch ivp) s = .next (completeOk r hdr { s with entropy := rest }) := by
  refine exec_of_done ?_ hfit
  rw [ruleOf_encryptInstr, encryptRule_of_padStep hk hp hpad, bind_done _ hw, encryptText_ok hc, ret_apply, hr, hhdr]

/-- ENCRYPT with an explicit IV, and in ECB whatever IVP is, completes with the mode's transform alone. -/
theorem exec_encrypt_plain (hv : s.explicitIvIs m ivp iv) (he : s.entropy = fill ++ rest)
    (hl : fill.length = encryptFiller m sch p.length) (hpad : padText m sch p fill = .ok padded)
    (hc : modeEncrypt m k iv padded = .ok c) (hfit : s.fits c) :
    exec (encryptInstr m sch ivp) s = .next (completeOk c false { s with entropy := rest }) := by
  rw [← modeEncrypt_plainIv] at hc
  exact exec_encrypt_ok hk hp (he ▸ padStep_done hl hpad) (congrFun (encryptKeying_plain k hv) rest) hc rfl rfl hfit

/-- In the modes that do not pad nothing is drawn with an explicit IV, whatever PAD is (R367). -/
theorem exec_encrypt_stream (hm : modePads m = false) (hv : s.ivIs m iv) (hc : modeEncrypt m k iv p = .ok c)
    (hfit : s.fits c) : exec (encryptInstr m sch true) s = .next (completeOk c false s) := by
  have hpads : ¬ modePads m = true := Bool.eq_false_iff.1 hm
  exact exec_encrypt_plain (fill := []) hk hp (fun _ => ⟨rfl, hv⟩) rfl (if_neg hpads).symm (if_neg hpads) hc hfit

theorem exec_encrypt_stream_error (hm : modePads m = false) (hv : s.ivIs m iv)
    (hc : modeEncrypt m k iv p = .error e) :
    exec (encryptInstr m sch true) s = .next (completeErr e s) := by
  have hpad : padStep m sch p = Run.ret p := if_neg (Bool.eq_false_iff.1 hm)
  have hw : encryptKeying m true s k = Run.ret ⟨[], k, plainIv m iv⟩ := encryptKeying_plain k fun _ => ⟨rfl, hv⟩
  rw [← modeEncrypt_plainIv] at hc
  refine exec_of_raise ?_
  rw [ruleOf_encryptInstr, encryptRule_of_inIs hk hp, hpad, ret_bind, hw, ret_bind, encryptText_error hc]

end

/-- Settles O51: no padding step and no draw, so the rule is the mode's transform under the caller's key and IV. -/
theorem encryptWithIvInStreamModes : Obligations.EncryptWithIvInStreamModes := by
  intro sch s k iv p hk hp
  refine ⟨fun hv hfit => exec_encrypt_stream (m := .cfb) hk hp rfl hv rfl ((length_cfbEnc k iv p).trans_le hfit),
    fun hv hfit => exec_encrypt_stream (m := .ctr) hk hp rfl hv rfl ((length_ctrXcrypt k iv p).trans_le hfit),
    fun hv hfit => exec_encrypt_stream (m := .ofb) hk hp rfl hv rfl ((length_ofbXcrypt k iv p).trans_le hfit),
    fun hv hfit => ⟨fun c hc => exec_encrypt_stream (m := .gcm) hk hp rfl hv hc ((length_gcmSeal hc).trans_le hfit),
      fun hlong => exec_encrypt_stream_error (m := .gcm) hk hp rfl hv (if_pos hlong)⟩⟩

/-- Settles O52: the padded text is whole blocks, so neither transform changes its length. -/
theorem encryptPadsInCbcAndEcb : Obligations.EncryptPadsInCbcAndEcb := by
  intro sch s k iv p fill rest padded hk hp ⟨he, hl⟩ hpad hfit
  have hwhole := length_pad_whole hl hpad
  exact ⟨fun hv => exec_encrypt_plain (m := .cbc) hk hp (fun _ => ⟨rfl, hv⟩) he hl hpad rfl
      ((length_cbcEnc_of_whole k iv hwhole).trans_le hfit),
    fun ivp => exec_encrypt_plain (m := .ecb) (iv := iv) hk hp (absurd rfl) he hl hpad rfl
      ((length_ecbEnc_of_whole k hwhole).trans_le hfit)⟩

/-- CBC is the one mode with a salted header that pads (R366, R367). -/
theorem padText_of_salted (hm : m ≠ .ecb)
    (h : if m = .cbc then fill.length = fillerLen sch p.length 16 ∧ pad sch p 16 fill = .ok padded
      else fill = [] ∧ padded = p) :
    fill.length = encryptFiller m sch p.length ∧ padText m sch p fill = .ok padded := by
  cases m with
  | ecb => exact absurd rfl hm
  | cbc => exact h
  | cfb | ctr | ofb | gcm =>
    obtain ⟨rfl, rfl⟩ := h
    exact ⟨rfl, rfl⟩

/-- Settles O53: the filler and then the salt are the next answers, and the keying is the salted one. -/
theorem encryptWithoutIvIsSalted : Obligations.EncryptWithoutIvIsSalted := by
  intro m sch s k p fill salt rest padded c hm hk hp he hsalt hpad hc hfit
  obtain ⟨hl, hpadded⟩ := padText_of_salted hm hpad
  have hstep : padStep m sch p s.entropy = .done padded (salt ++ rest) := by
    rw [he, List.append_assoc]
    exact padStep_done hl hpadded
  have hw : encryptKeying m false s k (salt ++ rest) = .done (saltedKeying m k salt s.keyBytes) rest := by
    rw [encryptKeying_salted s k hm, draw_bind (n := saltLen) hsalt, ret_apply]
  exact exec_encrypt_ok hk hp hstep hw hc rfl rfl hfit

/-! ### DECRYPT of a given input -/

/-- Under the caller's key the body is the whole input (R364, R380). -/
theorem decryptRule_plain (hk : s.keyIs k) (hx : s.inIs x) (hmagic : x.take 8 ≠ magic)
    (hv : s.explicitIvIs m ivp iv) :
    decryptRule m sch ivp s = decryptBody m sch ⟨k, plainIv m iv, x, false⟩ := by
  have hbody : plainBody m ivp s k = Run.ret ⟨k, plainIv m iv, x, false⟩ := by
    by_cases hm : m = .ecb
    · subst hm
      exact plainBody_ecb_of_inIs ivp k hx
    · obtain ⟨rfl, hiv⟩ := hv hm
      rw [plainBody_of_ivIs k hm hx hiv, plainIv, if_neg hm]
  rw [decryptRule_of_not_magic hk hx hmagic, hbody, ret_bind]

theorem decryptRule_plain_badIv (hk : s.keyIs k) (hx : s.inIs x) (hmagic : x.take 8 ≠ magic) (hm : m ≠ .ecb)
    (h : ivp = true → s.ivBytes ≠ ivSize m) : decryptRule m sch ivp s = Run.raise .invalidIvLength := by
  rw [decryptRule_of_not_magic hk hx hmagic, plainBody, readIn, Nat.sub_zero, read_bind hx.2, if_neg hm,
    explicitIv_bad h, raise_bind, raise_bind]

/-- Behind a header the body is IN[16..), under the derived key and IV (R375). -/
theorem decryptRule_salted (hk : s.keyIs k) (hx : s.inIs (header salt ++ c)) (hsalt : salt.length = 8) :
    decryptRule m sch ivp s = decryptBody m sch ⟨(saltedKeying m k salt s.keyBytes).key,
      (saltedKeying m k salt s.keyBytes).iv, c, true⟩ := by
  have hhdr : (header salt).length = 16 := by rw [length_header, hsalt]
  have hmagic : (header salt ++ c).take 8 = magic := by
    rw [header, List.append_assoc, List.take_left' length_magic]
  have hdrop : (header salt ++ c).drop 16 = c := List.drop_left' hhdr
  have hparsed : ((header salt ++ c).drop 8).take 8 = salt := by
    rw [header, List.append_assoc, List.drop_left' length_magic, List.take_left' hsalt]
  have hlen : 16 ≤ (header salt ++ c).length := by
    rw [List.length_append, hhdr]
    exact Nat.le_add_right _ _
  rw [decryptRule_of_magic hk hx hmagic, saltedBody_of_inIs m k hx hlen, ret_bind, hdrop, hparsed]

section
variable (hrule : decryptRule m sch ivp s = decryptBody m sch b)
  (hwhole : modePads m = true → b.text.length % 16 = 0)
include hrule hwhole

/-- DECRYPT of a body whose length is right: the inverse transform, then the unpadding step (R377 to R379). -/
theorem ruleOf_decrypt_of_body :
    ruleOf (decryptInstr m sch ivp) s =
      (Run.lift (modeDecrypt m b.key b.iv b.text)).bind fun p =>
        (Run.lift (unpadStep m sch p)).bind fun r => Run.ret ⟨r, b.hdr⟩ := by
  have haligned : (!(modePads m && decide (b.text.length % blk ≠ 0))) = true := by
    cases hm : modePads m with
    | false => rfl
    | true => simp [blk, hwhole hm]
  rw [ruleOf_decryptInstr, hrule, decryptBody, haligned, check_true, ret_bind]

theorem exec_decrypt_modeError (hp : modeDecrypt m b.key b.iv b.text = .error e) :
    exec (decryptInstr m sch ivp) s = .next (completeErr e s) := by
  refine exec_of_raise ?_
  rw [ruleOf_decrypt_of_body hrule hwhole, hp, lift_error, raise_bind]

variable (hp : modeDecrypt m b.key b.iv b.text = .ok p)
include hp

theorem exec_decrypt_unpadError (hr : unpadStep m sch p = .error e) :
    exec (decryptInstr m sch ivp) s = .next (completeErr e s) := by
  refine exec_of_raise ?_
  rw [ruleOf_decrypt_of_body hrule hwhole, hp, lift_ok, ret_bind, hr, lift_error, raise_bind]

theorem exec_decrypt_ok (hr : unpadStep m sch p = .ok r) (hfit : s.fits r) :
    exec (decryptInstr m sch ivp) s = .next (completeOk r b.hdr s) := by
  refine exec_of_ret ?_ hfit
  rw [ruleOf_decrypt_of_body hrule hwhole, hp, lift_ok, ret_bind, hr, lift_ok, ret_bind]

end

/-- What DECRYPT answers for a body under a key and an IV, with or without a header (R376 to R379). -/
def DecryptAnswers (m : Mode) (sch : Scheme) (ivp : Bool) (s : State) (b : Body) : Prop :=
  (∀ e, modeDecrypt m b.key b.iv b.text = .error e →
    exec (decryptInstr m sch ivp) s = .next (completeErr e s)) ∧
  (∀ p, modeDecrypt m b.key b.iv b.text = .ok p →
    (modePads m = false → s.fits p →
      exec (decryptInstr m sch ivp) s = .next (completeOk p b.hdr s)) ∧
    (∀ e, modePads m = true → unpad sch p 16 = .error e →
      exec (decryptInstr m sch ivp) s = .next (completeErr e s)) ∧
    (∀ r, modePads m = true → unpad sch p 16 = .ok r → s.fits r →
      exec (decryptInstr m sch ivp) s = .next (completeOk r b.hdr s)))

theorem decryptAnswers_of_body (hrule : decryptRule m sch ivp s = decryptBody m sch b)
    (hwhole : modePads m = true → b.text.length % 16 = 0) : DecryptAnswers m sch ivp s b := by
  refine ⟨fun e he => exec_decrypt_modeError hrule hwhole he, fun p hp => ⟨fun hm hfit => ?_,
    fun e hm he => exec_decrypt_unpadError hrule hwhole hp ((if_pos hm).trans he),
    fun r hm hr hfit => exec_decrypt_ok hrule hwhole hp ((if_pos hm).trans hr) hfit⟩⟩
  exact exec_decrypt_ok hrule hwhole hp (if_neg (Bool.eq_false_iff.1 hm)) hfit

/-- Settles O54: the body is the input under the caller's key and IV. -/
theorem decryptWithoutHeader : Obligations.DecryptWithoutHeader := by
  intro m sch ivp s k iv c hk hc hmagic hv hwhole
  have h := decryptAnswers_of_body (decryptRule_plain (sch := sch) hk hc hmagic hv) hwhole
  simpa only [DecryptAnswers, modeDecrypt_plainIv] using h

/-- Settles O55: the body is what follows the header, under the key and IV derived from its salt. -/
theorem decryptWithHeader : Obligations.DecryptWithHeader :=
  fun _ _ _ _ _ _ _ hk hc hsalt hwhole => decryptAnswers_of_body (decryptRule_salted hk hc hsalt) hwhole

/-- Settles O32: with the padding step passed, or with no header, ExplicitIV is the next check. -/
theorem ivLengthIsChecked : Obligations.IvLengthIsChecked := by
  refine fun m sch s k x hk hx hm => ⟨fun hpad hiv => exec_of_raised ?encrypt,
    fun ivp hmagic hiv => exec_of_raise ?decrypt⟩
  case encrypt =>
    obtain ⟨padded, hpadded⟩ := padStep_of_padsOn hpad
    rw [ruleOf_encryptInstr, encryptRule_of_padStep hk hx hpadded, encryptKeying_badIv k hm hiv, raise_bind,
      raise_apply]
  case decrypt => rw [ruleOf_decryptInstr, decryptRule_plain_badIv hk hx hmagic hm hiv]

/-! ### The round trips (R382, R383) -/

/-- DECRYPT's steps 3 and 4 give the plaintext back from a ciphertext body. -/
def Recovers (m : Mode) (sch : Scheme) (p k iv c : Bytes) : Prop :=
  (modePads m = true → c.length % 16 = 0) ∧
    ∃ padded, modeDecrypt m k iv c = .ok padded ∧ unpadStep m sch padded = .ok p

/-- The transform of what the padding step made of a plaintext gives the plaintext back. -/
theorem recovers_of_modeEncrypt (hl : fill.length = encryptFiller m sch p.length)
    (hpad : padText m sch p fill = .ok padded) (hz : modePads m = true → sch = .zero → p.getLast? ≠ some 0#8)
    (hiv : iv.length = ivSize m) (hc : modeEncrypt m k iv padded = .ok c) : Recovers m sch p k iv c := by
  have hwhole : modePads m = true → padded.length % 16 = 0 := padText_whole hl hpad
  refine ⟨fun hm => ?_, padded, modeDecrypt_of_modeEncrypt hiv hwhole hc, unpadStep_of_padText hl hpad hz⟩
  rw [length_modeEncrypt_of_whole hm (hwhole hm) hc]
  exact hwhole hm

theorem exec_decrypt_recovers (hrule : decryptRule m sch ivp s = decryptBody m sch b)
    (h : Recovers m sch p b.key b.iv b.text) (hfit : s.fits p) :
    exec (decryptInstr m sch ivp) s = .next (completeOk p b.hdr s) := by
  obtain ⟨hwhole, padded, hpadded, hp⟩ := h
  exact exec_decrypt_ok hrule hwhole hpadded hp hfit

theorem returns_lift {α : Type} (y : Except Err α) : Returns (Run.lift y) fun a => y = .ok a := by
  cases y with
  | ok a => exact returns_ret rfl
  | error e => exact fun _ _ _ h => nomatch h

theorem returns_draw (n : Nat) : Returns (Run.draw n) fun a => a.length = n := by
  intro e a e' h
  unfold Run.draw at h
  split at h
  · next hn =>
    injection h with h
    rw [← h, List.length_take, Nat.min_eq_left hn]
  · exact nomatch h

/-- The padding step goes on with the padded plaintext under some filler of its length. -/
theorem returns_padStep (m : Mode) (sch : Scheme) (p : Bytes) :
    Returns (padStep m sch p) fun padded =>
      ∃ fill, fill.length = encryptFiller m sch p.length ∧ padText m sch p fill = .ok padded := by
  unfold padStep encryptFiller padText
  split
  · refine returns_after _ fun _ => returns_bind (returns_draw _) fun fill hl => ?_
    exact fun e padded e' h =>
      ⟨fill, hl, (pad_of_blockSizeOk (blockSizeOk_blk sch)).trans (returns_lift _ e padded e' h)⟩
  · exact returns_ret ⟨[], rfl, rfl⟩

/-- The keying of a salted header is that of some salt. -/
theorem returns_saltedKeying (s : State) (k : Bytes) (hm : m ≠ .ecb) :
    Returns (encryptKeying m false s k) fun w =>
      ∃ salt, salt.length = 8 ∧ w = saltedKeying m k salt s.keyBytes := by
  rw [encryptKeying_salted s k hm]
  exact returns_bind (returns_draw saltLen) fun salt hsalt => returns_ret ⟨salt, hsalt, rfl⟩

theorem length_saltedKeying_iv (m : Mode) (k salt : Bytes) (ks : Nat) :
    (saltedKeying m k salt ks).iv.length = ivSize m := by
  rw [saltedKeying, length_derivedIv, totalSize, Nat.add_sub_cancel_left]

/-- ENCRYPT returns the header of its keying and a body that gives the plaintext back under the keying's key and IV. -/
theorem returns_encryptRule_recovers {P : Keying → Prop} (hk : s.keyIs k) (hp : s.inIs p)
    (hz : modePads m = true → sch = .zero → p.getLast? ≠ some 0#8) (hP : Returns (encryptKeying m ivp s k) P)
    (hiv : ∀ w, P w → w.iv.length = ivSize m) :
    Returns (encryptRule m sch ivp s) fun r =>
      ∃ w c, P w ∧ r.bytes = w.hdr ++ c ∧ Recovers m sch p w.key w.iv c := by
  rw [encryptRule_of_inIs hk hp]
  refine returns_bind (returns_padStep m sch p) fun padded ⟨fill, hl, hpad⟩ => returns_bind hP fun w hw =>
    returns_bind (returns_lift _) fun c hc => returns_ret ?_
  exact ⟨w, c, hw, rfl, recovers_of_modeEncrypt hl hpad hz (hiv w hw) hc⟩

/-- Settles O56: the keying is the caller's, and DECRYPT's body is ENCRYPT's result under it. -/
theorem explicitIvRoundTrip : Obligations.ExplicitIvRoundTrip := by
  intro m sch s s' t k iv p e hlegal hwf hs hk hp hv hz hexec hd herr he hmagic hkt het hvt hfit
  have hvs : s.explicitIvIs m true iv := fun hm => ⟨rfl, hv hm⟩
  obtain ⟨hdr, rest, hrule⟩ := exec_success_out hlegal hwf hs hexec hd herr he
  have hkeying : Returns (encryptKeying m true s k) fun w => w = ⟨[], k, plainIv m iv⟩ :=
    encryptKeying_plain k hvs ▸ returns_ret rfl
  rw [ruleOf_encryptInstr] at hrule
  obtain ⟨w, c, rfl, rfl, hrec⟩ :=
    returns_encryptRule_recovers hk hp hz hkeying (fun w hw => hw ▸ length_plainIv hvs) _ _ _ hrule
  exact exec_decrypt_recovers (decryptRule_plain hkt het hmagic fun hm => ⟨rfl, hvt hm⟩) hrec hfit

/-- Settles O57: the keying is that of the salt drawn, which DECRYPT parses from the header. -/
theorem saltedRoundTrip : Obligations.SaltedRoundTrip := by
  intro m sch ivp s s' t k p e hm hlegal hwf hs hk hp hz hexec hd herr he hkt hks het hfit
  obtain ⟨hdr, rest, hrule⟩ := exec_success_out hlegal hwf hs hexec hd herr he
  rw [ruleOf_encryptInstr] at hrule
  obtain ⟨w, c, ⟨salt, hsalt, rfl⟩, rfl, hrec⟩ :=
    returns_encryptRule_recovers hk hp hz (returns_saltedKeying s k hm)
      (fun w ⟨salt, _, hw⟩ => hw ▸ length_saltedKeying_iv m k salt s.keyBytes) _ _ _ hrule
  rw [← hks] at hrec
  exact exec_decrypt_recovers (decryptRule_salted hkt het hsalt) hrec hfit

end Sys2Proof.Machine
end

section
/-! SUPPORT. The statements on issue, completion and the checks before them (spec 60_exceptions.md): what an issue and
each completion write, the capacity check of the commands that read IN, and the draws that are not answered. -/

namespace Sys2Proof.Machine

variable {i : Instr} {m : Mode} {sch : Scheme} {ivp : Bool} {s t : State} {k p rest : Bytes} {r : Result}

/-! ### What an issue and a completion write (R405, R410, R411) -/

/-- A well-formed write of CMD to an idle engine is the issue step (R405). -/
theorem hostCtrlWrite_cmd (w : Word) (hidle : s.isBusy = false) :
    hostCtrlWrite 32 0x00 w s = issue w { s with returned := .nothing } := by
  simp [hostCtrlWrite, ctrlForm, hidle]

/-- Settles O7: the turn makes the access, and the issue step latches what the registers hold. -/
theorem cmdWriteIssues : Obligations.CmdWriteIssues := by
  intro s t w hturn hidle
  rw [hturn.step_eq, hostStep, hostCtrlWrite_cmd w (hturn.isBusy_eq.trans hidle)]
  obtain ⟨rest, -⟩ := hturn
  rfl

/-- Settles O8: the completion step writes the result from OUT[0] up, and its length. -/
theorem successfulCompletionWrites : Obligations.SuccessfulCompletionWrites := by
  intro i s r rest hrule hfit hlegal hwf
  refine ⟨completeOk r.bytes r.hdr { s with entropy := rest }, exec_of_done hrule hfit,
    outlen_completeOk_toNat hlegal hfit r.hdr, read_out_completeOk hwf r.bytes r.hdr, rfl⟩

/-- A result that does not fit OUT fails after every draw (R403). -/
theorem exec_of_overflow (h : ruleOf i s s.entropy = .done r rest) (hover : s.platform.outCap < r.bytes.length) :
    exec i s = .next (completeErr .capacity { s with entropy := rest }) := by
  rw [exec_eq_next, h, conclude, if_neg (Nat.not_le.2 hover)]

/-- Settles O9: an error of the rule and an overflow end in the same error completion step. -/
theorem errorCompletionWrites : Obligations.ErrorCompletionWrites := by
  rintro i s e rest (hraised | ⟨r, hdone, hover, rfl⟩)
  · rw [exec_of_raised hraised, completeErr_eq]
  · rw [exec_of_overflow hdone hover, completeErr_eq]

/-! ### The input capacity check (R402) -/

/-- Every rule that reads IN starts with the check of INLEN (R401, R402). -/
theorem ruleOf_of_readsIn (hi : readsIn i = true) : ∃ f, ruleOf i s = (checkIn s).bind f := by
  cases i with
  | buildHdr => exact nomatch hi
  | encryptCbc | encryptCfb | encryptCtr | encryptOfb | encryptGcm | encryptEcb => exact ⟨_, rfl⟩
  | decryptCbc | decryptCfb | decryptCtr | decryptOfb | decryptGcm | decryptEcb => exact ⟨_, rfl⟩
  | padPkcs7 | padIso9797m2 | padAnsix923 | padIso10126 | padZero | padNone => exact ⟨_, rfl⟩
  | unpadPkcs7 | unpadIso9797m2 | unpadAnsix923 | unpadIso10126 | unpadZero | unpadNone => exact ⟨_, rfl⟩
  | derive | parseHdr | ecbEnc | ecbDec | aesEnc | aesDec => exact ⟨_, rfl⟩

/-- BUILD_HDR reads KEYLEN and KEY of the state, and nothing else (R201). -/
theorem buildHdrRule_congr (hlen : t.keyBytes = s.keyBytes) (hkey : t.key = s.key) :
    buildHdrRule m t = buildHdrRule m s := by
  simp only [buildHdrRule, checkKey, readKey, hlen, hkey]

/-- Settles O29: the check comes first in every rule that reads IN, and BUILD_HDR reads other operands. -/
theorem inputCapacityIsCheckedFirst : Obligations.InputCapacityIsCheckedFirst := by
  refine ⟨fun i s hi hover => ?_, fun m s inp lo hi n op hbusy => buildHdrRule_congr ?_ rfl⟩
  · obtain ⟨f, hf⟩ := ruleOf_of_readsIn (s := s) hi
    exact exec_of_raise (by rw [hf, checkIn_over hover, raise_bind])
  · simp only [State.keyBytes, State.operands, hbusy]

/-! ### Draws that are not answered (R431, R432) -/

theorem buildHdrRule_waiting (hk : s.keyIs k) {e : Bytes} (hdraw : e.length < 8) :
    buildHdrRule m s e = .waiting := by
  simp only [buildHdrRule, checkKey_ok hk.1, ret_bind, readKey, read_bind hk.2]
  exact draw_bind_waiting hdraw _

theorem padRun_waiting {d e : Bytes} {b : Nat} (hb : blockSizeOk sch b = true)
    (hdraw : e.length < fillerLen sch d.length b) : padRun sch d b e = .waiting := by
  rw [padRun, checkB_ok hb, lift_ok, ret_bind]
  exact draw_bind_waiting hdraw _

theorem padStep_waiting {e : Bytes} (hdraw : e.length < encryptFiller m sch p.length) :
    padStep m sch p e = .waiting := by
  unfold encryptFiller at hdraw
  unfold padStep
  split
  · next hm =>
    rw [if_pos hm] at hdraw
    exact padRun_waiting (blockSizeOk_blk sch) hdraw
  · next hm =>
    rw [if_neg hm] at hdraw
    exact absurd hdraw (Nat.not_lt_zero _)

/-- ENCRYPT waits for its salt where the answers left after its filler are too few for it (R366, R372). -/
theorem encryptKeying_waiting {e : Bytes} (hdraw : e.length < if m ≠ .ecb ∧ ivp = false then 8 else 0) :
    encryptKeying m ivp s k e = .waiting := by
  split at hdraw
  · next h =>
    obtain ⟨hm, rfl⟩ := h
    rw [encryptKeying_salted s k hm]
    exact draw_bind_waiting hdraw _
  · exact absurd hdraw (Nat.not_lt_zero _)

/-- ENCRYPT waits for its filler, or goes on with it and waits for its salt. -/
theorem encryptRule_waiting (hk : s.keyIs k) (hp : s.inIs p)
    (hn : modePads m = true → sch = .noPad → p.length % 16 = 0)
    (hdraw : s.entropy.length < encryptDraw m sch ivp p.length) :
    encryptRule m sch ivp s s.entropy = .waiting := by
  by_cases hfill : s.entropy.length < encryptFiller m sch p.length
  · rw [encryptRule_of_inIs hk hp, bind_waiting _ (padStep_waiting hfill)]
  · have hpads : s.padsOn m sch p := by
      refine fun hm => ⟨?_, hn hm⟩
      rw [encryptFiller, if_pos hm] at hfill
      exact Nat.not_lt.1 hfill
    obtain ⟨padded, hpadded⟩ := padStep_of_padsOn hpads
    rw [encryptRule_of_padStep hk hp hpadded]
    refine bind_waiting _ (encryptKeying_waiting ?_)
    rw [List.length_drop]
    rw [encryptDraw] at hdraw
    omega

theorem padRule_waiting (hp : s.inIs p) (hb : blockSizeOk sch s.blockSize = true) {e : Bytes}
    (hdraw : e.length < fillerLen sch p.length s.blockSize) : padRule sch s e = .waiting := by
  rw [padRule_of_inIs hp hb, bind_waiting _ (padRun_waiting hb hdraw)]

/-- Settles O14: with the checks and reads before it passed, each rule stops at its unanswered draw. -/
theorem unansweredDrawWaits : Obligations.UnansweredDrawWaits := by
  intro s
  refine ⟨fun m k hk hdraw => exec_of_waiting (buildHdrRule_waiting hk hdraw),
    fun m sch ivp k p hk hp hn hdraw => exec_of_waiting ?_,
    fun p hp hb hdraw => exec_of_waiting (padRule_waiting hp hb hdraw)⟩
  rw [ruleOf_encryptInstr, encryptRule_waiting hk hp hn hdraw]

end Sys2Proof.Machine
end

section
/-! SUPPORT. The statements on how a command's rule ends (spec 60_exceptions.md R403, R408, R431): one account of every
rule, from which a command with its operands and answers completes, and no result overflows a roomy OUT. -/

namespace Sys2Proof.Machine

variable {α β : Type} {P : α → Prop} {Q : β → Prop} {s : State} {sch : Scheme} {n j b : Nat} {d fill : Bytes}

/-! ### Lengths and errors of the functions a rule calls -/

/-- A function call of the pseudocode returns a value that meets `P`, or raises an error that is not CapacityError. -/
def Gives (y : Except Err α) (P : α → Prop) : Prop :=
  match y with
  | .ok a => P a
  | .error err => err ≠ .capacity

theorem gives_ok {a : α} (h : P a) : Gives (.ok a) P := h

theorem gives_error {err : Err} (h : err ≠ .capacity) : Gives (.error err) P := h

theorem gives_ite {c : Prop} [Decidable c] {y z : Except Err α} (hy : Gives y P) (hz : Gives z P) :
    Gives (if c then y else z) P := by
  split <;> assumption

theorem gives_checkB (sch : Scheme) (b : Nat) : Gives (checkB sch b) fun _ => blockSizeOk sch b = true := by
  unfold checkB
  split
  · next hb => exact gives_ok hb
  · exact gives_error (by decide)

/-- Pad adds at most a block and the marker of ISO/IEC 9797-1 Method 2, and at most 256 bytes (R140, R141). -/
theorem gives_padWith (hb : blockSizeOk sch b = true) (hl : fill.length = fillerLen sch d.length b) :
    Gives (padWith sch d b fill) fun padded => padded.length ≤ d.length + min (b + 1) 256 := by
  obtain ⟨hpos, hle⟩ := padLen_bounds d.length (blockSizeOk_pos hb)
  cases sch with
  | noPad => exact gives_ite (gives_error (by decide)) (gives_ok (Nat.le_add_right _ _))
  | iso9797m2 =>
    have h255 : b ≤ 255 := (of_decide_eq_true hb).2
    obtain ⟨-, hle⟩ := padLen_bounds (d.length + 1) (blockSizeOk_pos hb)
    refine gives_ok ?_
    rw [length_zeroPad, List.length_append, List.length_singleton]
    omega
  | pkcs7 | zero | ansix923 =>
    have h255 : b ≤ 255 := (of_decide_eq_true hb).2
    refine gives_ok ?_
    simp only [length_zeroPad, List.length_append, length_rep, List.length_singleton]
    omega
  | iso10126 =>
    have h256 : b ≤ 256 := (of_decide_eq_true hb).2
    refine gives_ok ?_
    simp only [List.length_append, hl, fillerLen, List.length_singleton]
    omega

theorem length_stripZeros_le (d : Bytes) : (stripZeros d).length ≤ d.length :=
  (List.rdropWhile_prefix _ d).length_le

theorem gives_padCount (d : Bytes) (b : Nat) : Gives (padCount d b) fun _ => True := by
  unfold padCount
  split
  · exact gives_error (by decide)
  · exact gives_ite (gives_error (by decide)) (gives_ok trivial)

/-- The schemes with a count byte return a front part of the data (R151, R155, R157). -/
theorem gives_unpadBody_counted (d : Bytes) (b : Nat) (hs : sch = .pkcs7 ∨ sch = .ansix923 ∨ sch = .iso10126) :
    Gives (unpadBody sch d b) fun r => r.length ≤ d.length := by
  have hcounted := gives_padCount d b
  cases hcount : padCount d b with
  | error err =>
    rw [hcount] at hcounted
    rw [unpadBody_of_padCount_error hs hcount]
    exact gives_error hcounted
  | ok n =>
    have htake : (d.take (d.length - n)).length ≤ d.length := List.length_take_le' _ d
    obtain rfl | rfl | rfl := hs
    · rw [unpadBody_pkcs7_of_count hcount]
      exact gives_ite (gives_error (by decide)) (gives_ok htake)
    · rw [unpadBody_ansix923_of_count hcount]
      exact gives_ite (gives_error (by decide)) (gives_ok htake)
    · rw [unpadBody_iso10126_of_count hcount]
      exact gives_ok htake

/-- Unpad never returns more than the data (R150). -/
theorem gives_unpad (sch : Scheme) (d : Bytes) (b : Nat) :
    Gives (unpad sch d b) fun r => r.length ≤ d.length := by
  by_cases hb : blockSizeOk sch b = true
  · rw [unpad_of_blockSizeOk hb]
    cases sch with
    | pkcs7 => exact gives_unpadBody_counted d b (.inl rfl)
    | ansix923 => exact gives_unpadBody_counted d b (.inr (.inl rfl))
    | iso10126 => exact gives_unpadBody_counted d b (.inr (.inr rfl))
    | zero => exact gives_ok (length_stripZeros_le d)
    | noPad => exact gives_ite (gives_error (by decide)) (gives_ok (Nat.le_refl _))
    | iso9797m2 =>
      refine gives_ite (gives_error (by decide)) (gives_ok ?_)
      rw [List.length_dropLast]
      exact (Nat.sub_le _ _).trans (length_stripZeros_le d)
  · rw [unpad, checkB_bad (Bool.eq_false_iff.2 hb)]
    exact gives_error (by decide)

theorem gives_unpadStep (m : Mode) (sch : Scheme) (d : Bytes) :
    Gives (unpadStep m sch d) fun r => r.length ≤ d.length :=
  gives_ite (gives_unpad sch d blk) (gives_ok (Nat.le_refl _))

/-- ENCRYPT's transform adds at most 16 bytes: the last block filled up, or GCM's tag. -/
theorem gives_modeEncrypt (m : Mode) (k iv d : Bytes) :
    Gives (modeEncrypt m k iv d) fun c => c.length ≤ d.length + 16 := by
  cases m with
  | gcm =>
    refine gives_ite (gives_error (by decide)) (gives_ok ?_)
    rw [List.length_append, length_gctr, length_gcmTagOf]
  | cbc =>
    refine gives_ok ?_
    rw [length_cbcEnc]
    omega
  | ecb =>
    refine gives_ok ?_
    rw [length_ecbEnc]
    omega
  | cfb => exact gives_ok ((length_cfbEnc k iv d).trans_le (Nat.le_add_right _ _))
  | ctr => exact gives_ok ((length_ctrXcrypt k iv d).trans_le (Nat.le_add_right _ _))
  | ofb => exact gives_ok ((length_ofbXcrypt k iv d).trans_le (Nat.le_add_right _ _))

/-- DECRYPT's transform gives at most the ciphertext's blocks. -/
theorem gives_modeDecrypt (m : Mode) (k iv d : Bytes) :
    Gives (modeDecrypt m k iv d) fun p => p.length ≤ d.length + 16 := by
  cases m with
  | gcm =>
    refine gives_ite (gives_error (by decide)) (gives_ite (gives_error (by decide)) (gives_ite
      (gives_error (by decide)) (gives_ok ?_)))
    rw [length_gctr, length_slice _ _ _ (Nat.sub_le _ _)]
    omega
  | cbc =>
    refine gives_ok ((length_cbcDec_le k iv d).trans ?_)
    omega
  | ecb =>
    refine gives_ok ?_
    rw [length_ecbDec]
    omega
  | cfb => exact gives_ok ((length_cfbDec k iv d).trans_le (Nat.le_add_right _ _))
  | ctr => exact gives_ok ((length_ctrXcrypt k iv d).trans_le (Nat.le_add_right _ _))
  | ofb => exact gives_ok ((length_ofbXcrypt k iv d).trans_le (Nat.le_add_right _ _))

/-! ### How a piece of a rule ends -/

/-- Every byte a command can read is written: KEY, IV, SALT and IN throughout (R45, R112). -/
structure State.OperandsWritten (s : State) : Prop where
  key : (s.key.readRange 0 32).isSome = true
  iv : (s.iv.readRange 0 16).isSome = true
  salt : (s.salt.readRange 0 8).isSome = true
  inp : (s.inp.readRange 0 s.platform.inCap).isSome = true

/-- What is true of `s` when a piece that draws at most `n` of `total` answers reaches its end: a value meets `P`,
CapacityError means that INLEN is above IN_CAP, sticking that an operand byte is unwritten, and waiting that fewer than
`n` bytes are answered. -/
def Reach.Explained (s : State) (total n : Nat) (P : α → Prop) : Reach α → Prop
  | .done a rest => P a ∧ total ≤ rest.length + n
  | .raised err _ => err = .capacity → s.platform.inCap < s.inBytes
  | .unwritten => ¬ s.OperandsWritten
  | .waiting => total < n

/-- Whatever is answered, the end of the piece is explained. -/
def Ends (s : State) (n : Nat) (x : Run α) (P : α → Prop) : Prop := ∀ e, (x e).Explained s e.length n P

theorem ends_ret {a : α} (h : P a) : Ends s n (Run.ret a) P := fun _ => ⟨h, Nat.le_add_right _ _⟩

theorem ends_raise {err : Err} (h : err ≠ .capacity) : Ends s n (Run.raise err) P := fun _ hc => absurd hc h

theorem ends_lift {y : Except Err α} (h : Gives y P) : Ends s 0 (Run.lift y) P := by
  cases y with
  | ok a => exact ends_ret h
  | error err => exact ends_raise h

theorem ends_check (ok : Bool) {err : Err} (h : err ≠ .capacity) : Ends s 0 (Run.check ok err) fun _ => ok = true := by
  cases ok with
  | true => exact ends_ret rfl
  | false => exact ends_raise h

theorem ends_checkIn (s : State) : Ends s 0 (checkIn s) fun _ => s.inBytes ≤ s.platform.inCap := by
  by_cases hin : s.inBytes ≤ s.platform.inCap
  · rw [checkIn_ok hin]
    exact ends_ret hin
  · rw [checkIn_over (Nat.lt_of_not_le hin)]
    exact fun _ _ => Nat.lt_of_not_le hin

theorem ends_checkKey (s : State) : Ends s 0 (checkKey s) fun _ => keySizeLegal s.keyBytes = true :=
  ends_check _ (by decide)

/-- A MemRead inside a buffer part that is written when the operands are. -/
theorem ends_read {mem : Memory} {size a l : Nat} (hl : a + l ≤ size)
    (h : s.OperandsWritten → (mem.readRange 0 size).isSome = true) :
    Ends s 0 (Run.read mem a l) fun x => x.length = l := by
  intro e
  unfold Run.read
  cases hread : mem.readRange a l with
  | some x => exact ⟨Memory.readRange_length hread, Nat.le_refl _⟩
  | none =>
    intro hw
    obtain ⟨x, hx⟩ := Option.isSome_iff_exists.1 (h hw)
    exact nomatch hread.symm.trans (Memory.readRange_part hx hl)

theorem keySizeLegal_le {l : Nat} (h : keySizeLegal l = true) : l ≤ 32 := by
  simp only [keySizeLegal, Bool.or_eq_true, beq_iff_eq] at h
  omega

theorem ends_readKey (hkey : keySizeLegal s.keyBytes = true) :
    Ends s 0 (readKey s) fun x => x.length = s.keyBytes :=
  ends_read (size := 32) (by rw [Nat.zero_add]; exact keySizeLegal_le hkey) (·.key)

theorem ends_readSalt (s : State) : Ends s 0 (readSalt s) fun x => x.length = 8 :=
  ends_read (Nat.le_refl _) (·.salt)

theorem ends_readIn {a b : Nat} (hin : s.inBytes ≤ s.platform.inCap) (hab : a ≤ b) (hb : b ≤ s.inBytes) :
    Ends s 0 (readIn s a b) fun x => x.length = b - a :=
  ends_read (size := s.platform.inCap) (by omega) (·.inp)

theorem ends_draw (s : State) (n : Nat) : Ends s n (Run.draw n) fun x => x.length = n := by
  intro e
  unfold Run.draw
  split
  · next hn =>
    refine ⟨List.length_take_of_le hn, ?_⟩
    rw [List.length_drop]
    omega
  · next hn => exact Nat.lt_of_not_le hn

/-- An end stays explained by a larger allowance of draws, or fewer answers before it, and a weaker claim. -/
theorem Reach.Explained.mono {x : Reach α} {P' : α → Prop} {total total' : Nat} (h : x.Explained s total n P)
    (hn : total' + n ≤ total + j) (hP : ∀ a, P a → P' a) : x.Explained s total' j P' := by
  cases x with
  | done a rest =>
    obtain ⟨ha, hrest⟩ := h
    exact ⟨hP a ha, by omega⟩
  | raised err rest => exact h
  | unwritten => exact h
  | waiting =>
    have hwait : total < n := h
    exact show total' < j by omega

/-- One piece after another draws what both draw. -/
theorem ends_bind {x : Run α} {f : α → Run β} (hx : Ends s n x P) (hf : ∀ a, P a → Ends s j (f a) Q) :
    Ends s (n + j) (x.bind f) Q := by
  intro e
  have hend := hx e
  cases h : x e with
  | done a rest =>
    rw [h] at hend
    obtain ⟨ha, hrest⟩ := hend
    rw [bind_done f h]
    exact (hf a ha rest).mono (by omega) fun _ => id
  | raised err rest =>
    rw [bind_raised f h]
    rwa [h] at hend
  | unwritten =>
    rw [bind_unwritten f h]
    rwa [h] at hend
  | waiting =>
    rw [bind_waiting f h]
    rw [h] at hend
    exact Nat.lt_of_lt_of_le hend (Nat.le_add_right n j)

/-- After a piece that draws nothing. -/
theorem ends_then {x : Run α} {f : α → Run β} (hx : Ends s 0 x P) (hf : ∀ a, P a → Ends s n (f a) Q) :
    Ends s n (x.bind f) Q :=
  Nat.zero_add n ▸ ends_bind hx hf

theorem ends_mono {x : Run α} {P' : α → Prop} (hx : Ends s n x P) (hn : n ≤ j) (hP : ∀ a, P a → P' a) :
    Ends s j x P' :=
  fun e => (hx e).mono (Nat.add_le_add_left hn _) hP

/-! ### How each rule ends -/

theorem ends_padRun (sch : Scheme) (d : Bytes) (b : Nat) :
    Ends s (fillerLen sch d.length b) (padRun sch d b) fun padded => padded.length ≤ d.length + min (b + 1) 256 :=
  ends_then (ends_lift (gives_checkB sch b)) fun _ hb => ends_bind (j := 0) (ends_draw s _) fun _ hl =>
    ends_lift (gives_padWith hb hl)

theorem ends_padStep (m : Mode) (sch : Scheme) (d : Bytes) :
    Ends s (encryptFiller m sch d.length) (padStep m sch d) fun padded => padded.length ≤ d.length + 17 := by
  unfold padStep encryptFiller
  split
  · exact ends_padRun sch d blk
  · exact ends_ret (Nat.le_add_right _ _)

theorem ends_explicitIv (m : Mode) (ivp : Bool) (s : State) : Ends s 0 (explicitIv m ivp s) fun _ => True := by
  refine ends_then (ends_check _ (by decide)) fun _ hcheck =>
    ends_mono (ends_read (size := 16) ?_ (·.iv)) (Nat.le_refl _) fun _ _ => trivial
  simp only [Bool.and_eq_true, decide_eq_true_eq] at hcheck
  obtain ⟨-, hsize⟩ := hcheck
  rw [hsize]
  cases m <;> decide

/-- ENCRYPT's keying draws the salt where it takes one, and its header is that of a salt or empty (R366, R373). -/
theorem ends_encryptKeying (m : Mode) (ivp : Bool) (s : State) (k : Bytes) :
    Ends s (if m ≠ .ecb ∧ ivp = false then 8 else 0) (encryptKeying m ivp s k) fun w => w.hdr.length ≤ 16 := by
  by_cases hm : m = .ecb
  · subst hm
    rw [encryptKeying_ecb]
    exact ends_ret (Nat.zero_le _)
  · cases ivp with
    | true =>
      rw [encryptKeying, if_neg hm]
      exact ends_mono (ends_then (ends_explicitIv m true s) fun _ _ => ends_ret (Nat.zero_le 16)) (Nat.zero_le _)
        fun _ => id
    | false =>
      rw [encryptKeying_salted s k hm, if_pos ⟨hm, rfl⟩]
      refine ends_bind (j := 0) (ends_draw s saltLen) fun salt hsalt => ends_ret ?_
      rw [saltedKeying, length_header, hsalt, saltLen]

theorem ends_encryptRule (m : Mode) (sch : Scheme) (ivp : Bool) (s : State) :
    Ends s (encryptDraw m sch ivp s.inBytes) (encryptRule m sch ivp s) fun r =>
      r.bytes.length ≤ s.inBytes + 256 := by
  refine ends_then (ends_checkIn s) fun _ hin => ends_then (ends_checkKey s) fun _ hkey =>
    ends_then (ends_readKey hkey) fun k _ => ends_then (ends_readIn hin (Nat.zero_le _) (Nat.le_refl _)) fun p hp => ?_
  rw [Nat.sub_zero] at hp
  rw [encryptDraw, ← hp]
  refine ends_bind (ends_padStep m sch p) fun padded hpadded => ends_bind (j := 0) (ends_encryptKeying m ivp s k)
    fun w hw => ends_then (ends_lift (gives_modeEncrypt m _ _ padded)) fun c hc => ends_ret ?_
  rw [List.length_append]
  omega

theorem ends_recognise (hin : s.inBytes ≤ s.platform.inCap) : Ends s 0 (recognise s) fun _ => True := by
  unfold recognise
  split
  · next h8 => exact ends_then (ends_readIn hin (Nat.zero_le _) h8) fun _ _ => ends_ret trivial
  · exact ends_ret trivial

theorem ends_saltedBody (m : Mode) (k : Bytes) (hin : s.inBytes ≤ s.platform.inCap) :
    Ends s 0 (saltedBody m s k) fun w => w.text.length ≤ s.inBytes := by
  refine ends_then (ends_check _ (by decide)) fun _ hhdr => ?_
  have hhdr : 16 ≤ s.inBytes := of_decide_eq_true hhdr
  refine ends_then (ends_readIn hin (by decide) hhdr) fun _ _ =>
    ends_then (ends_readIn hin hhdr (Nat.le_refl _)) fun c hc => ends_ret ?_
  rw [hc]
  exact Nat.sub_le _ _

theorem ends_plainBody (m : Mode) (ivp : Bool) (k : Bytes) (hin : s.inBytes ≤ s.platform.inCap) :
    Ends s 0 (plainBody m ivp s k) fun w => w.text.length ≤ s.inBytes := by
  refine ends_then (ends_readIn hin (Nat.zero_le _) (Nat.le_refl _)) fun c hc => ?_
  split
  · exact ends_ret hc.le
  · exact ends_then (ends_explicitIv m ivp s) fun _ _ => ends_ret hc.le

theorem ends_decryptRule (m : Mode) (sch : Scheme) (ivp : Bool) (s : State) :
    Ends s 0 (decryptRule m sch ivp s) fun r => r.bytes.length ≤ s.inBytes + 256 := by
  refine ends_then (ends_checkIn s) fun _ hin => ends_then (ends_checkKey s) fun _ hkey =>
    ends_then (ends_readKey hkey) fun k _ => ends_then (ends_recognise hin) fun salted _ =>
    ends_then (P := fun w => w.text.length ≤ s.inBytes) ?body fun w hw => ends_then (ends_check _ (by decide)) fun _ _ =>
    ends_then (ends_lift (gives_modeDecrypt m _ _ _)) fun p hp => ends_then (ends_lift (gives_unpadStep m sch p))
    fun r hr => ends_ret (show r.length ≤ s.inBytes + 256 by omega)
  case body =>
    split
    · exact ends_saltedBody m k hin
    · exact ends_plainBody m ivp k hin

/-- PAD draws its filler only for a block size in range (R432). -/
theorem ends_padRule (hn : blockSizeOk sch s.blockSize = true → fillerLen sch s.inBytes s.blockSize ≤ n) :
    Ends s n (padRule sch s) fun r => r.bytes.length ≤ s.inBytes + 256 := by
  refine ends_then (ends_checkIn s) fun _ hin => ends_then (ends_lift (gives_checkB sch _)) fun _ hb =>
    ends_then (ends_readIn hin (Nat.zero_le _) (Nat.le_refl _)) fun d hd => ?_
  rw [Nat.sub_zero] at hd
  refine ends_mono (ends_bind (j := 0) (ends_padRun sch d _) fun padded hpadded => ends_ret ?_) (hd ▸ hn hb) fun _ => id
  exact show padded.length ≤ s.inBytes + 256 by omega

theorem ends_unpadRule (sch : Scheme) (s : State) :
    Ends s 0 (unpadRule sch s) fun r => r.bytes.length ≤ s.inBytes + 256 :=
  ends_then (ends_checkIn s) fun _ hin => ends_then (ends_lift (gives_checkB sch _)) fun _ _ =>
    ends_then (ends_readIn hin (Nat.zero_le _) (Nat.le_refl _)) fun d hd =>
    ends_then (ends_lift (gives_unpad sch d _)) fun r hr => ends_ret (show r.length ≤ s.inBytes + 256 by omega)

theorem ivSize_le (m : Mode) : ivSize m ≤ 16 := by cases m <;> decide

/-- The key material of a legal key length is at most 48 bytes. -/
theorem length_keyMaterial_le (m : Mode) (salt pw : Bytes) (hkey : keySizeLegal s.keyBytes = true) :
    (keyMaterial m salt pw s.keyBytes).length ≤ 48 := by
  have h32 := keySizeLegal_le hkey
  have h16 := ivSize_le m
  rw [length_keyMaterial]
  omega

theorem ends_deriveRule (m : Mode) (s : State) :
    Ends s 0 (deriveRule m s) fun r => r.bytes.length ≤ s.inBytes + 256 :=
  ends_then (ends_checkIn s) fun _ hin => ends_then (ends_checkKey s) fun _ hkey =>
    ends_then (ends_readSalt s) fun salt _ => ends_then (ends_readIn hin (Nat.zero_le _) (Nat.le_refl _)) fun pw _ =>
    ends_ret ((length_keyMaterial_le m salt pw hkey).trans (by omega))

theorem ends_buildHdrRule (m : Mode) (s : State) :
    Ends s 8 (buildHdrRule m s) fun r => r.bytes.length ≤ s.inBytes + 256 := by
  refine ends_then (ends_checkKey s) fun _ hkey => ends_then (ends_readKey hkey) fun pw _ =>
    ends_bind (j := 0) (ends_draw s saltLen) fun salt hsalt => ends_ret ?_
  have hmaterial := length_keyMaterial_le m salt pw hkey
  simp only [keyMaterial, List.length_append] at hmaterial
  simp only [totalSize, List.length_append, length_header, hsalt, saltLen]
  omega

theorem ends_parseHdrRule (m : Mode) (s : State) :
    Ends s 0 (parseHdrRule m s) fun r => r.bytes.length ≤ s.inBytes + 256 :=
  ends_then (ends_checkIn s) fun _ hin => ends_then (ends_checkKey s) fun _ hkey =>
    ends_then (ends_check _ (by decide)) fun _ hhdr =>
    ends_then (ends_readIn hin (by decide) (of_decide_eq_true hhdr)) fun salt _ =>
    ends_then (ends_readKey hkey) fun pw _ => ends_ret ((length_keyMaterial_le m salt pw hkey).trans (by omega))

theorem ends_blockRule (aligned : Nat → Bool) {f : Bytes → Bytes → Bytes}
    (hf : ∀ k x, (f k x).length ≤ x.length + 16) (s : State) :
    Ends s 0 (blockRule aligned f s) fun r => r.bytes.length ≤ s.inBytes + 256 :=
  ends_then (ends_checkIn s) fun _ hin => ends_then (ends_checkKey s) fun _ hkey =>
    ends_then (ends_check _ (by decide)) fun _ _ => ends_then (ends_readKey hkey) fun k _ =>
    ends_then (ends_readIn hin (Nat.zero_le _) (Nat.le_refl _)) fun x hx =>
    ends_ret ((hf k x).trans (by omega))

/-- How a command's rule ends: it draws at most what R432 says, and its result is at most 256 bytes longer than its
input. -/
theorem ends_ruleOf (i : Instr) (s : State) :
    Ends s (s.drawBytes i) (ruleOf i s) fun r => r.bytes.length ≤ s.inBytes + 256 := by
  cases i with
  | encryptCbc | encryptCfb | encryptCtr | encryptOfb | encryptGcm | encryptEcb => exact ends_encryptRule _ _ _ s
  | decryptCbc | decryptCfb | decryptCtr | decryptOfb | decryptGcm | decryptEcb => exact ends_decryptRule _ _ _ s
  | padPkcs7 | padIso9797m2 | padAnsix923 | padZero | padNone => exact ends_padRule fun _ => Nat.le_refl _
  | padIso10126 => exact ends_padRule fun hb => (if_pos hb).ge
  | unpadPkcs7 | unpadIso9797m2 | unpadAnsix923 | unpadIso10126 | unpadZero | unpadNone => exact ends_unpadRule _ s
  | derive m => exact ends_deriveRule m s
  | buildHdr m => exact ends_buildHdrRule m s
  | parseHdr m => exact ends_parseHdrRule m s
  | ecbEnc => exact ends_blockRule _ (fun k x => gives_modeEncrypt .ecb k [] x) s
  | ecbDec => exact ends_blockRule _ (fun k x => gives_modeDecrypt .ecb k [] x) s
  | aesEnc => exact ends_blockRule _ (f := aesEnc) (fun _ x => Nat.le_add_left 16 x.length) s
  | aesDec => exact ends_blockRule _ (f := aesDec) (fun _ x => Nat.le_add_left 16 x.length) s

/-! ### Completion and capacity -/

/-- Settles O12: the rule neither sticks nor waits, and both completions leave DONE set and the engine idle. -/
theorem writtenOperandsAndAnswersComplete : Obligations.WrittenOperandsAndAnswersComplete := by
  intro i s hkey hiv hsalt hinp hdraw
  have hends := ends_ruleOf i s s.entropy
  obtain ⟨t, ht⟩ : ∃ t, exec i s = .next t := ⟨_, exec_eq_next i s⟩
  refine ⟨t, ht, ?_⟩
  obtain ⟨r, e, -, -, rfl⟩ | ⟨r, e, -, -, rfl⟩ | ⟨err, e, -, rfl⟩ | ⟨hx, -⟩ | ⟨hx, -⟩ := exec_cases ht
  · exact ⟨rfl, rfl⟩
  · exact ⟨rfl, rfl⟩
  · exact ⟨rfl, rfl⟩
  · rw [hx] at hends
    exact absurd ⟨hkey, hiv, hsalt, hinp⟩ hends
  · rw [hx] at hends
    exact absurd hends (Nat.not_lt.2 hdraw)

/-- CapacityError alone has code 9 (R400). -/
theorem eq_capacity_of_errCode {err : Err} (h : errCode err = 9#4) : err = .capacity := by
  cases err with
  | capacity => rfl
  | invalidKeySize | invalidIvLength | blockAlignment | paddingValidation | authenticationFailure | plaintextTooLarge
  | unsupportedMode | illegalCommand => exact absurd h (by decide)

/-- Settles O34: a result is at most 256 bytes longer than its input, and the rule itself raises CapacityError only
for INLEN above IN_CAP. -/
theorem roomyPlatformNeverOverflows : Obligations.RoomyPlatformNeverOverflows := by
  intro i s t hroomy hs hin ht
  have hends := ends_ruleOf i s s.entropy
  obtain ⟨r, e, -, -, rfl⟩ | ⟨r, e, hx, hover, -⟩ | ⟨err, e, hx, rfl⟩ | ⟨-, rfl⟩ | ⟨-, rfl⟩ := exec_cases ht
  · exact show (0#4 : BitVec 4) ≠ 9#4 by decide
  · rw [hx] at hends
    obtain ⟨hlen, -⟩ := hends
    have hroom : s.platform.inCap + 256 ≤ s.platform.outCap := (Nat.le_max_left _ _).trans hroomy
    omega
  · rw [hx] at hends
    exact fun h9 => absurd (hends (eq_capacity_of_errCode h9)) (Nat.not_lt.2 hin)
  · exact hs
  · exact hs

end Sys2Proof.Machine
end

section
/-! SUPPORT. The statement on what the draws decide (spec 60_exceptions.md R404): with other answers, as many of them, a
rule ends alike, with a result of the same length or with the same error. -/

namespace Sys2Proof.Machine

variable {α β : Type} {R : α → α → Prop} {Q : β → β → Prop} {x y : Run α} {f g : α → Run β}

/-! ### Two ends of a rule's piece -/

/-- Two ends of a piece are alike: two values that `R` relates or one error, with as many answers left, or two that
stick or wait. -/
inductive Reach.Alike (R : α → α → Prop) : Reach α → Reach α → Prop where
  | done {a b : α} {rest rest' : Bytes} (h : R a b) (hl : rest.length = rest'.length) :
      Alike R (.done a rest) (.done b rest')
  | raised {err : Err} {rest rest' : Bytes} (hl : rest.length = rest'.length) :
      Alike R (.raised err rest) (.raised err rest')
  | unwritten : Alike R .unwritten .unwritten
  | waiting : Alike R .waiting .waiting

/-- With as many answers, two pieces end alike. -/
def Alike (R : α → α → Prop) (x y : Run α) : Prop :=
  ∀ e e' : Bytes, e.length = e'.length → (x e).Alike R (y e')

/-- A piece that reaches the same value, if any, whatever is answered. -/
abbrev Steady (x : Run α) : Prop := Alike (· = ·) x x

/-- The values are byte strings of one length. -/
abbrev SameLength (b b' : Bytes) : Prop := b.length = b'.length

/-- The results have one length and one HDR. -/
abbrev SameShape (r r' : Result) : Prop := r.bytes.length = r'.bytes.length ∧ r.hdr = r'.hdr

theorem alike_ret {a b : α} (h : R a b) : Alike R (Run.ret a) (Run.ret b) := fun _ _ hl => .done h hl

theorem alike_raise (err : Err) : Alike R (Run.raise err) (Run.raise err) := fun _ _ hl => .raised hl

theorem alike_bind (hx : Alike R x y) (hf : ∀ a b, R a b → Alike Q (f a) (g b)) :
    Alike Q (x.bind f) (y.bind g) := by
  intro e e' hl
  have hend := hx e e' hl
  unfold Run.bind
  generalize x e = z, y e' = z' at hend ⊢
  cases hend with
  | done h hl => exact hf _ _ h _ _ hl
  | raised hl => exact .raised hl
  | unwritten => exact .unwritten
  | waiting => exact .waiting

/-- After a piece that the answers do not change. -/
theorem alike_after (hx : Steady x) (hf : ∀ a, Alike Q (f a) (g a)) : Alike Q (x.bind f) (x.bind g) :=
  alike_bind hx fun a _ h => h ▸ hf a

theorem steady_ret (a : α) : Steady (Run.ret a) := alike_ret rfl

theorem steady_check (ok : Bool) (err : Err) : Steady (Run.check ok err) := by
  cases ok with
  | true => exact steady_ret ()
  | false => exact alike_raise err

theorem steady_lift (y : Except Err α) : Steady (Run.lift y) := by
  cases y with
  | ok a => exact steady_ret a
  | error err => exact alike_raise err

theorem steady_read (mem : Memory) (a n : Nat) : Steady (Run.read mem a n) := by
  intro e e' hl
  unfold Run.read
  cases mem.readRange a n with
  | some x => exact .done rfl hl
  | none => exact .unwritten

theorem steady_ite {c : Prop} [Decidable c] (hx : Steady x) (hy : Steady y) : Steady (if c then x else y) := by
  split <;> assumption

/-- Draws differ in their bytes alone (R430). -/
theorem alike_draw (n : Nat) : Alike SameLength (Run.draw n) (Run.draw n) := by
  intro e e' hl
  unfold Run.draw
  rw [← hl]
  split
  · exact .done (by simp [SameLength, hl]) (by simp [hl])
  · exact .waiting

/-- Two calls that return byte strings of one length, or raise one error. -/
theorem alike_lift {y z : Except Err Bytes} (h : y.map List.length = z.map List.length) :
    Alike SameLength (Run.lift y) (Run.lift z) := by
  cases y with
  | ok b =>
    cases z with
    | ok b' => exact alike_ret (Except.ok.inj h)
    | error err' => exact nomatch h
  | error err =>
    cases z with
    | ok b' => exact nomatch h
    | error err' => exact Except.error.inj h ▸ alike_raise err

/-! ### The functions that take drawn bytes -/

/-- The filler's length alone decides the padded length (R148). -/
theorem padWith_length_congr (sch : Scheme) (d : Bytes) (b : Nat) {fill fill' : Bytes} (h : SameLength fill fill') :
    (padWith sch d b fill).map List.length = (padWith sch d b fill').map List.length := by
  cases sch with
  | iso10126 => simp only [padWith, Except.map, List.length_append, show fill.length = fill'.length from h]
  | pkcs7 | iso9797m2 | ansix923 | zero | noPad => rfl

/-- Neither the key nor the IV nor the bytes decide the length of a mode's transform, or whether it fails. -/
theorem modeEncrypt_length_congr (m : Mode) (k k' iv iv' : Bytes) {p p' : Bytes} (h : SameLength p p') :
    (modeEncrypt m k iv p).map List.length = (modeEncrypt m k' iv' p').map List.length := by
  have h : p.length = p'.length := h
  cases m with
  | gcm =>
    simp only [modeEncrypt, gcmSeal, h]
    split
    · rfl
    · simp only [Except.map, List.length_append, length_gctr, length_gcmTagOf, h]
  | cbc => simp only [modeEncrypt, Except.map, length_cbcEnc, h]
  | ecb => simp only [modeEncrypt, Except.map, length_ecbEnc, h]
  | cfb => simp only [modeEncrypt, Except.map, length_cfbEnc, h]
  | ctr => simp only [modeEncrypt, Except.map, length_ctrXcrypt, h]
  | ofb => simp only [modeEncrypt, Except.map, length_ofbXcrypt, h]

/-! ### The rules that draw -/

theorem alike_padRun (sch : Scheme) (d : Bytes) (b : Nat) : Alike SameLength (padRun sch d b) (padRun sch d b) :=
  alike_after (steady_lift _) fun _ => alike_bind (alike_draw _) fun _ _ h =>
    alike_lift (padWith_length_congr sch d b h)

theorem alike_padStep (m : Mode) (sch : Scheme) (p : Bytes) : Alike SameLength (padStep m sch p) (padStep m sch p) := by
  unfold padStep
  split
  · exact alike_padRun sch p blk
  · exact alike_ret rfl

theorem steady_explicitIv (m : Mode) (ivp : Bool) (s : State) : Steady (explicitIv m ivp s) :=
  alike_after (steady_check _ _) fun _ => steady_read _ _ _

/-- The header, of a salt or empty, has the same length whatever the salt is. -/
theorem alike_encryptKeying (m : Mode) (ivp : Bool) (s : State) (k : Bytes) :
    Alike (fun w w' => SameLength w.hdr w'.hdr) (encryptKeying m ivp s k) (encryptKeying m ivp s k) := by
  unfold encryptKeying
  split
  · exact alike_ret rfl
  · split
    · exact alike_after (steady_explicitIv m ivp s) fun _ => alike_ret rfl
    · refine alike_bind (alike_draw _) fun salt salt' h => alike_ret ?_
      simp only [saltedKeying, SameLength, length_header, show salt.length = salt'.length from h]

theorem alike_encryptRule (m : Mode) (sch : Scheme) (ivp : Bool) (s : State) :
    Alike SameShape (encryptRule m sch ivp s) (encryptRule m sch ivp s) := by
  refine alike_after (steady_check _ _) fun _ => alike_after (steady_check _ _) fun _ =>
    alike_after (steady_read _ _ _) fun k => alike_after (steady_read _ _ _) fun p =>
    alike_bind (alike_padStep m sch p) fun padded padded' hp => alike_bind (alike_encryptKeying m ivp s k)
    fun w w' hw => alike_bind (alike_lift (modeEncrypt_length_congr m _ _ _ _ hp)) fun c c' hc => alike_ret ⟨?_, ?_⟩
  · rw [List.length_append, List.length_append, show w.hdr.length = w'.hdr.length from hw,
      show c.length = c'.length from hc]
  · have hempty : w.hdr.isEmpty = w'.hdr.isEmpty := by
      rw [Bool.eq_iff_iff, List.isEmpty_iff_length_eq_zero, List.isEmpty_iff_length_eq_zero, hw]
    rw [hempty]

theorem alike_padRule (sch : Scheme) (s : State) : Alike SameShape (padRule sch s) (padRule sch s) :=
  alike_after (steady_check _ _) fun _ => alike_after (steady_lift _) fun _ =>
    alike_after (steady_read _ _ _) fun _ => alike_bind (alike_padRun _ _ _) fun _ _ h => alike_ret ⟨h, rfl⟩

theorem alike_buildHdrRule (m : Mode) (s : State) : Alike SameShape (buildHdrRule m s) (buildHdrRule m s) := by
  refine alike_after (steady_check _ _) fun _ => alike_after (steady_read _ _ _) fun pw =>
    alike_bind (alike_draw _) fun salt salt' h => alike_ret ⟨?_, rfl⟩
  have hle : s.keyBytes ≤ totalSize s.keyBytes m := Nat.le_add_right _ _
  simp only [List.length_append, length_header, length_derivedKey _ _ hle, length_derivedIv,
    show salt.length = salt'.length from h]

/-! ### The rules that draw nothing -/

theorem alike_decryptRule (m : Mode) (sch : Scheme) (ivp : Bool) (s : State) :
    Alike SameShape (decryptRule m sch ivp s) (decryptRule m sch ivp s) := by
  have hrecognise : Steady (recognise s) :=
    steady_ite (alike_after (steady_read _ _ _) fun _ => steady_ret _) (steady_ret _)
  have hsalted (k : Bytes) : Steady (saltedBody m s k) :=
    alike_after (steady_check _ _) fun _ => alike_after (steady_read _ _ _) fun _ =>
      alike_after (steady_read _ _ _) fun _ => steady_ret _
  have hplain (k : Bytes) : Steady (plainBody m ivp s k) :=
    alike_after (steady_read _ _ _) fun _ => steady_ite (steady_ret _)
      (alike_after (steady_explicitIv m ivp s) fun _ => steady_ret _)
  exact alike_after (steady_check _ _) fun _ => alike_after (steady_check _ _) fun _ =>
    alike_after (steady_read _ _ _) fun k => alike_after hrecognise fun _ =>
    alike_after (steady_ite (hsalted k) (hplain k)) fun _ => alike_after (steady_check _ _) fun _ =>
    alike_after (steady_lift _) fun _ => alike_after (steady_lift _) fun _ => alike_ret ⟨rfl, rfl⟩

theorem alike_unpadRule (sch : Scheme) (s : State) : Alike SameShape (unpadRule sch s) (unpadRule sch s) :=
  alike_after (steady_check _ _) fun _ => alike_after (steady_lift _) fun _ =>
    alike_after (steady_read _ _ _) fun _ => alike_after (steady_lift _) fun _ => alike_ret ⟨rfl, rfl⟩

theorem alike_deriveRule (m : Mode) (s : State) : Alike SameShape (deriveRule m s) (deriveRule m s) :=
  alike_after (steady_check _ _) fun _ => alike_after (steady_check _ _) fun _ =>
    alike_after (steady_read _ _ _) fun _ => alike_after (steady_read _ _ _) fun _ => alike_ret ⟨rfl, rfl⟩

theorem alike_parseHdrRule (m : Mode) (s : State) : Alike SameShape (parseHdrRule m s) (parseHdrRule m s) :=
  alike_after (steady_check _ _) fun _ => alike_after (steady_check _ _) fun _ =>
    alike_after (steady_check _ _) fun _ => alike_after (steady_read _ _ _) fun _ =>
    alike_after (steady_read _ _ _) fun _ => alike_ret ⟨rfl, rfl⟩

theorem alike_blockRule (aligned : Nat → Bool) (f : Bytes → Bytes → Bytes) (s : State) :
    Alike SameShape (blockRule aligned f s) (blockRule aligned f s) :=
  alike_after (steady_check _ _) fun _ => alike_after (steady_check _ _) fun _ =>
    alike_after (steady_check _ _) fun _ => alike_after (steady_read _ _ _) fun _ =>
    alike_after (steady_read _ _ _) fun _ => alike_ret ⟨rfl, rfl⟩

/-- Every rule ends alike on as many answers (R404). -/
theorem alike_ruleOf (i : Instr) (s : State) : Alike SameShape (ruleOf i s) (ruleOf i s) := by
  cases i with
  | encryptCbc | encryptCfb | encryptCtr | encryptOfb | encryptGcm | encryptEcb => exact alike_encryptRule _ _ _ s
  | decryptCbc | decryptCfb | decryptCtr | decryptOfb | decryptGcm | decryptEcb => exact alike_decryptRule _ _ _ s
  | padPkcs7 | padIso9797m2 | padAnsix923 | padIso10126 | padZero | padNone => exact alike_padRule _ s
  | unpadPkcs7 | unpadIso9797m2 | unpadAnsix923 | unpadIso10126 | unpadZero | unpadNone => exact alike_unpadRule _ s
  | derive m => exact alike_deriveRule m s
  | buildHdr m => exact alike_buildHdrRule m s
  | parseHdr m => exact alike_parseHdrRule m s
  | ecbEnc | ecbDec | aesEnc | aesDec => exact alike_blockRule _ _ s

/-! ### The completion step of two alike ends -/

/-- What the host can tell of two completions, and how many answers are left. -/
def State.LooksAs (t t' : State) : Prop :=
  statusWord t = statusWord t' ∧ t.outlen = t'.outlen ∧ t.faults = t'.faults ∧ t.entropy.length = t'.entropy.length

theorem completeOk_looksAs {s : State} {r r' : Result} {rest rest' : Bytes} (h : SameShape r r')
    (hl : rest.length = rest'.length) :
    (completeOk r.bytes r.hdr { s with entropy := rest }).LooksAs
      (completeOk r'.bytes r'.hdr { s with entropy := rest' }) := by
  obtain ⟨hlen, hhdr⟩ := h
  refine ⟨?_, ?_, rfl, hl⟩
  · rw [hhdr]
    rfl
  · rw [outlen_completeOk, outlen_completeOk, hlen]

theorem completeErr_looksAs {s : State} (err : Err) {rest rest' : Bytes} (hl : rest.length = rest'.length) :
    (completeErr err { s with entropy := rest }).LooksAs (completeErr err { s with entropy := rest' }) :=
  ⟨rfl, rfl, rfl, hl⟩

/-- A result of the same length fits OUT or overflows it alike (R403). -/
theorem conclude_looksAs {s : State} {answers : Bytes} (hl : s.entropy.length = answers.length)
    {x x' : Reach Result} (h : x.Alike SameShape x') :
    (conclude s x).LooksAs (conclude { s with entropy := answers } x') := by
  cases h with
  | done hr hrest =>
    simp only [conclude, hr.1]
    split
    · exact completeOk_looksAs hr hrest
    · exact completeErr_looksAs .capacity hrest
  | raised hrest => exact completeErr_looksAs _ hrest
  | unwritten => exact ⟨rfl, rfl, rfl, hl⟩
  | waiting => exact ⟨rfl, rfl, rfl, hl⟩

/-- Settles O35: the rule does not read the answers in the state, and on as many of them it ends alike. -/
theorem drawsNeverDecideFailure : Obligations.DrawsNeverDecideFailure := by
  intro i s t t' answers hl ht ht'
  rw [exec_eq_next] at ht ht'
  injection ht with ht
  injection ht' with ht'
  subst ht ht'
  rw [ruleOf_entropy]
  exact conclude_looksAs hl.symm (alike_ruleOf i s s.entropy answers hl.symm)

end Sys2Proof.Machine
end

section
/-! SUPPORT. The statements on reset and on the hazards of a command in flight (spec 70_reset_and_hazards.md): what a
reset step leaves, what a command issued right after it finds, and what a host access does while BUSY = 1. -/

namespace Sys2Proof.Machine

/-! ### The reset state (R450) -/

section
variable (p : Platform) (answers : Bytes) (events : List Event)

theorem read_buffer_resetOn (sp : Space) (a : Nat) : ((State.resetOn p answers events).buffer sp).read a = none := by
  cases sp <;> rfl

theorem statusWord_resetOn : statusWord (State.resetOn p answers events) = 0#32 := by
  simp [statusWord, State.isBusy, State.resetOn]

theorem inlen_resetOn : (State.resetOn p answers events).inlen = 0#64 := by
  simp [State.inlen, State.resetOn]

theorem drawPending_resetOn : (State.resetOn p answers events).drawPending = false := rfl

end

/-- A reset event on the agenda is taken, and the rest of the agenda stays. -/
theorem step_of_reset {s : State} {rest : List Event} (h : s.agenda = .reset :: rest) :
    step s = .next (State.resetOn s.platform s.entropy rest) := by
  simp only [step, h, resetStep]

/-- Settles O25: the reset step gives `State.resetOn`, whose registers, buffers and FAULT are R450's. -/
theorem resetGivesTheResetState : Obligations.ResetGivesTheResetState := fun _ _ h =>
  ⟨_, step_of_reset h, rfl, drawPending_resetOn .., read_buffer_resetOn _ _ _, statusWord_resetOn ..,
    fun _ => readReg_reserved _⟩

/-- Settles O26: the reset state of every legal platform meets the invariant, and the default platform is legal. -/
theorem resetMeetsTheInvariant : Obligations.ResetMeetsTheInvariant :=
  ⟨inv_resetOn (p := Platform.default) (by decide) [] [], fun _ answers events hp => inv_resetOn hp answers events⟩

/-! ### A command with no set-up (R452) -/

section
variable (w : Word) (p : Platform) (answers : Bytes) (events : List Event)

@[simp] theorem keyBytes_issue_resetOn : (issue w (State.resetOn p answers events)).keyBytes = 0 := rfl

@[simp] theorem blockSize_issue_resetOn : (issue w (State.resetOn p answers events)).blockSize = 0 := rfl

@[simp] theorem inBytes_issue_resetOn : (issue w (State.resetOn p answers events)).inBytes = 0 := by
  simp [State.inBytes, inlen_resetOn]

end

/-- The commands that do not use the key are PAD's and UNPAD's (R244). -/
theorem eq_padInstr_or_unpadInstr {i : Instr} (h : usesKey i = false) :
    ∃ sch, i = padInstr sch ∨ i = unpadInstr sch := by
  cases i with
  | encryptCbc | encryptCfb | encryptCtr | encryptOfb | encryptGcm | encryptEcb => exact nomatch h
  | decryptCbc | decryptCfb | decryptCtr | decryptOfb | decryptGcm | decryptEcb => exact nomatch h
  | derive | buildHdr | parseHdr | ecbEnc | ecbDec | aesEnc | aesDec => exact nomatch h
  | padPkcs7 => exact ⟨.pkcs7, .inl rfl⟩
  | padIso9797m2 => exact ⟨.iso9797m2, .inl rfl⟩
  | padAnsix923 => exact ⟨.ansix923, .inl rfl⟩
  | padIso10126 => exact ⟨.iso10126, .inl rfl⟩
  | padZero => exact ⟨.zero, .inl rfl⟩
  | padNone => exact ⟨.noPad, .inl rfl⟩
  | unpadPkcs7 => exact ⟨.pkcs7, .inr rfl⟩
  | unpadIso9797m2 => exact ⟨.iso9797m2, .inr rfl⟩
  | unpadAnsix923 => exact ⟨.ansix923, .inr rfl⟩
  | unpadIso10126 => exact ⟨.iso10126, .inr rfl⟩
  | unpadZero => exact ⟨.zero, .inr rfl⟩
  | unpadNone => exact ⟨.noPad, .inr rfl⟩

/-- Settles O28: INLEN 0 is within IN, so the check that fails is KEYLEN's, or BLKSZ's where no key is used. -/
theorem noSetupFailsAtTheFirstCheck : Obligations.NoSetupFailsAtTheFirstCheck := by
  intro i p answers events
  have hin : (issue (encode i) (State.resetOn p answers events)).inBytes ≤ p.inCap := by simp
  cases hkey : usesKey i with
  | true => exact keyLengthIsCheckedNext i _ hkey (fun _ => hin) (by simp) (by simp) (by simp)
  | false =>
    obtain ⟨sch, hi⟩ := eq_padInstr_or_unpadInstr hkey
    exact blockSizeIsCheckedNext sch i _ hi hin (.inl rfl)

/-! ### A host access while BUSY = 1 (R460, R461) -/

section
variable {s : State} {width off addr : Nat} {v : Word} {sp : Space} {b : Byte} (hbusy : s.isBusy = true)
include hbusy

theorem hostCtrlWrite_of_busy (hf : ctrlForm width off = true) :
    hostCtrlWrite width off v s = hostFault .hostWriteWhileBusy s := by
  simp [hostCtrlWrite, hf, hbusy]

theorem hostBufWrite_of_busy (hsp : sp ≠ .out) (ha : addr < sp.size s.platform) :
    hostBufWrite sp addr b s = hostFault .hostWriteWhileBusy s := by
  simp [hostBufWrite, hsp, Nat.not_le.2 ha, hbusy]

theorem hostCtrlRead_outlen_of_busy (hf : ctrlForm width off = true) (hoff : outlenReg off = true) :
    hostCtrlRead width off s = hostFault .hostReadWhileBusy s := by
  simp [hostCtrlRead, hf, hoff, hbusy]

theorem hostBufRead_out_of_busy (ha : addr < Space.out.size s.platform) :
    hostBufRead .out addr s = busyOutRead addr s := by
  simp [hostBufRead, Nat.not_le.2 ha, hbusy]

end

theorem busyOutRead_of_written {s : State} {addr : Nat} {b : Byte} (hr : s.out.read addr = some b) :
    busyOutRead addr s = hostFault .hostReadWhileBusy s := by
  simp [busyOutRead, hr]

theorem busyOutRead_of_unwritten {s : State} {addr : Nat} (hr : s.out.read addr = none) :
    busyOutRead addr s = hostFault .hostReadWhileBusy (s.addFault .hostReadUnwritten) := by
  simp [busyOutRead, hr]

theorem HostTurn.bufRead_lt_size {s t : State} {sp : Space} {addr : Nat} (h : HostTurn (.bufRead sp addr) s t)
    (hwf : (Access.bufRead sp addr).wf s.platform = true) : addr < sp.size t.platform := by
  rw [h.size_eq]
  exact of_decide_eq_true hwf

theorem HostTurn.bufWrite_lt_size {s t : State} {sp : Space} {addr : Nat} {b : Byte}
    (h : HostTurn (.bufWrite sp addr b) s t) (hwf : (Access.bufWrite sp addr b).wf s.platform = true) :
    sp ≠ .out ∧ addr < sp.size t.platform := by
  rw [h.size_eq]
  exact of_decide_eq_true hwf

/-- Settles O23: a well-formed access passes the check of its form, and the check of BUSY comes next. -/
theorem accessWhileBusyOnlyRecordsAFault : Obligations.AccessWhileBusyOnlyRecordsAFault := by
  intro s t a hturn hwf hbusy
  rw [hturn.step_eq, ← hturn.hostFault_eq .hostWriteWhileBusy, ← hturn.hostFault_eq .hostReadWhileBusy]
  have hb : t.isBusy = true := hturn.isBusy_eq.trans hbusy
  have hout : t.out = s.out := hturn.buffer_eq .out
  refine ⟨?writes, ?reads, ?unwritten, ?otherRegisters, ?otherBuffers⟩
  case writes =>
    rintro (⟨width, off, v, rfl⟩ | ⟨sp, addr, b, rfl⟩)
    · rw [hostStep, hostCtrlWrite_of_busy hb ((ctrlForm_eq_decide width off).trans hwf)]
    · obtain ⟨hsp, ha⟩ := hturn.bufWrite_lt_size hwf
      rw [hostStep, hostBufWrite_of_busy hb hsp ha]
  case reads =>
    rintro (rfl | rfl | ⟨addr, b, rfl, hr⟩)
    · rw [hostStep, hostCtrlRead_outlen_of_busy hb rfl rfl]
    · rw [hostStep, hostCtrlRead_outlen_of_busy hb rfl rfl]
    · rw [← hout] at hr
      rw [hostStep, hostBufRead_out_of_busy hb (hturn.bufRead_lt_size hwf), busyOutRead_of_written hr]
  case unwritten =>
    rintro addr rfl hr
    rw [← hout] at hr
    rw [hostStep, hostBufRead_out_of_busy hb (hturn.bufRead_lt_size hwf), busyOutRead_of_unwritten hr]
    obtain ⟨rest, -⟩ := hturn
    rfl
  case otherRegisters =>
    rintro off rfl h20 h24
    have hoff : outlenReg off = false := by simp [outlenReg, h20, h24]
    rw [hostStep, hostCtrlRead_of_form ((ctrlForm_eq_decide 32 off).trans hwf) (.inr hoff), hturn.readReg_eq]
  case otherBuffers =>
    rintro sp addr b rfl hsp hr
    rw [← hturn.buffer_eq] at hr
    rw [hostStep, hostBufRead_of_written (hturn.bufRead_lt_size hwf) (.inr hsp) hr]

end Sys2Proof.Machine
end
